-- ==== Sys2Proof/Word.lean ====
section
/-! DEFINITION. The words of the block: a 32-bit register value and an 8-bit byte (00_scope.md R6, R7). -/

namespace Sys2Proof

/-- A register value or a command word: an unsigned 32-bit value (00_scope.md R6, 10_state.md R21). -/
abbrev Word := BitVec 32

/-- A byte of MEM: an unsigned 8-bit value (00_scope.md R6, 20_memory.md R61). -/
abbrev Byte := BitVec 8

end Sys2Proof
end

