-- ==== Sys2Proof/Syntax.lean ====
section
/-! DEFINITION. The commands of the block: one constructor per row of spec/opcode_table.json (30_encoding.md R92). -/

namespace Sys2Proof

/-- The CH4 field: the channel count of the source image, 3 or 4 (30_encoding.md R91, R93). -/
inductive Channels where
  /-- CH4 = 0: pixels of 3 bytes. -/
  | three
  /-- CH4 = 1: pixels of 4 bytes. -/
  | four
  deriving DecidableEq, Repr

/-- A legal command (30_encoding.md R92). `c` is the CH4 field, `nexp` the NEXP field; the other operands of a command
are in the parameter registers (10_state.md R42). -/
inductive Instr where
  /-- SCALE.BL, OP 0x1: bilinear resize (42_scalers.md R150). -/
  | scaleBl (c : Channels)
  /-- SCALE.BC, OP 0x2: bicubic resize (42_scalers.md R160). -/
  | scaleBc (c : Channels)
  /-- ROW.PAD, OP 0x3: unpadded rows to padded rows (43_row_padder.md R183). -/
  | rowPad (c : Channels)
  /-- ROW.UNPAD, OP 0x4: padded rows to unpadded rows (43_row_padder.md R184). -/
  | rowUnpad (c : Channels)
  /-- PIX.TOCANON, OP 0x5: stored order to canonical order (41_pixel_format.md R122). -/
  | pixToCanon (c : Channels)
  /-- PIX.FROMCANON, OP 0x6: canonical order to stored order (41_pixel_format.md R123). -/
  | pixFromCanon (c : Channels)
  /-- PIX.FROMCANON.DA, OP 0x6 with CH4 = DROPA = 1: as PIX.FROMCANON, alpha dropped (41_pixel_format.md R124). -/
  | pixFromCanonDa
  /-- LZW.ENC, OP 0x7: index stream to sub-block chain (44_lzw_encoder.md R210). -/
  | lzwEnc (nexp : Nat)
  /-- LZW.DEC, OP 0x8: sub-block chain to index stream (45_lzw_decoder.md R250). -/
  | lzwDec (nexp : Nat)
  deriving DecidableEq, Repr

end Sys2Proof
end

