-- ==== Sys2Proof/WellFormed.lean ====
section
/-! DEFINITION. Which commands the command word can hold: NEXP is a 3-bit field (30_encoding.md R91, R94). -/

namespace Sys2Proof

/-- The NEXP field holds 0 to 7 (30_encoding.md R91: bits 10:8; R94). -/
abbrev nexpFits (nexp : Nat) : Prop := nexp ≤ 7

/-- A command is well formed when its operands fit their fields (30_encoding.md R94). CH4 is a `Channels`, so it always
fits. -/
abbrev Instr.wellFormed : Instr → Prop
  | .scaleBl _ => True
  | .scaleBc _ => True
  | .rowPad _ => True
  | .rowUnpad _ => True
  | .pixToCanon _ => True
  | .pixFromCanon _ => True
  | .pixFromCanonDa => True
  | .lzwEnc nexp => nexpFits nexp
  | .lzwDec nexp => nexpFits nexp

end Sys2Proof
end

