-- ==== Sys2Proof/Decode.lean ====
section
/-! DEFINITION. The command word: its fields, the total decoder (30_encoding.md R100), the encoder (R91, R92), and the
rows of the opcode table (R94). -/

namespace Sys2Proof

/-- `w[hi:lo]`, bits hi down to lo of w as an unsigned integer (00_scope.md R7). -/
def field (w : Word) (hi lo : Nat) : Nat := w.toNat / 2 ^ lo % 2 ^ (hi + 1 - lo)

/-- OP, bits 3:0 (30_encoding.md R91). -/
def opField (w : Word) : Nat := field w 3 0
/-- CH4, bit 4 (30_encoding.md R91). -/
def ch4Field (w : Word) : Nat := field w 4 4
/-- DROPA, bit 5 (30_encoding.md R91). -/
def dropaField (w : Word) : Nat := field w 5 5
/-- Bits 7:6, which must be 0 (30_encoding.md R91). -/
def zeroLoField (w : Word) : Nat := field w 7 6
/-- NEXP, bits 10:8 (30_encoding.md R91). -/
def nexpField (w : Word) : Nat := field w 10 8
/-- Bits 31:11, which must be 0 (30_encoding.md R91). -/
def zeroHiField (w : Word) : Nat := field w 31 11

/-- The channel count a CH4 bit selects (30_encoding.md R91). -/
def Channels.ofCh4 (bit : Nat) : Channels := if bit = 0 then .three else .four

/-- The CH4 bit of a channel count (30_encoding.md R91). -/
def Channels.ch4 : Channels → Nat
  | .three => 0
  | .four => 1

/-- Why a command word is illegal (30_encoding.md R95); every one of them completes with IllegalCmd. -/
inductive Illegal where
  /-- One of bits 7:6 or 31:11 is set. -/
  | zeroBitsSet
  /-- OP = 0x0, or OP from 0x9 to 0xF. -/
  | opUnassigned
  /-- NEXP ≠ 0 with OP from 0x1 to 0x6. -/
  | nexpWithoutLzw
  /-- DROPA = 1 with an OP other than 0x6. -/
  | dropaWithoutFromCanon
  /-- DROPA = 1 with OP = 0x6 and CH4 = 0. -/
  | dropaWithoutAlpha
  /-- CH4 = 1 with OP 0x7 or 0x8. -/
  | ch4WithLzw
  deriving DecidableEq, Repr

/-- A command with a free CH4 bit: DROPA and NEXP must be 0 (30_encoding.md R100, OP 1 to 5). -/
def decodeImage (w : Word) (mk : Channels → Instr) : Except Illegal Instr :=
  if dropaField w ≠ 0 then .error .dropaWithoutFromCanon
  else if nexpField w ≠ 0 then .error .nexpWithoutLzw
  else .ok (mk (.ofCh4 (ch4Field w)))

/-- OP = 6: PIX.FROMCANON, or PIX.FROMCANON.DA when DROPA and CH4 are set (30_encoding.md R100). -/
def decodeFromCanon (w : Word) : Except Illegal Instr :=
  if nexpField w ≠ 0 then .error .nexpWithoutLzw
  else if dropaField w = 0 then .ok (.pixFromCanon (.ofCh4 (ch4Field w)))
  else if ch4Field w = 1 then .ok .pixFromCanonDa
  else .error .dropaWithoutAlpha

/-- An LZW command: CH4 and DROPA must be 0 (30_encoding.md R100, OP 7 and 8). -/
def decodeLzw (w : Word) (mk : Nat → Instr) : Except Illegal Instr :=
  if dropaField w ≠ 0 then .error .dropaWithoutFromCanon
  else if ch4Field w ≠ 0 then .error .ch4WithLzw
  else .ok (mk (nexpField w))

/-- The total decoder of a command word (30_encoding.md R100). -/
def decode (w : Word) : Except Illegal Instr :=
  if zeroHiField w ≠ 0 ∨ zeroLoField w ≠ 0 then .error .zeroBitsSet
  else match opField w with
    | 1 => decodeImage w .scaleBl
    | 2 => decodeImage w .scaleBc
    | 3 => decodeImage w .rowPad
    | 4 => decodeImage w .rowUnpad
    | 5 => decodeImage w .pixToCanon
    | 6 => decodeFromCanon w
    | 7 => decodeLzw w .lzwEnc
    | 8 => decodeLzw w .lzwDec
    | _ => .error .opUnassigned

/-- The instruction the decoder reads from the low `nbits` bits of `w`, the bits above them 0. The command word is one
32-bit value, written whole to CMD, so it has no byte order (20_memory.md R64, 10_state.md R32). -/
def decodeTableWord (nbits w : Nat) : Option Instr :=
  match decode (BitVec.ofNat 32 (w % 2 ^ nbits)) with
  | .ok i => some i
  | .error _ => none

/-- A command word put together from its fields, format `C` (30_encoding.md R91). -/
def assemble (op ch4 dropa nexp : Nat) : Word := BitVec.ofNat 32 (op + ch4 * 2 ^ 4 + dropa * 2 ^ 5 + nexp * 2 ^ 8)

/-- The command word of a command (30_encoding.md R92). -/
def encode : Instr → Word
  | .scaleBl c => assemble 0x1 c.ch4 0 0
  | .scaleBc c => assemble 0x2 c.ch4 0 0
  | .rowPad c => assemble 0x3 c.ch4 0 0
  | .rowUnpad c => assemble 0x4 c.ch4 0 0
  | .pixToCanon c => assemble 0x5 c.ch4 0 0
  | .pixFromCanon c => assemble 0x6 c.ch4 0 0
  | .pixFromCanonDa => assemble 0x6 1 1 0
  | .lzwEnc nexp => assemble 0x7 0 0 nexp
  | .lzwDec nexp => assemble 0x8 0 0 nexp

/-- The `match` and the `mask` of the opcode-table row a command belongs to (30_encoding.md R94, opcode_table.json): a
word `w` selects the row when `w and mask = match`. -/
def tableRow : Instr → Word × Word
  | .scaleBl _ => (0x00000001#32, 0xFFFFFFEF#32)
  | .scaleBc _ => (0x00000002#32, 0xFFFFFFEF#32)
  | .rowPad _ => (0x00000003#32, 0xFFFFFFEF#32)
  | .rowUnpad _ => (0x00000004#32, 0xFFFFFFEF#32)
  | .pixToCanon _ => (0x00000005#32, 0xFFFFFFEF#32)
  | .pixFromCanon _ => (0x00000006#32, 0xFFFFFFEF#32)
  | .pixFromCanonDa => (0x00000036#32, 0xFFFFFFFF#32)
  | .lzwEnc _ => (0x00000007#32, 0xFFFFF8FF#32)
  | .lzwDec _ => (0x00000008#32, 0xFFFFF8FF#32)

end Sys2Proof
end

