-- ==== Sys2Proof/Config.lean ====
section
/-! DEFINITION. What is fixed for the whole machine: the parameters of 00_scope.md R5 and the values the spec leaves open. -/

namespace Sys2Proof

/-- PAD_ALIGN, the alignment of a BMP row in bytes (00_scope.md R5). -/
def Config.padAlign : Nat := 4

/-- SUBBLOCK_MAX, the most payload bytes in one GIF sub-block (00_scope.md R5). -/
def Config.subBlockMax : Nat := 255

/-- LZW_MAX_BITS, the widest LZW code (00_scope.md R5, 44_lzw_encoder.md R206; 92_eei_decisions.md D27). -/
def Config.lzwMaxBits : Nat := 12

/-- The number of codes of a full LZW table, 2^LZW_MAX_BITS = 4096 (00_scope.md R5, 44_lzw_encoder.md R206). -/
def Config.lzwCodes : Nat := 2 ^ Config.lzwMaxBits

/-- DESIGN CHOICE (log entry 1, unsafe for statements about `State.reset` alone): the MEM_SIZE of the one reset state
`Host.Core` asks for. MEM_SIZE is an OPEN parameter (00_scope.md R5), so it is a field of State and every statement
about all states holds for every MEM_SIZE. -/
def Config.memSizeAtReset : Nat := 2 ^ 32

/-- DESIGN CHOICE (log entry 2, unsafe): what a byte of MEM reads as that the memory list does not name. The spec calls
the contents of MEM after reset unspecified (10_state.md R40). -/
def Config.unlistedByte : Byte := 0#8

/-- Free value (log entry 10): REG_BASE, where the host's address map puts the register file (00_scope.md R5, OPEN). -/
opaque Config.regBase : Nat

/-- Free value (log entry 10): MEM_BASE, where the host's address map puts the memory window (00_scope.md R5, OPEN). -/
opaque Config.memBase : Nat

/-- Free value (log entry 6): what a 32-bit register holds when a rule writes it a number that has no 32-bit value. The
spec states none (00_scope.md R6: nothing wraps unless a rule says so). -/
opaque Config.unstatedWord : Nat → Word

/-! ## Host software (46_host_software.md), which no step of the machine uses -/

/-- Free value (log entry 15): the alpha stored when a 3-channel Color is written into a 4-channel image at a byte offset.
The document gives none (46_host_software.md R303, 91_not_in_source.md N15). -/
opaque Config.unstatedAlpha : Nat → Byte

/-- Free value (log entry 16): whether the host's `round` of num/den takes a tie up, in the nearest-neighbour resize
(46_host_software.md R316, 91_not_in_source.md N20). -/
opaque Config.roundTieUp : Nat → Nat → Bool

/-- Free value (log entry 16): the byte the nearest-neighbour resize stores at a destination offset when the rounded source
coordinate lies outside the image (46_host_software.md R316, 91_not_in_source.md N20). -/
opaque Config.unstatedSample : Nat → Byte

end Sys2Proof
end

