-- ==== Sys2Proof/Machine/State.lean ====
section
/-! DEFINITION. The state of the block (10_state.md, 20_memory.md), the inputs it receives from the host, the ways a step
can stop, and the state after reset (10_state.md R40). -/

namespace Sys2Proof.Machine

/-- The fourteen registers (10_state.md R21). -/
inductive Reg where
  | cmd | status | ctrl
  | srcAddr | srcLen | dstAddr | dstCap | srcW | srcH | dstW | dstH
  | resultLen | resultAux | errInfo
  deriving DecidableEq, Repr

/-- The errors a command can end in (60_exceptions.md R401, codes 1 to 8). -/
inductive ErrCode where
  | illegalCmd | param | range | overlap | index | overflow | decodeCode | decodeTrunc
  deriving DecidableEq, Repr

/-- What a command's rule yields (00_scope.md R8): the destination bytes and the two results, or one error with its
detail. -/
inductive CmdResult where
  /-- `Ok(dst_bytes, result_len, result_aux)`. -/
  | ok (dst : List Byte) (resultLen resultAux : Nat)
  /-- `Err(code, info)`. -/
  | err (code : ErrCode) (info : Nat)
  deriving DecidableEq, Repr

/-- MEM as the list of its bytes that differ from `Config.unlistedByte`, addresses strictly rising (20_memory.md R61). -/
abbrev Memory := List Host.Cell

/-- One bus operation of the host (30_encoding.md R98). Register offsets count from REG_BASE, memory addresses from
MEM_BASE. -/
inductive HostOp where
  /-- A register write of `width` bits at byte offset `offset` (`WR`: width 32). -/
  | regWrite (width offset : Nat) (value : Word)
  /-- A register read of `width` bits at byte offset `offset` (`RD`: width 32). -/
  | regRead (width offset : Nat)
  /-- `ST addr, b0 b1 ...`: stores bytes into MEM from `addr` upward. -/
  | memStore (addr : Nat) (bytes : List Byte)
  /-- `LD addr, n`: loads n bytes of MEM. -/
  | memLoad (addr n : Nat)
  deriving DecidableEq, Repr

/-- What happens next, in the one order in which the two agents and the reset input act (10_state.md R20, 20_memory.md
R73; log entry 4). -/
inductive Input where
  /-- The host takes a bus operation. -/
  | host (op : HostOp)
  /-- The block gets a turn: it completes the command in flight, if there is one (10_state.md R35). -/
  | block
  /-- `rst` is asserted (70_reset_and_hazards.md R450); `contents` are the unspecified bytes MEM then holds, which the
  outside world chooses (93_implementation_defined.md U2; log entry 3). -/
  | rst (contents : List Host.Cell)
  deriving DecidableEq, Repr

/-- What a host read returned (10_state.md R32, 20_memory.md R75). -/
inductive Reply where
  /-- No read has been made since reset. -/
  | none
  /-- The value of a register read. -/
  | word (value : Word)
  /-- The bytes of a memory load. -/
  | bytes (values : List Byte)
  deriving DecidableEq, Repr

/-- The machine stops with a fault. -/
inductive Fault where
  /-- Raised by a host store or load that reaches past MEM_SIZE: the address does not exist (20_memory.md R61). Safe: the
  spec says nothing of such an access (log entry 7). -/
  | noSuchMemory
  deriving DecidableEq, Repr

/-- The model gives the step no meaning. -/
inductive Refusal where
  /-- An instruction without a meaning, by its mnemonic. No arm answers it: every command has its meaning. Safe. -/
  | notModelled (mnemonic : String)
  /-- A host store or load of MEM while BUSY = 1 (20_memory.md R75; 93_implementation_defined.md U6: refuse). Safe. -/
  | memAccessWhileBusy
  /-- A host register access that is not an aligned 32-bit access (10_state.md R32; 93_implementation_defined.md U7:
  refuse). Safe. -/
  | registerAccessShape
  deriving DecidableEq, Repr

/-- The state of the machine. -/
structure State where
  /-- CMD, the last accepted command word (10_state.md R22). -/
  cmd : Word
  /-- STATUS.BUSY (10_state.md R23): a command is in flight. -/
  busy : Bool
  /-- STATUS.DONE (10_state.md R23), the interrupt's pending bit (60_exceptions.md R406). -/
  done : Bool
  /-- STATUS.ERR (10_state.md R23), sticky (60_exceptions.md R405). -/
  err : Bool
  /-- STATUS.ERRCODE (10_state.md R23, 60_exceptions.md R401). -/
  errCode : BitVec 4
  /-- CTRL.IE, the interrupt enable (10_state.md R24). -/
  ie : Bool
  /-- SRC_ADDR (10_state.md R25). -/
  srcAddr : Word
  /-- SRC_LEN (10_state.md R25). -/
  srcLen : Word
  /-- DST_ADDR (10_state.md R25). -/
  dstAddr : Word
  /-- DST_CAP (10_state.md R25). -/
  dstCap : Word
  /-- SRC_W (10_state.md R25). -/
  srcW : Word
  /-- SRC_H (10_state.md R25). -/
  srcH : Word
  /-- DST_W (10_state.md R25). -/
  dstW : Word
  /-- DST_H (10_state.md R25). -/
  dstH : Word
  /-- RESULT_LEN (10_state.md R26). -/
  resultLen : Word
  /-- RESULT_AUX (10_state.md R27). -/
  resultAux : Word
  /-- ERRINFO (10_state.md R28). -/
  errInfo : Word
  /-- MEM_SIZE, the OPEN parameter 1 ≤ MEM_SIZE ≤ 2^32 (00_scope.md R5, 20_memory.md R61); no step changes it. -/
  memSize : Nat
  /-- MEM, the buffer memory (10_state.md R39, 20_memory.md R61). -/
  mem : Memory
  /-- The model's own: what the outside world and the scheduler do next, in order (log entry 4). -/
  inputs : List Input
  /-- The model's own: what the last host read returned (log entry 11). -/
  reply : Reply
  deriving DecidableEq, Repr

/-- The machine right after reset (10_state.md R40, 70_reset_and_hazards.md R450): every register 0, no command in flight.
MEM is unspecified by the spec; this state lists no byte (log entry 2). MEM_SIZE is a parameter; this state takes
`Config.memSizeAtReset` (log entry 1). -/
def State.reset : State where
  cmd := 0#32
  busy := false
  done := false
  err := false
  errCode := 0#4
  ie := false
  srcAddr := 0#32
  srcLen := 0#32
  dstAddr := 0#32
  dstCap := 0#32
  srcW := 0#32
  srcH := 0#32
  dstW := 0#32
  dstH := 0#32
  resultLen := 0#32
  resultAux := 0#32
  errInfo := 0#32
  memSize := Config.memSizeAtReset
  mem := []
  inputs := []
  reply := .none

end Sys2Proof.Machine
end

