-- ==== Sys2Proof/Machine/Flags.lean ====
section
/-! DEFINITION. STATUS, CTRL and the `irq` line computed from the flags State holds (10_state.md R23, R24, R31, R37), and
the error codes (60_exceptions.md R401). The block has no other flags (10_state.md R31). -/

namespace Sys2Proof.Machine

/-- One flag as a bit (00_scope.md R7). -/
def flagBit (b : Bool) : Nat := if b then 1 else 0

/-- Bit i of a register value (00_scope.md R7). -/
def bitOf (v : Word) (i : Nat) : Bool := v.toNat / 2 ^ i % 2 = 1

/-- The code of an error in STATUS.ERRCODE (60_exceptions.md R401). -/
def ErrCode.code : ErrCode → BitVec 4
  | .illegalCmd => 1#4
  | .param => 2#4
  | .range => 3#4
  | .overlap => 4#4
  | .index => 5#4
  | .overflow => 6#4
  | .decodeCode => 7#4
  | .decodeTrunc => 8#4

/-- The value a read of STATUS returns: BUSY, DONE, ERR in bits 0, 1, 2, ERRCODE in bits 7:4, every other bit 0
(10_state.md R23). -/
def State.statusWord (s : State) : Word :=
  BitVec.ofNat 32 (flagBit s.busy + flagBit s.done * 2 + flagBit s.err * 4 + s.errCode.toNat * 16)

/-- The value a read of CTRL returns: IE in bit 0, every other bit 0 (10_state.md R24). -/
def State.ctrlWord (s : State) : Word := BitVec.ofNat 32 (flagBit s.ie)

/-- The interrupt output: `STATUS.DONE and CTRL.IE`, a level (10_state.md R37, 60_exceptions.md R406). -/
def State.irq (s : State) : Bool := s.done && s.ie

/-- A CMD write is accepted exactly when BUSY = 0 and ERR = 0 (10_state.md R33). -/
def State.accepts (s : State) : Bool := !s.busy && !s.err

end Sys2Proof.Machine
end

