-- ==== Sys2Proof/Machine/Ops.lean ====
section
/-! DEFINITION. The named operations over memory and registers that the commands and the host port share: bytes of MEM
(20_memory.md R61), regions (R62, R63), acceptance (10_state.md R33), completion (R35), taking an error and returning from
it (60_exceptions.md R404, R405). -/

namespace Sys2Proof.Machine

/-! ## MEM -/

/-- The canonical form of a memory: addresses strictly rising, and no byte listed that reads the same unlisted. -/
abbrev Memory.wf (m : Memory) : Prop :=
  m.Pairwise (fun x y => x.1 < y.1) ∧ ∀ cell ∈ m, cell.2 ≠ Config.unlistedByte

/-- `MEM[a]`, the byte at address a (00_scope.md R8). -/
def Memory.read : Memory → Nat → Byte
  | [], _ => Config.unlistedByte
  | (b, v) :: rest, a => if a = b then v else Memory.read rest a

/-- The memory without the byte at address a. -/
def Memory.erase (m : Memory) (a : Nat) : Memory := m.filter fun cell => cell.1 ≠ a

/-- The memory with the byte v put in before the first greater address. -/
def Memory.insert : Memory → Nat → Byte → Memory
  | [], a, v => [(a, v)]
  | (b, u) :: rest, a, v => if a < b then (a, v) :: (b, u) :: rest else (b, u) :: Memory.insert rest a v

/-- The memory with byte v at address a; a byte that reads the same unlisted is not listed. -/
def Memory.write (m : Memory) (a : Nat) (v : Byte) : Memory :=
  if v = Config.unlistedByte then m.erase a else (m.erase a).insert a v

/-- `MemRead(addr, n)`: the bytes at addr .. addr+n-1 (00_scope.md R8). -/
def Memory.readBytes (m : Memory) (addr n : Nat) : List Byte := (List.range n).map fun i => m.read (addr + i)

/-- `MemWrite(addr, n, v)`: the bytes of v stored at addr .. addr+n-1 (00_scope.md R8). -/
def Memory.writeBytes (m : Memory) (addr : Nat) : List Byte → Memory
  | [] => m
  | v :: rest => Memory.writeBytes (m.write addr v) (addr + 1) rest

/-- The memory of `size` bytes whose bytes are the given cells, a cell outside the memory dropped and a later cell for the
same address winning. Every memory of that size is one of these. -/
def Memory.ofCells (size : Nat) : List Host.Cell → Memory
  | [] => []
  | (a, v) :: rest =>
    let m := Memory.ofCells size rest
    if a < size then m.write a v else m

/-! ## Regions -/

/-- The region `[base, base + len)` (20_memory.md R62). -/
structure Region where
  base : Nat
  len : Nat
  deriving DecidableEq, Repr

/-- A region is in range when `a + n ≤ MEM_SIZE`, the sum unbounded (20_memory.md R62). -/
def Region.inRange (r : Region) (memSize : Nat) : Bool := r.base + r.len ≤ memSize

/-- Two regions overlap when both are non-empty and share an address (20_memory.md R63). -/
def Region.overlaps (r q : Region) : Bool := 0 < r.len && 0 < q.len && r.base < q.base + q.len && q.base < r.base + r.len

/-- The checks every command makes before it looks at its data, in the order of 60_exceptions.md R402: a zero size
(Param), a region outside MEM (Range), regions that share a byte (Overlap); then the command's own work. -/
def checked (zeroSize : Bool) (memSize : Nat) (src dst : Region) (work : Unit → CmdResult) : CmdResult :=
  if zeroSize then .err .param 0
  else if !src.inRange memSize || !dst.inRange memSize then .err .range 0
  else if src.overlaps dst then .err .overlap 0
  else work ()

/-- `n` bytes, byte i given by f. -/
def gather (n : Nat) (f : Nat → Byte) : List Byte := (List.range n).map f

/-! ## Registers -/

/-- The 32-bit register value of a number. A number with no 32-bit value has no stated one (00_scope.md R6): then it is the
free value `Config.unstatedWord` (log entry 6). -/
def registerValue (n : Nat) : Word := if n < 2 ^ 32 then BitVec.ofNat 32 n else Config.unstatedWord n

/-- The byte offset of a register from REG_BASE (10_state.md R21). -/
def Reg.offset : Reg → Nat
  | .cmd => 0x00
  | .status => 0x04
  | .ctrl => 0x08
  | .srcAddr => 0x0C
  | .srcLen => 0x10
  | .dstAddr => 0x14
  | .dstCap => 0x18
  | .srcW => 0x1C
  | .srcH => 0x20
  | .dstW => 0x24
  | .dstH => 0x28
  | .resultLen => 0x2C
  | .resultAux => 0x30
  | .errInfo => 0x34

/-- The register at a byte offset; offsets 0x38 and up hold none (10_state.md R21, R29). -/
def Reg.atOffset (offset : Nat) : Option Reg :=
  match offset with
  | 0x00 => some .cmd
  | 0x04 => some .status
  | 0x08 => some .ctrl
  | 0x0C => some .srcAddr
  | 0x10 => some .srcLen
  | 0x14 => some .dstAddr
  | 0x18 => some .dstCap
  | 0x1C => some .srcW
  | 0x20 => some .srcH
  | 0x24 => some .dstW
  | 0x28 => some .dstH
  | 0x2C => some .resultLen
  | 0x30 => some .resultAux
  | 0x34 => some .errInfo
  | _ => none

/-- `x[NAME]`, the current value of a register, reserved bits 0 (00_scope.md R8, 10_state.md R32). -/
def State.readReg (s : State) : Reg → Word
  | .cmd => s.cmd
  | .status => s.statusWord
  | .ctrl => s.ctrlWord
  | .srcAddr => s.srcAddr
  | .srcLen => s.srcLen
  | .dstAddr => s.dstAddr
  | .dstCap => s.dstCap
  | .srcW => s.srcW
  | .srcH => s.srcH
  | .dstW => s.dstW
  | .dstH => s.dstH
  | .resultLen => s.resultLen
  | .resultAux => s.resultAux
  | .errInfo => s.errInfo

/-- The value a read at an offset returns; a reserved offset reads 0 (10_state.md R29). -/
def State.readOffset (s : State) (offset : Nat) : Word :=
  match Reg.atOffset offset with
  | some r => s.readReg r
  | none => 0#32

/-! ## The life of a command -/

/-- Acceptance of the command word v (10_state.md R33): CMD is stored, BUSY set, DONE cleared, the result registers
cleared. -/
def State.accept (s : State) (v : Word) : State :=
  { s with cmd := v, busy := true, done := false, resultLen := 0#32, resultAux := 0#32 }

/-- Error entry (60_exceptions.md R404): ERR, ERRCODE and ERRINFO record the error, BUSY falls, DONE rises; nothing else
changes. -/
def State.takeError (s : State) (code : ErrCode) (info : Nat) : State :=
  { s with err := true, errCode := code.code, errInfo := registerValue info, busy := false, done := true }

/-- Return from an error (60_exceptions.md R405, 10_state.md R36): ERR, ERRCODE and ERRINFO are cleared. -/
def State.clearErr (s : State) : State := { s with err := false, errCode := 0#4, errInfo := 0#32 }

/-- DONE is cleared (10_state.md R36). -/
def State.clearDone (s : State) : State := { s with done := false }

/-- Successful completion (10_state.md R35): the destination bytes are written at DST_ADDR and the two results recorded,
BUSY falls, DONE rises, all in one step. -/
def State.finish (s : State) (dst : List Byte) (resultLen resultAux : Nat) : State :=
  { s with
    mem := s.mem.writeBytes s.dstAddr.toNat dst
    resultLen := registerValue resultLen
    resultAux := registerValue resultAux
    busy := false
    done := true }

/-- The host is answered (10_state.md R32, 20_memory.md R75). -/
def State.answer (s : State) (reply : Reply) : State := { s with reply := reply }

/-- The host stores bytes at addr and upward (20_memory.md R75). -/
def State.store (s : State) (addr : Nat) (bytes : List Byte) : State := { s with mem := s.mem.writeBytes addr bytes }

/-- The completion step with the result of the command's rule (10_state.md R35, 60_exceptions.md R400). -/
def State.complete (s : State) : CmdResult → State
  | .ok dst resultLen resultAux => s.finish dst resultLen resultAux
  | .err code info => s.takeError code info

end Sys2Proof.Machine
end

