-- ==== Sys2Proof/Machine/Operands.lean ====
section
/-! DEFINITION. The operands of the commands: what the command word gives (30_encoding.md R93), the data layouts of
20_memory.md R66 to R70, and the one addressing form, base plus offset (R78). -/

namespace Sys2Proof.Machine

/-! ## Operands of the command word -/

/-- C, the channels of an image: 3 if CH4 = 0 else 4 (30_encoding.md R93). -/
def channelCount : Channels → Nat
  | .three => 3
  | .four => 4

/-- N = 2^(NEXP+1), the colour-table size (30_encoding.md R93). -/
def tableSize (nexp : Nat) : Nat := 2 ^ (nexp + 1)

/-- b = NEXP + 2, the minimum code size (30_encoding.md R93, 44_lzw_encoder.md R202). -/
def minCodeSize (nexp : Nat) : Nat := nexp + 2

/-- The Clear-Code, N (44_lzw_encoder.md R201). -/
def clearCode (nexp : Nat) : Nat := tableSize nexp

/-- End-of-Information, N + 1 (44_lzw_encoder.md R201). -/
def endCode (nexp : Nat) : Nat := tableSize nexp + 1

/-- The first free code, N + 2 (44_lzw_encoder.md R201). -/
def firstFreeCode (nexp : Nat) : Nat := tableSize nexp + 2

/-! ## Layouts -/

/-- Bytes of an unpadded image of w by h pixels of c channels (20_memory.md R66). -/
def imageBytes (w h c : Nat) : Nat := w * h * c

/-- Offset of channel k of pixel (x, y) in an unpadded image (20_memory.md R66, R67). -/
def pixelOffset (w c x y k : Nat) : Nat := c * (y * w + x) + k

/-- L, the bytes of one unpadded row (20_memory.md R68, 43_row_padder.md R181). -/
def rowBytes (w c : Nat) : Nat := w * c

/-- The pad bytes of one row: `(4 - L mod 4) mod 4` (20_memory.md R68, 43_row_padder.md R181). -/
def rowPadding (w c : Nat) : Nat := (Config.padAlign - rowBytes w c % Config.padAlign) % Config.padAlign

/-- stride, the bytes of one padded row (20_memory.md R68, 43_row_padder.md R181). -/
def rowStride (w c : Nat) : Nat := rowBytes w c + rowPadding w c

/-- Bytes of a padded image (20_memory.md R68). -/
def paddedBytes (w h c : Nat) : Nat := h * rowStride w c

/-- Offset of byte i of row y of a padded image (20_memory.md R68). -/
def paddedOffset (w c y i : Nat) : Nat := y * rowStride w c + i

/-! ## Operands of the parameter registers -/

/-- The source region of `n` bytes at SRC_ADDR (20_memory.md R62, R78). -/
def State.srcRegion (s : State) (n : Nat) : Region := { base := s.srcAddr.toNat, len := n }

/-- The destination region of `n` bytes at DST_ADDR (20_memory.md R62, R78). -/
def State.dstRegion (s : State) (n : Nat) : Region := { base := s.dstAddr.toNat, len := n }

/-- The source byte at offset `i` from SRC_ADDR (20_memory.md R78). -/
def State.srcByte (s : State) (i : Nat) : Byte := s.mem.read (s.srcAddr.toNat + i)

end Sys2Proof.Machine
end

