-- ==== Sys2Proof/Machine/LzwEncoder.lean ====
section
/-! DEFINITION. lzw_entropy_coder: LZW.ENC (44_lzw_encoder.md). Indices and codes are numbers; bytes appear only where MEM
is read and written. -/

namespace Sys2Proof.Machine

/-! ## Codes -/

/-- The encoder's growing part: the code table, the next free code and the code width (44_lzw_encoder.md R203). -/
structure Encoder where
  /-- The code table, index strings to codes. -/
  table : List (List Nat × Nat)
  /-- The next free code. -/
  next : Nat
  /-- The current code width in bits. -/
  width : Nat
  deriving DecidableEq, Repr

/-- The encoder at the start: one entry per index below N, the first free code N + 2, width b (44_lzw_encoder.md R203). -/
def Encoder.start (nexp : Nat) : Encoder where
  table := (List.range (tableSize nexp)).map fun i => ([i], i)
  next := firstFreeCode nexp
  width := minCodeSize nexp

/-- `table[str]`, the code of an index string, if it has one (44_lzw_encoder.md R203). -/
def Encoder.code? (e : Encoder) (str : List Nat) : Option Nat := e.table.lookup str

/-- `emit(table[buf])`: the code of the string buffer, with the current width (44_lzw_encoder.md R204). The buffer is
always a key of the table (R203). -/
def Encoder.emit (e : Encoder) (buf : List Nat) : Nat × Nat := ((e.code? buf).getD 0, e.width)

/-- `after_data_code(insert)`: the table grows unless it is full, and the width grows when the code the next entry gets,
or would get, is 2^width (44_lzw_encoder.md R205, R206). -/
def Encoder.afterDataCode (e : Encoder) (insert : Option (List Nat)) : Encoder :=
  let c := e.next
  let grown : Encoder :=
    match insert with
    | some str => if c < Config.lzwCodes then { e with table := (str, c) :: e.table, next := c + 1 } else e
    | none => e
  if c = 2 ^ e.width ∧ e.width < Config.lzwMaxBits then { grown with width := e.width + 1 } else grown

/-- The loop of 44_lzw_encoder.md R204 after the Clear-Code: from the encoder, the string buffer and the indices to come,
the codes still to be emitted, each with its width; `eoi` is the End-of-Information code. -/
def encodeRest (eoi : Nat) (e : Encoder) (buf : List Nat) : List Nat → List (Nat × Nat)
  | [] => [e.emit buf, (eoi, (e.afterDataCode none).width)]
  | k :: rest =>
    match e.code? (buf ++ [k]) with
    | some _ => encodeRest eoi e (buf ++ [k]) rest
    | none => e.emit buf :: encodeRest eoi (e.afterDataCode (some (buf ++ [k]))) [k] rest

/-- The codes of an index stream with their widths: the Clear-Code at width b, then the loop seeded with the first index
(44_lzw_encoder.md R204). The command refuses the empty stream before this (R210). -/
def encodeCodes (nexp : Nat) : List Nat → List (Nat × Nat)
  | [] => []
  | first :: rest =>
    (clearCode nexp, minCodeSize nexp) :: encodeRest (endCode nexp) (Encoder.start nexp) [first] rest

/-! ## Bytes -/

/-- The bits of a code of the given width, least significant first (44_lzw_encoder.md R207). -/
def codeBits (code width : Nat) : List Bool := (List.range width).map code.testBit

/-- The bit string of a list of codes (44_lzw_encoder.md R207). -/
def streamBits (codes : List (Nat × Nat)) : List Bool := codes.flatMap fun p => codeBits p.1 p.2

/-- The number whose bits, least significant first, are given (44_lzw_encoder.md R207, 45_lzw_decoder.md R242). -/
def bitsValue : List Bool → Nat
  | [] => 0
  | b :: rest => flagBit b + 2 * bitsValue rest

/-- Bit q of the string is bit `q mod 8` of byte `q div 8`; the unused high bits of the last byte are 0
(44_lzw_encoder.md R207). -/
def packBits (bits : List Bool) : List Nat :=
  (List.range ((bits.length + 7) / 8)).map fun i => bitsValue ((bits.drop (8 * i)).take 8)

/-- `pack(codes)` (44_lzw_encoder.md R207). -/
def pack (codes : List (Nat × Nat)) : List Nat := packBits (streamBits codes)

/-- Sub-block i of the payload: its length byte, then its payload bytes, 255 in every sub-block but the last
(44_lzw_encoder.md R208). -/
def subBlock (payload : List Nat) (i : Nat) : List Nat :=
  let part := (payload.drop (Config.subBlockMax * i)).take Config.subBlockMax
  part.length :: part

/-- `frame(bytes)`: the sub-blocks and the terminator 0x00 (44_lzw_encoder.md R208). -/
def frame (payload : List Nat) : List Nat :=
  ((List.range ((payload.length + Config.subBlockMax - 1) / Config.subBlockMax)).flatMap (subBlock payload)) ++ [0x00]

/-- The sub-block chain of an index stream: `frame(pack(codes))` (44_lzw_encoder.md R210). -/
def lzwEncode (nexp : Nat) (indices : List Nat) : List Nat := frame (pack (encodeCodes nexp indices))

/-! ## The command -/

/-- LZW.ENC's result (44_lzw_encoder.md R210): Param for an empty stream, Range, Overlap, Index at the first index not below
N, Overflow when the chain is longer than DST_CAP; then the chain, its length and b. -/
def compress (nexp : Nat) (s : State) : CmdResult :=
  let n := s.srcLen.toNat
  let cap := s.dstCap.toNat
  checked (s.srcLen = 0#32) s.memSize (s.srcRegion n) (s.dstRegion cap) fun _ =>
    let indices := (s.mem.readBytes s.srcAddr.toNat n).map (·.toNat)
    match indices.findIdx? (fun i => tableSize nexp ≤ i) with
    | some p => .err .index p
    | none =>
      let out := lzwEncode nexp indices
      if cap < out.length then .err .overflow 0
      else .ok (out.map (BitVec.ofNat 8)) out.length (minCodeSize nexp)

/-- LZW.ENC: compress an index stream into a sub-block chain (44_lzw_encoder.md R210). -/
def execLzwEnc (nexp : Nat) (s : State) : Host.Outcome State Fault Refusal :=
  .next (s.complete (compress nexp s))

end Sys2Proof.Machine
end

