-- ==== Sys2Proof/Machine/LzwDecoder.lean ====
section
/-! DEFINITION. lzw_entropy_decoder: LZW.DEC (45_lzw_decoder.md). -/

namespace Sys2Proof.Machine

/-- A decoder error: its code and its detail (60_exceptions.md R401). -/
abbrev DecodeError := ErrCode × Nat

/-! ## Deframing -/

/-- `deframe(src)` (45_lzw_decoder.md R241): the payload of the chain and the number of source bytes it takes, terminator
included. `used` counts the bytes before `src`; the fuel is at least one more than the bytes left. -/
def deframeFrom (used : Nat) : Nat → List Nat → Except DecodeError (List Nat × Nat)
  | 0, _ => .error (.decodeTrunc, 0)
  | _ + 1, [] => .error (.decodeTrunc, 0)
  | fuel + 1, len :: rest =>
    if len = 0 then .ok ([], used + 1)
    else if rest.length < len then .error (.decodeTrunc, 0)
    else
      match deframeFrom (used + 1 + len) fuel (rest.drop len) with
      | .ok (payload, total) => .ok (rest.take len ++ payload, total)
      | .error e => .error e

/-- `deframe(src)` of a whole source region (45_lzw_decoder.md R241). -/
def deframe (src : List Nat) : Except DecodeError (List Nat × Nat) := deframeFrom 0 (src.length + 1) src

/-! ## Codes -/

/-- The decoder's state between two codes (45_lzw_decoder.md R243), less the bits still to be read, the indices produced
and the count of codes, which the loop carries. -/
structure Decoder where
  /-- Table entries, codes N+2 and up to index strings. -/
  table : List (Nat × List Nat)
  /-- The next free code. -/
  next : Nat
  /-- The current code width. -/
  width : Nat
  /-- The previous data code. -/
  prev : Option Nat
  deriving DecidableEq, Repr

/-- The decoder at the start and after a Clear-Code (45_lzw_decoder.md R243). -/
def Decoder.start (nexp : Nat) : Decoder where
  table := []
  next := firstFreeCode nexp
  width := minCodeSize nexp
  prev := none

/-- `string(c)`: the literal [c] for c < N, else the table's entry (45_lzw_decoder.md R243). -/
def Decoder.string (nexp : Nat) (d : Decoder) (c : Nat) : List Nat :=
  if c < tableSize nexp then [c] else (d.table.lookup c).getD []

/-- A string with its own first index appended, or that of another string (45_lzw_decoder.md R244, R245). -/
def extend (str head : List Nat) : List Nat := str ++ head.take 1

/-- The string of the data code c, or none for an unknown code (45_lzw_decoder.md R244, R246). -/
def Decoder.classify (nexp : Nat) (d : Decoder) (c : Nat) : Option (List Nat) :=
  match d.prev with
  | none => if tableSize nexp ≤ c then none else some [c]
  | some p =>
    if c < tableSize nexp ∨ (firstFreeCode nexp ≤ c ∧ c < d.next) then some (d.string nexp c)
    else if c = d.next ∧ d.next < Config.lzwCodes then some (extend (d.string nexp p) (d.string nexp p))
    else none

/-- The table after a data code with string `str`: the previous string extended by the first index of `str`, unless there
is no previous code or the table is full (45_lzw_decoder.md R244, R245). -/
def Decoder.grow (nexp : Nat) (d : Decoder) (str : List Nat) : Decoder :=
  match d.prev with
  | none => d
  | some p =>
    if d.next < Config.lzwCodes then
      { d with table := (d.next, extend (d.string nexp p) str) :: d.table, next := d.next + 1 }
    else d

/-- The code width after a data code (45_lzw_decoder.md R247). -/
def Decoder.widen (d : Decoder) : Decoder :=
  if d.next = 2 ^ d.width ∧ d.width < Config.lzwMaxBits then { d with width := d.width + 1 } else d

/-- The decoder after the data code c with string `str` (45_lzw_decoder.md R244). -/
def Decoder.afterDataCode (nexp : Nat) (d : Decoder) (c : Nat) (str : List Nat) : Decoder :=
  Decoder.widen { Decoder.grow nexp d str with prev := some c }

/-- The loop of 45_lzw_decoder.md R244: the indices produced when End-of-Information is read, or the first error. `bits`
are the bits still to be read (R242), `out` the indices so far, `ord` the number of codes read. Every code takes at least
one bit, so fuel one more than the bits left never runs out. -/
def decodeLoop (nexp cap : Nat) : Nat → Decoder → List Bool → List Nat → Nat → Except DecodeError (List Nat)
  | 0, _, _, _, _ => .error (.decodeTrunc, 1)
  | fuel + 1, d, bits, out, ord =>
    if bits.length < d.width then .error (.decodeTrunc, 1)
    else
      let c := bitsValue (bits.take d.width)
      let rest := bits.drop d.width
      if c = clearCode nexp then decodeLoop nexp cap fuel (Decoder.start nexp) rest out (ord + 1)
      else if c = endCode nexp then .ok out
      else
        match d.classify nexp c with
        | none => .error (.decodeCode, ord)
        | some str =>
          if cap < out.length + str.length then .error (.overflow, 0)
          else decodeLoop nexp cap fuel (d.afterDataCode nexp c str) rest (out ++ str) (ord + 1)

/-- The bit string of a payload: bit q is bit `q mod 8` of byte `q div 8` (45_lzw_decoder.md R242). -/
def payloadBits (payload : List Nat) : List Bool := payload.flatMap fun byte => codeBits byte 8

/-- The loop of 45_lzw_decoder.md R244 from any decoder, with fuel for all the bits left. -/
def decodeFrom (nexp cap : Nat) (d : Decoder) (bits : List Bool) (out : List Nat) (ord : Nat) :
    Except DecodeError (List Nat) :=
  decodeLoop nexp cap (bits.length + 1) d bits out ord

/-- Phase 2: the indices of a payload (45_lzw_decoder.md R244). -/
def decodePayload (nexp cap : Nat) (payload : List Nat) : Except DecodeError (List Nat) :=
  decodeFrom nexp cap (Decoder.start nexp) (payloadBits payload) [] 0

/-- Both phases: the indices of a chain and the source bytes it takes (45_lzw_decoder.md R250). -/
def lzwDecode (nexp cap : Nat) (src : List Nat) : Except DecodeError (List Nat × Nat) :=
  match deframe src with
  | .error e => .error e
  | .ok (payload, used) =>
    match decodePayload nexp cap payload with
    | .error e => .error e
    | .ok out => .ok (out, used)

/-! ## The command -/

/-- LZW.DEC's result (45_lzw_decoder.md R250): Range, Overlap, then the first error of deframing and decoding, or the
indices, their number and the source bytes used. There is no Param error. -/
def expand (nexp : Nat) (s : State) : CmdResult :=
  let n := s.srcLen.toNat
  let cap := s.dstCap.toNat
  checked false s.memSize (s.srcRegion n) (s.dstRegion cap) fun _ =>
    match lzwDecode nexp cap ((s.mem.readBytes s.srcAddr.toNat n).map (·.toNat)) with
    | .error (code, info) => .err code info
    | .ok (out, used) => .ok (out.map (BitVec.ofNat 8)) out.length used

/-- LZW.DEC: expand a sub-block chain into an index stream (45_lzw_decoder.md R250). -/
def execLzwDec (nexp : Nat) (s : State) : Host.Outcome State Fault Refusal :=
  .next (s.complete (expand nexp s))

end Sys2Proof.Machine
end

