-- ==== Sys2Proof/Machine/PixelFormat.lean ====
section
/-! DEFINITION. pixel_format_converter: PIX.TOCANON, PIX.FROMCANON, PIX.FROMCANON.DA (41_pixel_format.md). -/

namespace Sys2Proof.Machine

/-- The channel of the other order that holds channel k: 0 and 2 change places, 1 and 3 stay (41_pixel_format.md R121). -/
def swapChannel : Nat → Nat
  | 0 => 2
  | 2 => 0
  | k => k

/-- The offset in an image of c-byte pixels of the byte that goes to byte i of an image of d-byte pixels in the other
order: pixel `i div d`, channel `i mod d` (41_pixel_format.md R120, R121). -/
def convertOffset (c d i : Nat) : Nat := c * (i / d) + swapChannel (i % d)

/-- The common rule of the three commands, source pixels of c bytes and destination pixels of d bytes: the checks of
41_pixel_format.md R125, then every pixel's bytes rearranged (R122, R123, R124). -/
def convertPixels (c d : Nat) (s : State) : CmdResult :=
  let n := s.srcW.toNat * s.srcH.toNat
  checked (s.srcW = 0#32 || s.srcH = 0#32) s.memSize (s.srcRegion (n * c)) (s.dstRegion (n * d)) fun _ =>
    .ok (gather (n * d) fun i => s.srcByte (convertOffset c d i)) (n * d) 0

/-- PIX.TOCANON: stored order to canonical order (41_pixel_format.md R122). -/
def execPixToCanon (c : Channels) (s : State) : Host.Outcome State Fault Refusal :=
  .next (s.complete (convertPixels (channelCount c) (channelCount c) s))

/-- PIX.FROMCANON: canonical order to stored order (41_pixel_format.md R123). -/
def execPixFromCanon (c : Channels) (s : State) : Host.Outcome State Fault Refusal :=
  .next (s.complete (convertPixels (channelCount c) (channelCount c) s))

/-- PIX.FROMCANON.DA: canonical order with alpha to stored order without (41_pixel_format.md R124: C = 4, Cd = 3). -/
def execPixFromCanonDa (s : State) : Host.Outcome State Fault Refusal :=
  .next (s.complete (convertPixels 4 3 s))

end Sys2Proof.Machine
end

