-- ==== Sys2Proof/Machine/RowPadder.lean ====
section
/-! DEFINITION. bmp_row_padder: ROW.PAD, ROW.UNPAD (43_row_padder.md). -/

namespace Sys2Proof.Machine

/-- Byte q of the padded image made from the unpadded image `src` of rows of w pixels of c bytes: row `q div stride`,
position `q mod stride`; a pad byte is 0x00 (43_row_padder.md R183). -/
def paddedByte (src : Nat → Byte) (w c q : Nat) : Byte :=
  let y := q / rowStride w c
  let i := q % rowStride w c
  if i < rowBytes w c then src (y * rowBytes w c + i) else 0x00#8

/-- Byte q of the unpadded image made from the padded image `src`: row `q div L`, position `q mod L`
(43_row_padder.md R184). -/
def unpaddedByte (src : Nat → Byte) (w c q : Nat) : Byte :=
  src (paddedOffset w c (q / rowBytes w c) (q % rowBytes w c))

/-- ROW.PAD's result: the checks of 43_row_padder.md R182, then every row followed by its zero padding (R183). -/
def padRows (c : Nat) (s : State) : CmdResult :=
  let w := s.srcW.toNat
  let h := s.srcH.toNat
  checked (s.srcW = 0#32 || s.srcH = 0#32) s.memSize (s.srcRegion (h * rowBytes w c)) (s.dstRegion (paddedBytes w h c))
    fun _ => .ok (gather (paddedBytes w h c) fun q => paddedByte s.srcByte w c q) (paddedBytes w h c) (rowStride w c)

/-- ROW.UNPAD's result: the checks of 43_row_padder.md R182, then every row without its padding (R184). -/
def unpadRows (c : Nat) (s : State) : CmdResult :=
  let w := s.srcW.toNat
  let h := s.srcH.toNat
  checked (s.srcW = 0#32 || s.srcH = 0#32) s.memSize (s.srcRegion (paddedBytes w h c)) (s.dstRegion (h * rowBytes w c))
    fun _ => .ok (gather (h * rowBytes w c) fun q => unpaddedByte s.srcByte w c q) (h * rowBytes w c) (rowStride w c)

/-- ROW.PAD: unpadded rows to padded rows (43_row_padder.md R183). -/
def execRowPad (c : Channels) (s : State) : Host.Outcome State Fault Refusal :=
  .next (s.complete (padRows (channelCount c) s))

/-- ROW.UNPAD: padded rows to unpadded rows (43_row_padder.md R184). -/
def execRowUnpad (c : Channels) (s : State) : Host.Outcome State Fault Refusal :=
  .next (s.complete (unpadRows (channelCount c) s))

end Sys2Proof.Machine
end

