-- ==== Sys2Proof/Machine/Scalers.lean ====
section
/-! DEFINITION. bilinear_scaler and bicubic_scaler: SCALE.BL, SCALE.BC (42_scalers.md). The commands run the all-integer
forms (R151, R162); the exact rational forms (R150, R160, R161) stand beside them, and the statements compare the two. -/

namespace Sys2Proof.Machine

/-- The sample of an image at column x, storage row y, channel k, as a number (42_scalers.md R141). -/
abbrev Sampler := Nat → Nat → Nat → Nat

/-- `S(x, y, k)`, the sample of the source image of rows of oldW pixels of c bytes (42_scalers.md R141). -/
def State.sample (s : State) (oldW c : Nat) : Sampler := fun x y k => (s.srcByte (pixelOffset oldW c x y k)).toNat

/-! ## SCALE.BL -/

/-- The byte SCALE.BL computes for destination column dx, row dy, channel k, in integers (42_scalers.md R151; the tap
bounds R152). -/
def bilinearValue (sample : Sampler) (oldW oldH newW newH dx dy k : Nat) : Nat :=
  let srcX := (oldW - 1) * dx / newW
  let rx := (oldW - 1) * dx % newW
  let srcY := (oldH - 1) * dy / newH
  let ry := (oldH - 1) * dy % newH
  let x1 := min (srcX + 1) (oldW - 1)
  let y1 := min (srcY + 1) (oldH - 1)
  let a := sample srcX srcY k
  let b := sample x1 srcY k
  let c := sample srcX y1 k
  let d := sample x1 y1 k
  (a * (newW - rx) * (newH - ry) + b * rx * (newH - ry) + c * ry * (newW - rx) + d * rx * ry) / (newW * newH)

/-- The exact blend v of SCALE.BL, before truncation, in rationals (42_scalers.md R150). -/
def bilinearExact (sample : Sampler) (oldW oldH newW newH dx dy k : Nat) : ℚ :=
  let px : ℚ := ((oldW : ℚ) - 1) / newW * dx
  let py : ℚ := ((oldH : ℚ) - 1) / newH * dy
  let srcX := px.floor.toNat
  let srcY := py.floor.toNat
  let xDiff : ℚ := px - srcX
  let yDiff : ℚ := py - srcY
  let x1 := min (srcX + 1) (oldW - 1)
  let y1 := min (srcY + 1) (oldH - 1)
  let a : ℚ := sample srcX srcY k
  let b : ℚ := sample x1 srcY k
  let c : ℚ := sample srcX y1 k
  let d : ℚ := sample x1 y1 k
  a * (1 - xDiff) * (1 - yDiff) + b * xDiff * (1 - yDiff) + c * yDiff * (1 - xDiff) + d * xDiff * yDiff

/-! ## SCALE.BC -/

/-- `clamp(v, lo, hi) = max(lo, min(hi, v))` (00_scope.md R6). -/
def clamp (v lo hi : Int) : Int := max lo (min hi v)

/-- Source coordinate of tap i (0 to 3) of the four around `base`, kept inside 0 .. size-1 (42_scalers.md R160, R163). -/
def cubicTap (base size i : Nat) : Nat := (clamp ((base : Int) - 1 + i) 0 ((size : Int) - 1)).toNat

/-- `W(r, n)[i]`: the integer weight of tap i for the fraction r/n, over 2n³ (42_scalers.md R162). -/
def cubicWeight (r n : Int) : Nat → Int
  | 0 => -r * n ^ 2 + 2 * r ^ 2 * n - r ^ 3
  | 1 => 2 * n ^ 3 - 5 * r ^ 2 * n + 3 * r ^ 3
  | 2 => r * n ^ 2 + 4 * r ^ 2 * n - 3 * r ^ 3
  | _ => -r ^ 2 * n + r ^ 3

/-- The sum of f over the four taps 0 to 3. -/
def sumTaps (f : Nat → Int) : Int := f 0 + f 1 + f 2 + f 3

/-- The byte SCALE.BC computes for destination column dx, row dy, channel k, in integers (42_scalers.md R162). -/
def bicubicValue (sample : Sampler) (oldW oldH newW newH dx dy k : Nat) : Nat :=
  let fx := dx * oldW / newW
  let rx := dx * oldW % newW
  let fy := dy * oldH / newH
  let ry := dy * oldH % newH
  let num := sumTaps fun j => sumTaps fun i =>
    cubicWeight ry newH j * cubicWeight rx newW i * sample (cubicTap fx oldW i) (cubicTap fy oldH j) k
  let den : Int := 4 * (newW : Int) ^ 3 * (newH : Int) ^ 3
  (clamp ((2 * num + den) / (2 * den)) 0 255).toNat

/-- The cubic kernel `f(t, Q0, Q1, Q2, Q3)`, as the document writes it (42_scalers.md R161). -/
def cubicKernel (t q0 q1 q2 q3 : ℚ) : ℚ :=
  q1 + 1 / 2 * t * (q2 - q0 + t * (2 * q0 - 5 * q1 + 4 * q2 - q3 + t * (3 * (q1 - q2) + q3 - q0)))

/-- The exact value v of SCALE.BC, before rounding: the kernel along the four rows, then down the column, in rationals
(42_scalers.md R160). -/
def bicubicExact (sample : Sampler) (oldW oldH newW newH dx dy k : Nat) : ℚ :=
  let xOrigin : ℚ := dx * ((oldW : ℚ) / newW)
  let yOrigin : ℚ := dy * ((oldH : ℚ) / newH)
  let fx := xOrigin.floor.toNat
  let fy := yOrigin.floor.toNat
  let tx : ℚ := xOrigin - fx
  let ty : ℚ := yOrigin - fy
  let tap (i j : Nat) : ℚ := sample (cubicTap fx oldW i) (cubicTap fy oldH j) k
  let row (j : Nat) : ℚ := cubicKernel tx (tap 0 j) (tap 1 j) (tap 2 j) (tap 3 j)
  cubicKernel ty (row 0) (row 1) (row 2) (row 3)

/-- The byte of the exact value v: round half up, then clamp to 0 .. 255 (42_scalers.md R160). -/
def bicubicRound (v : ℚ) : Nat := (clamp (v + 1 / 2).floor 0 255).toNat

/-! ## The commands -/

/-- The common rule of the two scalers: the checks of 42_scalers.md R143, then one byte per destination column, row and
channel, in the order of R142. -/
def scaleImage (value : Sampler → Nat → Nat → Nat → Nat → Nat → Nat → Nat → Nat) (c : Nat) (s : State) : CmdResult :=
  let oldW := s.srcW.toNat
  let oldH := s.srcH.toNat
  let newW := s.dstW.toNat
  let newH := s.dstH.toNat
  checked (s.srcW = 0#32 || s.srcH = 0#32 || s.dstW = 0#32 || s.dstH = 0#32) s.memSize
    (s.srcRegion (imageBytes oldW oldH c)) (s.dstRegion (imageBytes newW newH c)) fun _ =>
    .ok (gather (imageBytes newW newH c) fun q =>
        BitVec.ofNat 8 (value (s.sample oldW c) oldW oldH newW newH (q / c % newW) (q / c / newW) (q % c)))
      (imageBytes newW newH c) 0

/-- SCALE.BL: bilinear resize (42_scalers.md R150, run in the integer form R151). -/
def execScaleBl (c : Channels) (s : State) : Host.Outcome State Fault Refusal :=
  .next (s.complete (scaleImage bilinearValue (channelCount c) s))

/-- SCALE.BC: bicubic resize (42_scalers.md R160, run in the integer form R162). -/
def execScaleBc (c : Channels) (s : State) : Host.Outcome State Fault Refusal :=
  .next (s.complete (scaleImage bicubicValue (channelCount c) s))

end Sys2Proof.Machine
end

