-- ==== Sys2Proof/Machine/Dispatch.lean ====
section
/-! DEFINITION. The completion step of each command, dispatched on the command (10_state.md R35, 30_encoding.md R100). -/

namespace Sys2Proof.Machine

def exec (i : Instr) (s : State) : Host.Outcome State Fault Refusal :=
  match i with
  | .scaleBl c => Sys2Proof.Machine.execScaleBl c s
  | .scaleBc c => Sys2Proof.Machine.execScaleBc c s
  | .rowPad c => Sys2Proof.Machine.execRowPad c s
  | .rowUnpad c => Sys2Proof.Machine.execRowUnpad c s
  | .pixToCanon c => Sys2Proof.Machine.execPixToCanon c s
  | .pixFromCanon c => Sys2Proof.Machine.execPixFromCanon c s
  | .pixFromCanonDa => Sys2Proof.Machine.execPixFromCanonDa s
  | .lzwEnc nexp => Sys2Proof.Machine.execLzwEnc nexp s
  | .lzwDec nexp => Sys2Proof.Machine.execLzwDec nexp s

end Sys2Proof.Machine
end

