-- ==== Sys2Proof/Machine/HostPort.lean ====
section
/-! DEFINITION. What the host and the reset input do to the block: register writes and reads (10_state.md R32 to R36), MEM
stores and loads (20_memory.md R75), `rst` (70_reset_and_hazards.md R450). -/

namespace Sys2Proof.Machine

/-- A register access must be 32 bits wide at an aligned offset (10_state.md R32, 20_memory.md R65). -/
def registerShapeOk (width offset : Nat) : Bool := width = 32 && offset % 4 = 0

/-- A host write to STATUS while BUSY = 0: bit 1 clears DONE, bit 2 clears ERR with ERRCODE and ERRINFO
(10_state.md R36). -/
def State.writeStatus (s : State) (v : Word) : State :=
  let s1 := if bitOf v 1 then s.clearDone else s
  if bitOf v 2 then s1.clearErr else s1

/-- A host write to a register while BUSY = 0 (10_state.md R22 to R28, R33, R36): a CMD write is accepted only while
ERR = 0; read-only registers ignore it. -/
def State.writeReg (s : State) (r : Reg) (v : Word) : State :=
  match r with
  | .cmd => if s.accepts then s.accept v else s
  | .status => s.writeStatus v
  | .ctrl => { s with ie := bitOf v 0 }
  | .srcAddr => { s with srcAddr := v }
  | .srcLen => { s with srcLen := v }
  | .dstAddr => { s with dstAddr := v }
  | .dstCap => { s with dstCap := v }
  | .srcW => { s with srcW := v }
  | .srcH => { s with srcH := v }
  | .dstW => { s with dstW := v }
  | .dstH => { s with dstH := v }
  | .resultLen => s
  | .resultAux => s
  | .errInfo => s

/-- A host write at a register offset: ignored while BUSY = 1 (10_state.md R34) and at a reserved offset (R29). -/
def State.writeOffset (s : State) (offset : Nat) (v : Word) : State :=
  if s.busy then s
  else
    match Reg.atOffset offset with
    | some r => s.writeReg r v
    | none => s

/-- A host load or store of MEM is inside the interface only while BUSY = 0 (20_memory.md R75) and inside MEM (R61). -/
def State.memAccess (s : State) (addr n : Nat) (s' : State) : Host.Outcome State Fault Refusal :=
  if s.busy then .refused .memAccessWhileBusy
  else if s.memSize < addr + n then .fault .noSuchMemory
  else .next s'

/-- A bus operation of the host (30_encoding.md R98). -/
def hostStep (op : HostOp) (s : State) : Host.Outcome State Fault Refusal :=
  match op with
  | .regWrite width offset v =>
    if registerShapeOk width offset then .next (s.writeOffset offset v) else .refused .registerAccessShape
  | .regRead width offset =>
    if registerShapeOk width offset then .next (s.answer (.word (s.readOffset offset)))
    else .refused .registerAccessShape
  | .memStore addr bytes => s.memAccess addr bytes.length (s.store addr bytes)
  | .memLoad addr n => s.memAccess addr n (s.answer (.bytes (s.mem.readBytes addr n)))

/-- `rst` (70_reset_and_hazards.md R450, 10_state.md R40): every register 0, a command in flight abandoned, MEM holding
whatever `contents` say (log entry 3). MEM_SIZE is not state of the block and stays. -/
def State.resetInput (s : State) (contents : List Host.Cell) : State :=
  { State.reset with memSize := s.memSize, mem := Memory.ofCells s.memSize contents, inputs := s.inputs }

/-- The bus addresses a host operation uses, first and number of bytes (30_encoding.md R98): REG_BASE plus the offset for
a register, MEM_BASE plus the address for MEM. Nothing in the block depends on them (20_memory.md R72). -/
def HostOp.busBytes : HostOp → Nat × Nat
  | .regWrite width offset _ => (Config.regBase + offset, width / 8)
  | .regRead width offset => (Config.regBase + offset, width / 8)
  | .memStore addr bytes => (Config.memBase + addr, bytes.length)
  | .memLoad addr n => (Config.memBase + addr, n)

end Sys2Proof.Machine
end

