-- ==== Sys2Proof/Machine/Block.lean ====
section
/-! DEFINITION. Who acts in a step and what it does: the block's completion step (10_state.md R20, R35), the host's
operations, the reset input, in the order of the input queue (log entry 4). -/

namespace Sys2Proof.Machine

/-- The block's step (10_state.md R35): enabled exactly when BUSY = 1; the command word in CMD is decoded, an illegal word
completes with IllegalCmd (30_encoding.md R95), a legal one by its rule. With BUSY = 0 the block takes no step
(70_reset_and_hazards.md R462). -/
def blockStep (s : State) : Host.Outcome State Fault Refusal :=
  if s.busy then
    match decode s.cmd with
    | .ok i => exec i s
    | .error _ => .next (s.takeError .illegalCmd 0)
  else .next s

/-- The state with its input queue replaced. -/
def State.setInputs (s : State) (inputs : List Input) : State := { s with inputs := inputs }

/-- The first input of the queue is taken. With an empty queue the block gets its turn, so no command stays in flight for
ever (70_reset_and_hazards.md R461; log entry 4). -/
def takeInput (s : State) : Host.Outcome State Fault Refusal :=
  match s.inputs with
  | [] => blockStep s
  | .block :: rest => blockStep (s.setInputs rest)
  | .host op :: rest => hostStep op (s.setInputs rest)
  | .rst contents :: rest => .next ((s.setInputs rest).resetInput contents)

/-- `s` with the command word accepted (10_state.md R33) and the block's turn next, so that the next step completes exactly
that command. A recorded error is cleared first, since no command is accepted while ERR = 1 (R34). -/
def State.withCommand (s : State) (word : Word) : State := (s.clearErr.accept word).setInputs (.block :: s.inputs)

end Sys2Proof.Machine
end

