-- ==== Sys2Proof/Machine/Step.lean ====
section
/-! DEFINITION. One step of the machine, and a command placed where the next step runs it. -/

namespace Sys2Proof.Machine

/-- One step: the first input of the queue is taken (10_state.md R20; log entry 4). -/
def step (s : State) : Host.Outcome State Fault Refusal := takeInput s

/-- `s` with the command of `nbits` bits `w` in flight and its completion next (log entry 5). -/
def State.withFetchWord (s : State) (nbits w : Nat) : State := s.withCommand (BitVec.ofNat 32 (w % 2 ^ nbits))

end Sys2Proof.Machine
end

