-- ==== Sys2Proof/Machine/HostNotation.lean ====
section
/-! DEFINITION. The host notation: the lines of 30_encoding.md R98, the pseudo-instructions of R99, and the run of a host
program on the machine. -/

namespace Sys2Proof.Machine

/-! ## Lines -/

/-- `WR reg, value` (30_encoding.md R98). -/
def Input.wr (r : Reg) (v : Word) : Input := .host (.regWrite 32 r.offset v)
/-- `RD reg` (30_encoding.md R98). -/
def Input.rd (r : Reg) : Input := .host (.regRead 32 r.offset)
/-- `ST addr, b0 b1 ...` (30_encoding.md R98). -/
def Input.st (addr : Nat) (bytes : List Byte) : Input := .host (.memStore addr bytes)
/-- `LD addr, n` (30_encoding.md R98). -/
def Input.ld (addr n : Nat) : Input := .host (.memLoad addr n)

/-- A line of a host program. -/
inductive HostLine where
  /-- One bus operation (30_encoding.md R98). -/
  | op (input : Input)
  /-- `WAIT` (30_encoding.md R99). How many reads find BUSY = 1 before the block completes is for the outside world, since no
  rule bounds it (70_reset_and_hazards.md R461): `polls`, which plays no part where no command is in flight. -/
  | wait (polls : Nat)
  deriving DecidableEq, Repr

/-! ## `CMD` -/

/-- The mnemonics of 30_encoding.md R92. -/
inductive Mnemonic where
  | scaleBl | scaleBc | rowPad | rowUnpad | pixToCanon | pixFromCanon | pixFromCanonDa | lzwEnc | lzwDec
  deriving DecidableEq, Repr

/-- The operand of `CMD` (30_encoding.md R99). -/
inductive CmdOperand where
  /-- No operand is written. -/
  | omitted
  /-- `C=c`. -/
  | channels (c : Nat)
  /-- `N=n`. -/
  | colours (n : Nat)
  deriving DecidableEq, Repr

/-- The channels of `C=3` and `C=4`; `C` defaults to 3 (30_encoding.md R99). -/
def CmdOperand.channelsOf : CmdOperand → Option Channels
  | .omitted => some .three
  | .channels c => if c = 3 then some .three else if c = 4 then some .four else none
  | .colours _ => none

/-- NEXP of `N=n`, `log2(n) - 1`, for the powers of two from 2 to 256 (30_encoding.md R93, R99). -/
def CmdOperand.nexpOf : CmdOperand → Option Nat
  | .colours n => if 2 ≤ n ∧ n ≤ 256 ∧ 2 ^ n.log2 = n then some (n.log2 - 1) else none
  | _ => none

/-- The command of `CMD <mnemonic>, <operand>`, if the operand is one the mnemonic takes: `C` where CH4 is free, `N` for the
LZW commands (30_encoding.md R99). -/
def Mnemonic.instr (m : Mnemonic) (o : CmdOperand) : Option Instr :=
  match m with
  | .scaleBl => o.channelsOf.map .scaleBl
  | .scaleBc => o.channelsOf.map .scaleBc
  | .rowPad => o.channelsOf.map .rowPad
  | .rowUnpad => o.channelsOf.map .rowUnpad
  | .pixToCanon => o.channelsOf.map .pixToCanon
  | .pixFromCanon => o.channelsOf.map .pixFromCanon
  | .pixFromCanonDa => if o = .omitted then some .pixFromCanonDa else none
  | .lzwEnc => o.nexpOf.map .lzwEnc
  | .lzwDec => o.nexpOf.map .lzwDec

/-! ## Pseudo-instructions (30_encoding.md R99) -/

/-- `CMD` with a command: `WR CMD, <word>`. -/
def cmdScript (i : Instr) : List HostLine := [.op (.wr .cmd (encode i))]
/-- `ACK`: clears DONE and ERR. -/
def ackScript : List HostLine := [.op (.wr .status 0x6#32)]
/-- `RUN`: `CMD`, then `WAIT`. -/
def runScript (i : Instr) (polls : Nat) : List HostLine := cmdScript i ++ [.wait polls]
/-- `IMG.SRC addr, w, h`. -/
def imgSrcScript (addr w h : Word) : List HostLine := [.op (.wr .srcAddr addr), .op (.wr .srcW w), .op (.wr .srcH h)]
/-- `IMG.DST addr, w, h`. -/
def imgDstScript (addr w h : Word) : List HostLine := [.op (.wr .dstAddr addr), .op (.wr .dstW w), .op (.wr .dstH h)]
/-- `STR.SRC addr, len`. -/
def strSrcScript (addr len : Word) : List HostLine := [.op (.wr .srcAddr addr), .op (.wr .srcLen len)]
/-- `STR.DST addr, cap`. -/
def strDstScript (addr cap : Word) : List HostLine := [.op (.wr .dstAddr addr), .op (.wr .dstCap cap)]

/-- The encoding of a host program: its register writes as (offset, value) and its MEM stores, in order
(30_encoding.md R98). -/
def programEncoding (program : List HostLine) : List (Sum (Nat × Word) (Nat × List Byte)) :=
  program.filterMap fun
    | .op (.host (.regWrite _ offset v)) => some (.inl (offset, v))
    | .op (.host (.memStore addr bytes)) => some (.inr (addr, bytes))
    | _ => none

/-! ## Running a program -/

/-- One input is delivered to the machine, before those already in its queue. -/
def deliver (i : Input) (s : State) : Host.Outcome State Fault Refusal := step (s.setInputs (i :: s.inputs))

/-- A list of inputs is delivered in order, up to the first stop. -/
def deliverAll : List Input → State → Host.Outcome State Fault Refusal
  | [], s => .next s
  | i :: rest, s =>
    match deliver i s with
    | .next t => deliverAll rest t
    | .fault f => .fault f
    | .refused r => .refused r

/-- What happens during `WAIT`: with a command in flight `polls` reads of STATUS find BUSY = 1, the block completes, and one
more read finds BUSY = 0; with none in flight the first read finds BUSY = 0 (30_encoding.md R99). -/
def waitScript (busy : Bool) (polls : Nat) : List Input :=
  if busy then List.replicate polls (.rd .status) ++ [.block, .rd .status] else [.rd .status]

/-- These inputs, from this state, are a `WAIT`: the host does nothing but read STATUS, goes on while a read has bit 0 = 1,
and ends with the first that has bit 0 = 0 (30_encoding.md R99). The block and `rst` act in between as they will. -/
def waits : List Input → State → Bool
  | [], _ => false
  | i :: rest, s =>
    match deliver i s with
    | .next t =>
      match i with
      | .host op =>
        if .host op = Input.rd .status then if bitOf (s.readReg .status) 0 then waits rest t else rest.isEmpty else false
      | _ => waits rest t
    | _ => false

/-- The inputs of one line, from the state the machine is in when the host comes to it. -/
def HostLine.inputs (line : HostLine) (s : State) : List Input :=
  match line with
  | .op input => [input]
  | .wait polls => waitScript s.busy polls

/-- The run of a host program. -/
def runProgram : List HostLine → State → Host.Outcome State Fault Refusal
  | [], s => .next s
  | line :: rest, s =>
    match deliverAll (line.inputs s) s with
    | .next t => runProgram rest t
    | .fault f => .fault f
    | .refused r => .refused r

end Sys2Proof.Machine
end

