-- ==== Sys2Proof/Machine/HostImage.lean ====
section
/-! DEFINITION. Host software around the block, out of the block by 00_scope.md R4: Color and PixelImage and the transforms
of 46_host_software.md R300 to R318. Pure functions: no step of the machine uses them. Coordinates count storage rows
(20_memory.md R66, 90_conflicts.md C6). -/

namespace Sys2Proof.Machine

/-- The error kinds of the software (46_host_software.md R342). DESIGN CHOICE (log entry 19): `OutOfBounds` of get_pixel and
set_pixel (R302) is a kind of its own and no RangeError, which 91_not_in_source.md N19 leaves open. -/
inductive HostError where
  | format | range | unsupportedFeature | decode | io | outOfBounds
  deriving DecidableEq, Repr

/-- The document's kind for a block error, where it has one (60_exceptions.md R403). -/
def ErrCode.hostError : ErrCode → Option HostError
  | .param | .range => some .range
  | .decodeCode | .decodeTrunc => some .decode
  | .illegalCmd | .overlap | .index | .overflow => none

/-- A Color: R, G, B and, for 4-channel images only, A (46_host_software.md R300). -/
structure Color where
  r : Byte
  g : Byte
  b : Byte
  a : Option Byte
  deriving DecidableEq, Repr

/-- The error an ERRCODE stands for (60_exceptions.md R401). -/
def ErrCode.ofCode (code : BitVec 4) : Option ErrCode :=
  [ErrCode.illegalCmd, .param, .range, .overlap, .index, .overflow, .decodeCode, .decodeTrunc].find? (·.code = code)

/-- A PixelImage (46_host_software.md R301); its buffer has the layout of 20_memory.md R66. -/
structure PixelImage where
  width : Nat
  height : Nat
  channels : Channels
  data : List Byte
  deriving DecidableEq, Repr

/-- The invariant `data.length == width * height * channels` (46_host_software.md R301). -/
abbrev PixelImage.filled (img : PixelImage) : Prop :=
  img.data.length = imageBytes img.width img.height (channelCount img.channels)

/-- A PixelImage as the document has it: its width and height are 32-bit numbers and its buffer has its length
(46_host_software.md R301). -/
abbrev PixelImage.valid (img : PixelImage) : Prop := img.width < 2 ^ 32 ∧ img.height < 2 ^ 32 ∧ img.filled

/-- The byte at an offset of the buffer. -/
def PixelImage.byteAt (img : PixelImage) (i : Nat) : Byte := img.data.getD i 0x00#8

/-- The buffer offset of channel k of pixel (x, y) (46_host_software.md R302). -/
def PixelImage.offset (img : PixelImage) (x y k : Nat) : Nat := pixelOffset img.width (channelCount img.channels) x y k

/-- `get_pixel(x, y)`: byte 0 is B, 1 is G, 2 is R, 3 is A (46_host_software.md R302). -/
def PixelImage.getPixel (img : PixelImage) (x y : Nat) : Except HostError Color :=
  if x < img.width ∧ y < img.height then
    .ok { b := img.byteAt (img.offset x y 0), g := img.byteAt (img.offset x y 1), r := img.byteAt (img.offset x y 2)
          a := match img.channels with
            | .three => none
            | .four => some (img.byteAt (img.offset x y 3)) }
  else .error .outOfBounds

/-- `set_pixel(x, y, color)`: the same byte order; a 4-channel Color loses its alpha in a 3-channel image; the alpha of a
3-channel Color in a 4-channel image is a free value (46_host_software.md R303). -/
def PixelImage.setPixel (img : PixelImage) (x y : Nat) (color : Color) : Except HostError PixelImage :=
  if x < img.width ∧ y < img.height then
    let at' (k : Nat) := img.offset x y k
    let rgb := ((img.data.set (at' 0) color.b).set (at' 1) color.g).set (at' 2) color.r
    match img.channels with
    | .three => .ok { img with data := rgb }
    | .four => .ok { img with data := rgb.set (at' 3) (color.a.getD (Config.unstatedAlpha (at' 3))) }
  else .error .outOfBounds

/-- `replace_buffer(new_data, new_width, new_height)` (46_host_software.md R304). -/
def PixelImage.replaceBuffer (img : PixelImage) (data : List Byte) (width height : Nat) : PixelImage :=
  { img with data := data, width := width, height := height }

/-- The image of w by h pixels whose pixel (x, y) is the source pixel `source x y`. -/
def PixelImage.rearrange (img : PixelImage) (w h : Nat) (source : Nat → Nat → Nat × Nat) : PixelImage :=
  let c := channelCount img.channels
  img.replaceBuffer
    (gather (imageBytes w h c) fun q =>
      let p := source (q / c % w) (q / c / w)
      img.byteAt (img.offset p.1 p.2 (q % c))) w h

/-- The image of the same size whose channel k of the pixel at buffer offset `base` is `value base k`. -/
def PixelImage.recolour (img : PixelImage) (value : Nat → Nat → Byte) : PixelImage :=
  let c := channelCount img.channels
  img.replaceBuffer (gather (imageBytes img.width img.height c) fun q => value (q / c * c) (q % c)) img.width img.height

/-- `crop(x0, y0, w, h)` (46_host_software.md R311). -/
def PixelImage.crop (img : PixelImage) (x0 y0 w h : Nat) : Except HostError PixelImage :=
  if img.width < x0 + w ∨ img.height < y0 + h then .error .range
  else .ok (img.rearrange w h fun x y => (x0 + x, y0 + y))

/-- `flip()`: row y maps to row height-1-y (46_host_software.md R312). -/
def PixelImage.flip (img : PixelImage) : PixelImage :=
  img.rearrange img.width img.height fun x y => (x, img.height - 1 - y)

/-- `rotate_clockwise()`: source (x, y) goes to pixel offset (height-y-1) + height*x of the image of width `height`
(46_host_software.md R313, 90_conflicts.md C5), so new pixel (x', y') is source (y', height-1-x'). -/
def PixelImage.rotateClockwise (img : PixelImage) : PixelImage :=
  img.rearrange img.height img.width fun x y => (y, img.height - 1 - x)

/-- `rotate_counterclockwise()`: source (x, y) goes to pixel offset y + height*x (46_host_software.md R313,
90_conflicts.md C5), so new pixel (x', y') is source (y', x'). -/
def PixelImage.rotateCounterclockwise (img : PixelImage) : PixelImage :=
  img.rearrange img.height img.width fun x y => (y, x)

/-- The grey value `floor(0.299*R + 0.587*G + 0.144*B) mod 256` (46_host_software.md R314, 90_conflicts.md C2). -/
def greyValue (r g b : Nat) : Nat := (299 * r + 587 * g + 144 * b) / 1000 % 256

/-- `grayscale()`: R, G and B become the grey value, alpha stays (46_host_software.md R314). -/
def PixelImage.grayscale (img : PixelImage) : PixelImage :=
  img.recolour fun base k =>
    if k < 3 then
      BitVec.ofNat 8 (greyValue (img.byteAt (base + 2)).toNat (img.byteAt (base + 1)).toNat (img.byteAt base).toNat)
    else img.byteAt (base + k)

/-- `inverse()`: R, G and B become 255 minus themselves, alpha stays (46_host_software.md R315). -/
def PixelImage.inverse (img : PixelImage) : PixelImage :=
  img.recolour fun base k =>
    if k < 3 then BitVec.ofNat 8 (255 - (img.byteAt (base + k)).toNat) else img.byteAt (base + k)

/-- `round(num/den)`; which way a tie goes is a free value (46_host_software.md R316). -/
def roundNearest (num den : Nat) : Nat :=
  if 2 * (num % den) < den then num / den
  else if den < 2 * (num % den) then num / den + 1
  else if Config.roundTieUp num den then num / den + 1 else num / den

/-- `resize` in NearestNeighbour mode: the source pixel is `round(dst_x / x_ratio), round(dst_y / y_ratio)` with
`x_ratio = new_w/old_w` (46_host_software.md R316); a coordinate outside the image gives a free value. DESIGN CHOICE (log
entry 20): a new width or height of 0, of which 91_not_in_source.md N17 finds nothing said, gives the image without pixels. -/
def PixelImage.resizeNearest (img : PixelImage) (newW newH : Word) : PixelImage :=
  let w := newW.toNat
  let h := newH.toNat
  let c := channelCount img.channels
  img.replaceBuffer
    (gather (imageBytes w h c) fun q =>
      let x := roundNearest (q / c % w * img.width) w
      let y := roundNearest (q / c / w * img.height) h
      if x < img.width ∧ y < img.height then img.byteAt (img.offset x y (q % c)) else Config.unstatedSample q) w h

/-! ## Images in MEM, and resize with the block -/

/-- What the host keeps of a PixelImage that lies in MEM: where it lies, and the three numbers (46_host_software.md R301). -/
structure ImageRef where
  addr : Word
  width : Word
  height : Word
  channels : Channels
  deriving DecidableEq, Repr

/-- The PixelImage that lies in MEM there (46_host_software.md R301; layout 20_memory.md R66). -/
def State.imageAt (s : State) (r : ImageRef) : PixelImage where
  width := r.width.toNat
  height := r.height.toNat
  channels := r.channels
  data := s.mem.readBytes r.addr.toNat (imageBytes r.width.toNat r.height.toNat (channelCount r.channels))

/-- The destination region of a command with DST_W and DST_H as the size of an image (46_host_software.md R304). -/
def State.destinationImage (s : State) (channels : Channels) : ImageRef where
  addr := s.dstAddr
  width := s.dstW
  height := s.dstH
  channels := channels

/-- What the host takes from the machine after a command, `take` on success (46_host_software.md R344 `collect`). After an
error the kind is that of 60_exceptions.md R403; a block error without a kind there, or no completion at all, gives the
argument `uncovered` (DESIGN CHOICE, log entry 19). -/
def State.collect {α : Type} (s : State) (uncovered : Except HostError α) (take : State → α) : Except HostError α :=
  if s.err then
    match (ErrCode.ofCode s.errCode).bind ErrCode.hostError with
    | some e => .error e
    | none => uncovered
  else if s.done then .ok (take s)
  else uncovered

/-- The run of a host program, then what the host takes (46_host_software.md R344). -/
def runAndCollect {α : Type} (program : List HostLine) (uncovered : Except HostError α) (take : State → α) (s : State) :
    Host.Outcome (Except HostError α) Fault Refusal :=
  match runProgram program s with
  | .next t => .next (t.collect uncovered take)
  | .fault f => .fault f
  | .refused r => .refused r

/-- `replace_buffer` with the block: after a successful completion the host adopts the destination region as the image,
DST_W and DST_H as its size (46_host_software.md R304). -/
def State.adopt (s : State) (channels : Channels) (uncovered : Except HostError PixelImage) :
    Except HostError PixelImage :=
  s.collect uncovered fun t => t.imageAt (t.destinationImage channels)

/-- The bytes a command wrote, RESULT_LEN of them at DST_ADDR (10_state.md R26, R39). -/
def State.resultBytes (s : State) : List Byte := s.mem.readBytes s.dstAddr.toNat s.resultLen.toNat

/-- The modes of `resize` that are in the block (46_host_software.md R310). -/
inductive ScaleMode where
  | bilinear | bicubic
  deriving DecidableEq, Repr

/-- The command of a mode, CH4 = (channels = 4) (46_host_software.md R317). -/
def ScaleMode.instr (mode : ScaleMode) (channels : Channels) : Instr :=
  match mode with
  | .bilinear => .scaleBl channels
  | .bicubic => .scaleBc channels

/-- `resize` with the block, up to its completion: the host puts the image in MEM at `src`, sets the six registers, writes
the command and waits (46_host_software.md R317). -/
def resizeProgram (mode : ScaleMode) (img : PixelImage) (src dst newW newH : Word) (polls : Nat) : List HostLine :=
  [.op (.st src.toNat img.data)] ++ imgSrcScript src (BitVec.ofNat 32 img.width) (BitVec.ofNat 32 img.height) ++
    imgDstScript dst newW newH ++ runScript (mode.instr img.channels) polls

/-- `resize` in Bilinear or Bicubic mode (46_host_software.md R310, R317): the run of the program, then the check for success
and the destination as the new image. -/
def PixelImage.resizeOnBlock (img : PixelImage) (mode : ScaleMode) (src dst newW newH : Word) (polls : Nat)
    (uncovered : Except HostError PixelImage) (s : State) : Host.Outcome (Except HostError PixelImage) Fault Refusal :=
  runAndCollect (resizeProgram mode img src dst newW newH polls) uncovered
    (fun t => t.imageAt (t.destinationImage img.channels)) s

end Sys2Proof.Machine
end

