-- ==== Sys2Proof/Machine/HostBmp.lean ====
section
/-! DEFINITION. Host software around the block, out of the block by 00_scope.md R4: the BMP file of 46_host_software.md
R320 to R324, without the block and as host programs that run it. No step of the machine uses these functions. -/

namespace Sys2Proof.Machine

/-- The n bytes of a number, least significant first (46_host_software.md R320: all integers little-endian). -/
def littleEndian (n value : Nat) : List Byte := (List.range n).map fun i => BitVec.ofNat 8 (value / 256 ^ i)

/-- The number held little-endian in the n bytes at an offset (46_host_software.md R320). -/
def readLittleEndian (bytes : List Byte) (offset n : Nat) : Nat :=
  ((List.range n).map fun i => (bytes.getD (offset + i) 0x00#8).toNat * 256 ^ i).sum

/-- The header fields whose values the document does not give (46_host_software.md R320, R321; 91_not_in_source.md N21):
arguments of the model (log entry 17). -/
structure BmpOpenFields where
  reserved : Nat
  imageSize : Nat
  xPpm : Nat
  yPpm : Nat
  colorsUsed : Nat
  colorsImportant : Nat
  deriving DecidableEq, Repr

/-- The size of the two headers, and the value of data_offset (46_host_software.md R320, R322). -/
def bmpHeaderBytes : Nat := 54

/-- The row-padded pixel array of an image (46_host_software.md R322): what ROW.PAD makes of its buffer. DESIGN CHOICE (log
entry 20): an image of width or height 0, which ROW.PAD refuses with Param (43_row_padder.md R182), has the empty array. -/
def bmpPixelArray (img : PixelImage) : List Byte :=
  let c := channelCount img.channels
  gather (paddedBytes img.width img.height c) (paddedByte img.byteAt img.width c)

/-- The 54 header bytes before a pixel array of `n` bytes (46_host_software.md R320, R322). DESIGN CHOICE (log entry 17): a
number its field cannot hold, a width or height of 2^31 or more or a file_size of 2^32 or more, of which the document says
nothing, is written as its low four bytes. -/
def bmpHeader (openFields : BmpOpenFields) (img : PixelImage) (n : Nat) : List Byte :=
  [0x42#8, 0x4D#8] ++ littleEndian 4 (bmpHeaderBytes + n) ++ littleEndian 4 openFields.reserved ++
    littleEndian 4 bmpHeaderBytes ++ littleEndian 4 40 ++ littleEndian 4 img.width ++ littleEndian 4 img.height ++
    littleEndian 2 1 ++ littleEndian 2 (8 * channelCount img.channels) ++ littleEndian 4 0 ++
    littleEndian 4 openFields.imageSize ++ littleEndian 4 openFields.xPpm ++ littleEndian 4 openFields.yPpm ++
    littleEndian 4 openFields.colorsUsed ++ littleEndian 4 openFields.colorsImportant

/-- The file of a pixel array: the 54 header bytes are prepended (46_host_software.md R322). -/
def bmpFile (openFields : BmpOpenFields) (img : PixelImage) (pixels : List Byte) : List Byte :=
  bmpHeader openFields img pixels.length ++ pixels

/-- BMP encode without the block (46_host_software.md R320, R322). DESIGN CHOICE: sizes no field can hold (log entry 17) and a
width or height of 0 (log entry 20) are no error. -/
def encodeBmp (openFields : BmpOpenFields) (img : PixelImage) : List Byte := bmpFile openFields img (bmpPixelArray img)

/-- The channels of a bits_per_pixel value, 24 or 32 (43_row_padder.md R180, 46_host_software.md R321). -/
def bmpChannels : Nat → Option Channels
  | 24 => some .three
  | 32 => some .four
  | _ => none

/-- Whether the info header is one the document covers: header_size 40, planes 1, compression 0 (46_host_software.md R320)
and sizes that are not negative (91_not_in_source.md N21). -/
def bmpHeaderCovered (bytes : List Byte) : Bool :=
  readLittleEndian bytes 14 4 = 40 && readLittleEndian bytes 26 2 = 1 && readLittleEndian bytes 30 4 = 0 &&
    readLittleEndian bytes 18 4 < 2 ^ 31 && readLittleEndian bytes 22 4 < 2 ^ 31

/-- Where the pixel array of a file lies, and the image it holds. -/
structure BmpLayout where
  first : Nat
  width : Nat
  height : Nat
  channels : Channels
  deriving DecidableEq, Repr

/-- The number of bytes of the pixel array, `height * stride` (46_host_software.md R321). -/
def BmpLayout.bytes (l : BmpLayout) : Nat := paddedBytes l.width l.height (channelCount l.channels)

/-- The headers of a BMP file (46_host_software.md R321): the signature is validated, the info header read. Log entry 17 (DESIGN
CHOICE): a file shorter than its headers, another bits_per_pixel than 24 or 32, or a pixel array that runs past the file is a
corrupt header, so FormatError (R342); where the pixel array is taken to begin is the argument `start`; a header that
91_not_in_source.md N21 leaves open is no error of the document's (`none`); no other field is looked at. -/
def bmpLayout (start : Nat → Nat) (bytes : List Byte) : Except (Option HostError) BmpLayout :=
  if bytes.take 2 ≠ [0x42#8, 0x4D#8] ∨ bytes.length < bmpHeaderBytes then .error (some .format)
  else
    match bmpChannels (readLittleEndian bytes 28 2) with
    | none => .error (some .format)
    | some c =>
      let l : BmpLayout :=
        { first := start (readLittleEndian bytes 10 4), width := readLittleEndian bytes 18 4
          height := readLittleEndian bytes 22 4, channels := c }
      if !bmpHeaderCovered bytes then .error none
      else if bytes.length < l.first + l.bytes then .error (some .format)
      else .ok l

/-- The image of a layout with the given buffer. -/
def BmpLayout.image (l : BmpLayout) (data : List Byte) : PixelImage where
  width := l.width
  height := l.height
  channels := l.channels
  data := data

/-- The rows of the pixel array without their padding (46_host_software.md R321). -/
def bmpRows (bytes : List Byte) (l : BmpLayout) : List Byte :=
  let c := channelCount l.channels
  gather (imageBytes l.width l.height c) (unpaddedByte (fun i => bytes.getD (l.first + i) 0x00#8) l.width c)

/-- BMP decode without the block (46_host_software.md R321): the headers, then the rows without their padding. A file the
document does not cover gives the argument `uncovered` (log entry 17). DESIGN CHOICE (log entry 20): a width or height of 0
gives the image without pixels. -/
def decodeBmp (start : Nat → Nat) (uncovered : Except HostError PixelImage) (bytes : List Byte) :
    Except HostError PixelImage :=
  match bmpLayout start bytes with
  | .error (some e) => .error e
  | .error none => uncovered
  | .ok l => .ok (l.image (bmpRows bytes l))

/-! ## With the block -/

/-- The host puts the source bytes in MEM at `src`, sets SRC_ADDR, SRC_W, SRC_H and DST_ADDR, writes the command and waits: what
ROW.PAD and ROW.UNPAD need (10_state.md R42; 46_host_software.md R321, R322). -/
def rowProgram (i : Instr) (source : List Byte) (src dst w h : Word) (polls : Nat) : List HostLine :=
  [.op (.st src.toNat source)] ++ imgSrcScript src w h ++ [.op (.wr .dstAddr dst)] ++ runScript i polls

/-- BMP encode with the block (46_host_software.md R322): ROW.PAD, then the host prepends the 54 header bytes. A width or height
of 0 ends in Param (43_row_padder.md R182), so in RangeError (60_exceptions.md R403). -/
def encodeBmpOnBlock (openFields : BmpOpenFields) (img : PixelImage) (src dst : Word) (polls : Nat)
    (uncovered : Except HostError (List Byte)) (s : State) : Host.Outcome (Except HostError (List Byte)) Fault Refusal :=
  runAndCollect
    (rowProgram (.rowPad img.channels) img.data src dst (BitVec.ofNat 32 img.width) (BitVec.ofNat 32 img.height) polls)
    uncovered (fun t => bmpFile openFields img t.resultBytes) s

/-- BMP decode with the block (46_host_software.md R321): the headers, then the host copies the `height * stride` bytes of the
pixel array into MEM, runs ROW.UNPAD with SRC_W = width, SRC_H = height, and takes its result as the buffer. A width or height
of 0 ends in Param (43_row_padder.md R182), so in RangeError (60_exceptions.md R403). -/
def decodeBmpOnBlock (start : Nat → Nat) (bytes : List Byte) (src dst : Word) (polls : Nat)
    (uncovered : Except HostError PixelImage) (s : State) : Host.Outcome (Except HostError PixelImage) Fault Refusal :=
  match bmpLayout start bytes with
  | .error (some e) => .next (.error e)
  | .error none => .next uncovered
  | .ok l =>
    runAndCollect
      (rowProgram (.rowUnpad l.channels) ((bytes.drop l.first).take l.bytes) src dst (BitVec.ofNat 32 l.width)
        (BitVec.ofNat 32 l.height) polls)
      uncovered (fun t => l.image t.resultBytes) s

end Sys2Proof.Machine
end

