-- ==== Sys2Proof/Machine/HostGif.lean ====
section
/-! DEFINITION. Host software around the block, out of the block by 00_scope.md R4: the GIF file of 46_host_software.md
R330 to R339, without the block and as host programs that run it. No step of the machine uses these functions. -/

namespace Sys2Proof.Machine

/-! ## Open values -/

/-- An entry of a colour table: R, G, B (46_host_software.md R333). -/
abbrev Rgb := Byte × Byte × Byte

/-- MCS_BYTE: which number the host stores in the minimum-code-size byte (46_host_software.md R334, R335;
93_implementation_defined.md U18, GK3). -/
inductive McsByte where
  /-- The document's number, b. -/
  | document
  /-- The GIF standard's number, b - 1. -/
  | standard
  deriving DecidableEq, Repr

/-- The two versions of the header (46_host_software.md R331). -/
inductive GifVersion where
  | gif87a | gif89a
  deriving DecidableEq, Repr

/-- The values of a GIF file the document leaves to the host: arguments of the model (log entry 18). -/
structure GifOpenFields where
  /-- The version (46_host_software.md R331). -/
  version : GifVersion
  /-- Bits 6:3 of the logical screen descriptor's packed field (R332). -/
  screenBits : BitVec 4
  /-- background_index (R332). -/
  background : Byte
  /-- aspect_ratio (R332). -/
  aspect : Byte
  /-- The image descriptor's left (R334). -/
  left : BitVec 16
  /-- The image descriptor's top (R334). -/
  top : BitVec 16
  /-- MCS_BYTE (R334). -/
  mcs : McsByte
  /-- Whether the encoder is asked for a local colour table (R339). -/
  localTable : Bool
  deriving DecidableEq, Repr

/-- GCT_ORDER and GCT_PAD (46_host_software.md R338; 92_eei_decisions.md D38; log entry 18). -/
structure GctPolicy where
  /-- GCT_ORDER: the order of the table, from the distinct colours in the order of their first pixels. -/
  order : List Rgb → List Rgb
  /-- An order leaves out no colour and adds none. -/
  order_perm : ∀ colours, (order colours).Perm colours
  /-- GCT_PAD: the entry a padded table has at a position, from the colours in table order. -/
  pad : List Rgb → Nat → Rgb

/-! ## Sections -/

/-- `GIF` (46_host_software.md R331). -/
def gifSignature : List Byte := [0x47#8, 0x49#8, 0x46#8]

/-- `87a` or `89a` (46_host_software.md R331). -/
def GifVersion.bytes : GifVersion → List Byte
  | .gif87a => [0x38#8, 0x37#8, 0x61#8]
  | .gif89a => [0x38#8, 0x39#8, 0x61#8]

/-- The separator of an image descriptor (46_host_software.md R334). -/
def gifSeparator : Byte := 0x2C#8

/-- The trailer (46_host_software.md R330). -/
def gifTrailer : Byte := 0x3B#8

/-- The R, G, B of every pixel, in buffer order (46_host_software.md R336). DESIGN CHOICE (log entry 18): alpha, of which the
document says nothing (91_not_in_source.md N23), is dropped. -/
def PixelImage.rgbList (img : PixelImage) : List Rgb :=
  (List.range (img.width * img.height)).map fun p =>
    let o := channelCount img.channels * p
    (img.byteAt (o + 2), img.byteAt (o + 1), img.byteAt o)

/-- The distinct colours in the buffer, in the order of their first pixels (46_host_software.md R338). -/
def PixelImage.colours (img : PixelImage) : List Rgb := img.rgbList.eraseDups

/-- The exponent of a colour table of `count` colours: the least NEXP with count ≤ 2^(NEXP+1); none above 256
(46_host_software.md R338). -/
def tableExponent (count : Nat) : Option Nat := (List.range 8).find? fun e => count ≤ tableSize e

/-- The colour table of the distinct colours in table order, padded to the table size (46_host_software.md R338). -/
def paddedTable (policy : GctPolicy) (colours : List Rgb) (nexp : Nat) : List Rgb :=
  colours ++ (List.range (tableSize nexp - colours.length)).map fun i => policy.pad colours (colours.length + i)

/-- The minimum-code-size byte (46_host_software.md R334). -/
def mcsByte (mcs : McsByte) (nexp : Nat) : Nat :=
  match mcs with
  | .document => minCodeSize nexp
  | .standard => minCodeSize nexp - 1

/-- The NEXP a host passes to LZW.DEC for a minimum-code-size byte, where there is one from 0 to 7
(46_host_software.md R335). -/
def nexpOfMcs (mcs : McsByte) (m : Nat) : Option Nat := (List.range 8).find? fun nexp => mcsByte mcs nexp = m

/-- The packed field of the logical screen descriptor of a file with a global colour table (46_host_software.md R332). -/
def screenPacked (screenBits : BitVec 4) (nexp : Nat) : Byte := BitVec.ofNat 8 (128 + screenBits.toNat * 8 + nexp)

/-- The 6-byte header, the 7-byte logical screen descriptor and the colour table (46_host_software.md R330 to R333). DESIGN
CHOICE (log entry 18): the canvas has the size of the image, and a size above 65535 is written as its low two bytes. -/
def gifScreen (f : GifOpenFields) (w h nexp : Nat) (table : List Rgb) : List Byte :=
  gifSignature ++ f.version.bytes ++ littleEndian 2 w ++ littleEndian 2 h ++
    [screenPacked f.screenBits nexp, f.background, f.aspect] ++ table.flatMap fun c => [c.1, c.2.1, c.2.2]

/-- The 10-byte image descriptor; its packed field is 0, for neither a local colour table nor interlacing exists
(46_host_software.md R334, R339; DESIGN CHOICE, log entry 18). -/
def gifDescriptor (f : GifOpenFields) (w h : Nat) : List Byte :=
  [gifSeparator] ++ littleEndian 2 f.left.toNat ++ littleEndian 2 f.top.toNat ++ littleEndian 2 w ++ littleEndian 2 h ++
    [0x00#8]

/-! ## Encode -/

/-- The file of a compressed image: header to colour table, descriptor, the minimum-code-size byte, the chain, the trailer
(46_host_software.md R330, R334). -/
def gifFile (f : GifOpenFields) (policy : GctPolicy) (img : PixelImage) (nexp size : Nat) (chain : List Byte) : List Byte :=
  gifScreen f img.width img.height nexp (paddedTable policy (policy.order img.colours) nexp) ++
    gifDescriptor f img.width img.height ++ [BitVec.ofNat 8 size] ++ chain ++ [gifTrailer]

/-- The index stream: every pixel's place in the colour table (46_host_software.md R336). -/
def PixelImage.indices (img : PixelImage) (policy : GctPolicy) : List Nat :=
  img.rgbList.map (policy.order img.colours).idxOf

/-- GIF encode without the block (46_host_software.md R330 to R338). A local colour table is not supported (R339). An image
without pixels has no index stream: LZW.ENC ends in Param (44_lzw_encoder.md R210), which is a RangeError (60_exceptions.md
R403). More than 256 colours give the argument `uncovered` (91_not_in_source.md N23; log entry 18). -/
def encodeGif (f : GifOpenFields) (policy : GctPolicy) (uncovered : Except HostError (List Byte)) (img : PixelImage) :
    Except HostError (List Byte) :=
  if f.localTable then .error .unsupportedFeature
  else if img.rgbList = [] then .error .range
  else
    match tableExponent (policy.order img.colours).length with
    | none => uncovered
    | some nexp =>
      .ok (gifFile f policy img nexp (mcsByte f.mcs nexp) ((lzwEncode nexp (img.indices policy)).map (BitVec.ofNat 8)))

/-- The minimum-code-size byte from the b that LZW.ENC returned in RESULT_AUX (46_host_software.md R334). -/
def mcsOfResult (mcs : McsByte) (b : Nat) : Nat :=
  match mcs with
  | .document => b
  | .standard => b - 1

/-- The host puts a stream in MEM at `src`, sets the four registers, writes the command and waits: what LZW.ENC and LZW.DEC need
(10_state.md R42). -/
def lzwProgram (i : Instr) (source : List Byte) (src dst cap : Word) (polls : Nat) : List HostLine :=
  [.op (.st src.toNat source)] ++ strSrcScript src (BitVec.ofNat 32 source.length) ++ strDstScript dst cap ++
    runScript i polls

/-- GIF encode with the block (46_host_software.md R334, R336): LZW.ENC on the index stream, with `cap` bytes for the chain; the
file holds the minimum code size of RESULT_AUX and the RESULT_LEN bytes of the chain. -/
def encodeGifOnBlock (f : GifOpenFields) (policy : GctPolicy) (img : PixelImage) (src dst cap : Word) (polls : Nat)
    (uncovered : Except HostError (List Byte)) (s : State) : Host.Outcome (Except HostError (List Byte)) Fault Refusal :=
  if f.localTable then .next (.error .unsupportedFeature)
  else
    match tableExponent (policy.order img.colours).length with
    | none => .next uncovered
    | some nexp =>
      runAndCollect (lzwProgram (.lzwEnc nexp) ((img.indices policy).map (BitVec.ofNat 8)) src dst cap polls) uncovered
        (fun t => gifFile f policy img nexp (mcsOfResult f.mcs t.resultAux.toNat) t.resultBytes) s

/-! ## Decode -/

/-- Where a file's sections lie and what they say (46_host_software.md R330, R332, R333). -/
structure GifLayout where
  /-- The exponent of the global colour table, if there is one. -/
  exponent : Option Nat
  /-- The number of its entries. -/
  entries : Nat
  /-- The offset of the section after it. -/
  start : Nat
  deriving DecidableEq, Repr

/-- The layout the logical screen descriptor gives: bit 7 of the packed field is the table's flag, bits 2:0 its exponent
(46_host_software.md R332, R333). DESIGN CHOICE (log entry 18): bits 6:3, which R332 calls not described, are not looked at. -/
def gifLayout (bytes : List Byte) : GifLayout :=
  let packed := readLittleEndian bytes 10 1
  if packed < 128 then { exponent := none, entries := 0, start := 13 }
  else
    { exponent := some (packed % 8), entries := tableSize (packed % 8), start := 13 + 3 * tableSize (packed % 8) }

/-- Whether header, logical screen descriptor, colour table, image descriptor and the minimum-code-size byte after it (R335) are
all there, under the signature and a version of 46_host_software.md R331. That a file in which one of them fails, so also one
that ends right after its 10-byte image descriptor, has the corrupt header of R342 is a DESIGN CHOICE (log entry 18). -/
def gifHeaderIntact (bytes : List Byte) : Bool :=
  bytes.take 3 = gifSignature &&
    ((bytes.drop 3).take 3 = GifVersion.bytes .gif87a || (bytes.drop 3).take 3 = GifVersion.bytes .gif89a) &&
    (gifLayout bytes).start + 11 ≤ bytes.length

/-- Entry i of the colour table that begins at byte 13 of a GIF file (46_host_software.md R330, R333). -/
def gifTableEntry (bytes : List Byte) (i : Nat) : Rgb :=
  (bytes.getD (13 + 3 * i) 0x00#8, bytes.getD (14 + 3 * i) 0x00#8, bytes.getD (15 + 3 * i) 0x00#8)

/-- The pixels of the indices, in stored order B, G, R (46_host_software.md R337). -/
def gifPixels (bytes : List Byte) (indices : List Nat) : List Byte :=
  indices.flatMap fun i => let c := gifTableEntry bytes i; [c.2.2, c.2.1, c.1]

/-- What the file goes on with after its first image: nothing but the trailer is a file the document covers, a further image
is a feature the software does not have (46_host_software.md R330, R339, R342). -/
def gifAfterImage (bytes : List Byte) (offset : Nat) (uncovered image : Except HostError PixelImage) :
    Except HostError PixelImage :=
  if bytes[offset]? = some gifTrailer then image
  else if bytes[offset]? = some gifSeparator then .error .unsupportedFeature
  else uncovered

/-- Width and height of the image whose descriptor begins at `layout.start` (46_host_software.md R334). -/
def gifImageSize (bytes : List Byte) (layout : GifLayout) : Nat × Nat :=
  (readLittleEndian bytes (layout.start + 5) 2, readLittleEndian bytes (layout.start + 7) 2)

/-- The sub-block chain and whatever follows it (46_host_software.md R330). -/
def gifChain (bytes : List Byte) (layout : GifLayout) : List Byte := bytes.drop (layout.start + 11)

/-- What comes before the image data: the layout and the NEXP for LZW.DEC, an error kind, or `none` for what the document does
not cover. A header that is not intact gives FormatError (46_host_software.md R331, R342), a local colour table or interlacing
UnsupportedFeatureError (R339, R342; 93_implementation_defined.md U22): bits 7 and 6 of the descriptor's packed field are those
of the GIF format (PRESUMED, log entry 18). The NEXP of the minimum-code-size byte (R335) is also the exponent of the colour
table, if there is one (R333; 90_conflicts.md C7). DESIGN CHOICE (log entry 18): a byte without a NEXP is a corrupt header, one
whose NEXP is not the exponent and a section that is no image are not covered, and bits 6:3 of the screen's packed field,
background_index, aspect_ratio, the canvas, left, top and bits 5:0 of the descriptor's packed field are not looked at. -/
def gifDecodeHeader (mcs : McsByte) (bytes : List Byte) : Except (Option HostError) (GifLayout × Nat) :=
  let layout := gifLayout bytes
  if !gifHeaderIntact bytes then .error (some .format)
  else if bytes.getD layout.start 0x00#8 ≠ gifSeparator then .error none
  else if 64 ≤ readLittleEndian bytes (layout.start + 9) 1 then .error (some .unsupportedFeature)
  else
    match nexpOfMcs mcs (readLittleEndian bytes (layout.start + 10) 1) with
    | none => .error (some .format)
    | some nexp => if layout.exponent.any (· ≠ nexp) then .error none else .ok (layout, nexp)

/-- The image of the indices LZW.DEC gave for a chain of `used` bytes, mapped back through the table, entry i being the i-th of
the file (46_host_software.md R337). DESIGN CHOICE (log entry 18): more or fewer indices than pixels, and an index past the table,
give the argument `uncovered`. -/
def gifDecoded (uncovered : Except HostError PixelImage) (bytes : List Byte) (layout : GifLayout) (indices : List Nat)
    (used : Nat) : Except HostError PixelImage :=
  let size := gifImageSize bytes layout
  gifAfterImage bytes (layout.start + 11 + used) uncovered
    (if indices.length ≠ size.1 * size.2 ∨ indices.any (layout.entries ≤ ·) then uncovered
    else .ok { width := size.1, height := size.2, channels := .three, data := gifPixels bytes indices })

/-- GIF decode without the block (46_host_software.md R330 to R337): the sections before the image data, the chain, whose
malformed LZW stream is a DecodeError (R342), and the pixels. What the document does not cover gives the argument `uncovered`,
more indices than pixels among it (DESIGN CHOICE, log entry 18). -/
def decodeGif (mcs : McsByte) (uncovered : Except HostError PixelImage) (bytes : List Byte) :
    Except HostError PixelImage :=
  match gifDecodeHeader mcs bytes with
  | .error (some e) => .error e
  | .error none => uncovered
  | .ok (layout, nexp) =>
    let size := gifImageSize bytes layout
    match lzwDecode nexp (size.1 * size.2) ((gifChain bytes layout).map (·.toNat)) with
    | .error (code, _) => if code = .overflow then uncovered else .error .decode
    | .ok (indices, used) => gifDecoded uncovered bytes layout indices used

/-- GIF decode with the block (46_host_software.md R335, R337): LZW.DEC on the rest of the file, with room for one index a pixel;
RESULT_AUX is the length of the chain (45_lzw_decoder.md R250). -/
def decodeGifOnBlock (mcs : McsByte) (bytes : List Byte) (src dst : Word) (polls : Nat)
    (uncovered : Except HostError PixelImage) (s : State) : Host.Outcome (Except HostError PixelImage) Fault Refusal :=
  match gifDecodeHeader mcs bytes with
  | .error (some e) => .next (.error e)
  | .error none => .next uncovered
  | .ok (layout, nexp) =>
    let size := gifImageSize bytes layout
    let take (t : State) : Except HostError PixelImage :=
      gifDecoded uncovered bytes layout (t.resultBytes.map (·.toNat)) t.resultAux.toNat
    match runAndCollect (lzwProgram (.lzwDec nexp) (gifChain bytes layout) src dst (BitVec.ofNat 32 (size.1 * size.2)) polls)
      (uncovered.map fun img => .ok img) take s with
    | .next r => .next (r.bind id)
    | .fault e => .fault e
    | .refused e => .refused e

end Sys2Proof.Machine
end

