-- ==== Sys2Proof/Safety.lean ====
section
/-! DEFINITION. What counts as a safe run and a legal state: the terms the statements use. -/

namespace Sys2Proof.Machine

/-- The invariant of the block: what holds in every reachable state (10_state.md R23, R34; 60_exceptions.md R401;
70_reset_and_hazards.md R455 g; 20_memory.md R61). -/
structure State.Inv (s : State) : Prop where
  /-- BUSY = 1 implies DONE = 0 and ERR = 0 (10_state.md R23). -/
  busy_quiet : s.busy = true → s.done = false ∧ s.err = false
  /-- ERR = 0 implies ERRCODE = 0 and ERRINFO = 0 (10_state.md R23). -/
  no_err_no_code : s.err = false → s.errCode = 0#4 ∧ s.errInfo = 0#32
  /-- ERR = 1 implies ERRCODE ≠ 0 (10_state.md R23). -/
  err_has_code : s.err = true → s.errCode ≠ 0#4
  /-- ERRCODE values 9 to 15 never appear (60_exceptions.md R401). -/
  code_known : s.errCode.toNat ≤ 8
  /-- While BUSY = 1 the result registers read 0 (10_state.md R34). -/
  busy_no_result : s.busy = true → s.resultLen = 0#32 ∧ s.resultAux = 0#32
  /-- After an error the result registers read 0 (60_exceptions.md R404, 70_reset_and_hazards.md R455 g). -/
  err_no_result : s.err = true → s.resultLen = 0#32 ∧ s.resultAux = 0#32
  /-- The memory list is in canonical form. -/
  mem_canonical : s.mem.wf
  /-- MEM has the addresses 0 to MEM_SIZE - 1 only (20_memory.md R61). -/
  mem_inside : ∀ cell ∈ s.mem, cell.1 < s.memSize
  /-- 1 ≤ MEM_SIZE ≤ 2^32 (20_memory.md R61). -/
  size_legal : 1 ≤ s.memSize ∧ s.memSize ≤ 2 ^ 32

/-- A step that stops neither with a fault nor with a refusal. -/
def State.stepsOn (s : State) : Prop := ∃ t, step s = .next t

/-- The next input keeps to the interface: a register access is aligned and 32 bits wide (10_state.md R32), MEM is accessed
only while BUSY = 0 (20_memory.md R75) and inside MEM_SIZE (R61). -/
def State.hostKeepsInterface (s : State) : Bool :=
  match s.inputs with
  | .host (.regWrite width offset _) :: _ => registerShapeOk width offset
  | .host (.regRead width offset) :: _ => registerShapeOk width offset
  | .host (.memStore addr bytes) :: _ => !s.busy && addr + bytes.length ≤ s.memSize
  | .host (.memLoad addr n) :: _ => !s.busy && addr + n ≤ s.memSize
  | _ => true

/-- Which registers a command reads (10_state.md R42). -/
def commandReads : Instr → Reg → Bool
  | .scaleBl _, r | .scaleBc _, r =>
    r = .srcAddr || r = .dstAddr || r = .srcW || r = .srcH || r = .dstW || r = .dstH
  | .rowPad _, r | .rowUnpad _, r | .pixToCanon _, r | .pixFromCanon _, r | .pixFromCanonDa, r =>
    r = .srcAddr || r = .dstAddr || r = .srcW || r = .srcH
  | .lzwEnc _, r | .lzwDec _, r => r = .srcAddr || r = .srcLen || r = .dstAddr || r = .dstCap

/-- What no completion changes (10_state.md R42): CMD, CTRL, the parameter registers; and the fields that are not the
block's. -/
structure KeepsOperands (s t : State) : Prop where
  cmd : t.cmd = s.cmd
  ie : t.ie = s.ie
  srcAddr : t.srcAddr = s.srcAddr
  srcLen : t.srcLen = s.srcLen
  dstAddr : t.dstAddr = s.dstAddr
  dstCap : t.dstCap = s.dstCap
  srcW : t.srcW = s.srcW
  srcH : t.srcH = s.srcH
  dstW : t.dstW = s.dstW
  dstH : t.dstH = s.dstH
  memSize : t.memSize = s.memSize
  inputs : t.inputs = s.inputs
  reply : t.reply = s.reply

/-- `t` is `s` after a successful completion that wrote `len` bytes at DST_ADDR and the second result `aux`
(10_state.md R35): the flags, the result registers, and everything left unchanged, every byte of MEM outside the
destination among it. Which bytes were written is said beside it. -/
structure Succeeds (s t : State) (len aux : Nat) : Prop where
  operands : KeepsOperands s t
  err : t.err = s.err
  errCode : t.errCode = s.errCode
  errInfo : t.errInfo = s.errInfo
  busy : t.busy = false
  done : t.done = true
  resultLen : t.resultLen.toNat = len
  resultAux : t.resultAux.toNat = aux
  mem : ∀ a, a < s.dstAddr.toNat ∨ s.dstAddr.toNat + len ≤ a → t.mem.read a = s.mem.read a

/-- The source region of `n` bytes and the destination region of `m` bytes lie inside MEM (20_memory.md R62). -/
def State.regionsFit (s : State) (n m : Nat) : Prop :=
  s.srcAddr.toNat + n ≤ s.memSize ∧ s.dstAddr.toNat + m ≤ s.memSize

/-- The source region of `n` bytes and the destination region of `m` bytes share a byte (20_memory.md R63). -/
def State.regionsShare (s : State) (n m : Nat) : Prop :=
  0 < n ∧ 0 < m ∧ s.srcAddr.toNat < s.dstAddr.toNat + m ∧ s.dstAddr.toNat < s.srcAddr.toNat + n

/-- The checks a command makes before it looks at its data, in the order of 60_exceptions.md R402, from every state: with a
size operand that is zero it ends in Param(0), else with a region outside MEM in Range(0), else with regions that share a
byte in Overlap(0). `src` and `dst` give the lengths of the two regions. -/
def ChecksInOrder (i : Instr) (zero : State → Prop) (src dst : State → Nat) : Prop :=
  ∀ s : State,
    (zero s → exec i s = .next (s.takeError .param 0)) ∧
    (¬zero s → ¬s.regionsFit (src s) (dst s) → exec i s = .next (s.takeError .range 0)) ∧
    (¬zero s → s.regionsFit (src s) (dst s) → s.regionsShare (src s) (dst s) →
      exec i s = .next (s.takeError .overlap 0))

/-- The state passes the checks of `ChecksInOrder`. -/
def State.passesChecks (s : State) (zero : State → Prop) (src dst : State → Nat) : Prop :=
  ¬zero s ∧ s.regionsFit (src s) (dst s) ∧ ¬s.regionsShare (src s) (dst s)

/-- SRC_W or SRC_H is 0 (60_exceptions.md R401, Param). -/
def State.zeroSource (s : State) : Prop := s.srcW = 0#32 ∨ s.srcH = 0#32

/-- A size of the source or of the destination image is 0 (42_scalers.md R143). -/
def State.zeroImage (s : State) : Prop := s.zeroSource ∨ s.dstW = 0#32 ∨ s.dstH = 0#32

/-- The number of pixels of the source image (41_pixel_format.md R120). -/
def State.pixels (s : State) : Nat := s.srcW.toNat * s.srcH.toNat

/-- The state a second command runs in that reads what a first one wrote: only the two addresses are set. -/
def State.thenAt (s : State) (src dst : Word) : State := { s with srcAddr := src, dstAddr := dst }

/-- The source region as numbers, SRC_LEN of them (44_lzw_encoder.md R210, 45_lzw_decoder.md R250). -/
def State.sourceNumbers (s : State) : List Nat :=
  (s.mem.readBytes s.srcAddr.toNat s.srcLen.toNat).map (·.toNat)

end Sys2Proof.Machine
end

