-- ==== Sys2Proof/Certificates/Slice0/Obligations.lean ====
section
/-! DEFINITION. The statements for the provers. Each docstring names the rule of spec/ it formalises. -/

open Sys2Proof Sys2Proof.Machine

/-! ## The command word -/

/-- Decode and encode agree: the word of every well-formed command decodes to that command (30_encoding.md R91, R92,
R100). -/
def Obligations.DecodeOfEncode : Prop := ∀ i : Instr, i.wellFormed → decode (encode i) = .ok i

/-- Every word that decodes is the word of the command it decodes to, and the command is well formed: no bit of a word is
ignored (30_encoding.md R94, R100). -/
def Obligations.EncodeOfDecode : Prop := ∀ (w : Word) (i : Instr), decode w = .ok i → i.wellFormed ∧ encode i = w

/-- Exactly the 29 words of 30_encoding.md R92 are legal (R100). -/
def Obligations.LegalWordsAreTwentyNine : Prop :=
  let legal : List Word :=
    [0x01, 0x11, 0x02, 0x12, 0x03, 0x13, 0x04, 0x14, 0x05, 0x15, 0x06, 0x16, 0x36,
      0x007, 0x107, 0x207, 0x307, 0x407, 0x507, 0x607, 0x707,
      0x008, 0x108, 0x208, 0x308, 0x408, 0x508, 0x608, 0x708]
  legal.length = 29 ∧ legal.Nodup ∧ ∀ w : Word, (∃ i, decode w = .ok i) ↔ w ∈ legal

/-- Some words written out from 30_encoding.md R92, one or more of each unit, and what they decode to. -/
def Obligations.SampleWordsDecode : Prop :=
  decode 0b00000000000000000000000000000001#32 = .ok (.scaleBl .three) ∧
  decode 0b00000000000000000000000000010010#32 = .ok (.scaleBc .four) ∧
  decode 0b00000000000000000000000000000011#32 = .ok (.rowPad .three) ∧
  decode 0b00000000000000000000000000010100#32 = .ok (.rowUnpad .four) ∧
  decode 0b00000000000000000000000000000101#32 = .ok (.pixToCanon .three) ∧
  decode 0b00000000000000000000000000010110#32 = .ok (.pixFromCanon .four) ∧
  decode 0b00000000000000000000000000110110#32 = .ok .pixFromCanonDa ∧
  decode 0b00000000000000000000000100000111#32 = .ok (.lzwEnc 1) ∧
  decode 0b00000000000000000000011100001000#32 = .ok (.lzwDec 7)

/-- 30_encoding.md R95: a word is illegal exactly when OP, the zero bits, NEXP, CH4 or DROPA are as the rule lists; an
illegal word is accepted like any other, and its command completes with IllegalCmd, reading and writing no memory. -/
def Obligations.IllegalWordsCompleteWithIllegalCmd : Prop :=
  ∀ w : Word,
    ((∃ e, decode w = .error e) ↔
      opField w = 0x0 ∨ (0x9 ≤ opField w ∧ opField w ≤ 0xF) ∨ zeroLoField w ≠ 0 ∨ zeroHiField w ≠ 0 ∨
      (nexpField w ≠ 0 ∧ 0x1 ≤ opField w ∧ opField w ≤ 0x6) ∨
      ((ch4Field w = 1 ∨ dropaField w = 1) ∧ (opField w = 0x7 ∨ opField w = 0x8)) ∨
      (dropaField w = 1 ∧ opField w ≠ 0x6) ∨ (dropaField w = 1 ∧ ch4Field w = 0)) ∧
    (∀ s : State, s.busy = false → s.err = false → s.writeOffset 0x00 w = s.accept w) ∧
    (∀ s : State, s.busy = true → s.cmd = w → (∃ e, decode w = .error e) →
      ∃ t, blockStep s = .next t ∧ t = s.takeError .illegalCmd 0 ∧ t.errCode = 1#4 ∧ t.errInfo = 0#32 ∧ t.mem = s.mem)

/-! ## Steps, acceptance, completion -/

/-- A step runs the decoded command: when a command is in flight, its word decodes to i and the block's turn is next (or no
input is left), the step is exec of i at the state without that turn (10_state.md R35, 30_encoding.md R100). The queue of
turns is the model's choice (log entry 4). -/
def Obligations.StepRunsDecodedCommand : Prop :=
  ∀ (s : State) (i : Instr), s.busy = true → decode s.cmd = .ok i →
    (∀ rest, s.inputs = .block :: rest → step s = exec i (s.setInputs rest)) ∧ (s.inputs = [] → step s = exec i s)

/-- 10_state.md R33: a host write of v to CMD with BUSY = 0 and ERR = 0 is accepted, and every other field, the parameter
registers among them, stays; in any other state it changes nothing. (`inputs` loses the operation that was taken.) -/
def Obligations.AcceptanceOfCommand : Prop :=
  ∀ (s : State) (v : Word) (rest : List Input), s.inputs = .host (.regWrite 32 0x00 v) :: rest →
    (s.busy = false → s.err = false →
      step s = .next { s with
        cmd := v, busy := true, done := false, resultLen := 0#32, resultAux := 0#32, inputs := rest }) ∧
    (s.busy = true ∨ s.err = true → step s = .next { s with inputs := rest })

/-- While BUSY = 1 every register write, to any offset, is ignored, and in a legal state the registers read BUSY alone,
with zero results and ERRINFO (10_state.md R34). -/
def Obligations.BusyIgnoresRegisterWrites : Prop :=
  ∀ s : State, s.busy = true →
    (∀ (o : Nat) (v : Word) (rest : List Input), o % 4 = 0 → s.inputs = .host (.regWrite 32 o v) :: rest →
      step s = .next { s with inputs := rest }) ∧
    (s.Inv → s.readOffset 0x04 = 0x1#32 ∧ s.readOffset 0x2C = 0#32 ∧ s.readOffset 0x30 = 0#32 ∧ s.readOffset 0x34 = 0#32)

/-- 10_state.md R36: a host write of v to STATUS while BUSY = 0 clears DONE where v[1] = 1 and ERR, ERRCODE, ERRINFO where
v[2] = 1; nothing else changes. -/
def Obligations.StatusWriteClearsFlags : Prop :=
  ∀ (s : State) (v : Word) (rest : List Input), s.busy = false → s.inputs = .host (.regWrite 32 0x04 v) :: rest →
    step s = .next { s with
      done := s.done && !v.getLsbD 1
      err := s.err && !v.getLsbD 2
      errCode := if v.getLsbD 2 then 0#4 else s.errCode
      errInfo := if v.getLsbD 2 then 0#32 else s.errInfo
      inputs := rest }

/-- A read of STATUS shows BUSY, DONE, ERR in bits 0, 1, 2 and ERRCODE in bits 7:4; bits 3 and 31:8 read 0
(10_state.md R23). -/
def Obligations.StatusReadShowsFlags : Prop :=
  ∀ s : State, (s.readOffset 0x04).getLsbD 0 = s.busy ∧ (s.readOffset 0x04).getLsbD 1 = s.done ∧
    (s.readOffset 0x04).getLsbD 2 = s.err ∧ (s.readOffset 0x04).getLsbD 3 = false ∧
    (s.readOffset 0x04).extractLsb' 4 4 = s.errCode ∧ (s.readOffset 0x04).extractLsb' 8 24 = 0#24

/-- CTRL keeps bit 0 of what is written and reads 0 above it (10_state.md R24). -/
def Obligations.CtrlKeepsEnableOnly : Prop :=
  ∀ (s : State) (v : Word) (rest : List Input), s.busy = false → s.inputs = .host (.regWrite 32 0x08 v) :: rest →
    step s = .next { s with ie := v.getLsbD 0, inputs := rest } ∧
    (s.writeOffset 0x08 v).readOffset 0x08 = v &&& 1#32

/-- A step that takes a write of v at the offset of a parameter register (10_state.md R21) while BUSY = 0 gives the state with
that register v and the rest unchanged, for any v; the register then reads v and every other register what it read (R25). -/
def Obligations.ParameterRegistersHoldWrites : Prop :=
  ∀ (s : State) (v : Word) (rest : List Input), s.busy = false →
    let writes (offset : Nat) : Prop := s.inputs = .host (.regWrite 32 offset v) :: rest
    (writes 0x0C → step s = .next { s with srcAddr := v, inputs := rest }) ∧
    (writes 0x10 → step s = .next { s with srcLen := v, inputs := rest }) ∧
    (writes 0x14 → step s = .next { s with dstAddr := v, inputs := rest }) ∧
    (writes 0x18 → step s = .next { s with dstCap := v, inputs := rest }) ∧
    (writes 0x1C → step s = .next { s with srcW := v, inputs := rest }) ∧
    (writes 0x20 → step s = .next { s with srcH := v, inputs := rest }) ∧
    (writes 0x24 → step s = .next { s with dstW := v, inputs := rest }) ∧
    (writes 0x28 → step s = .next { s with dstH := v, inputs := rest }) ∧
    ∀ r ∈ [Reg.srcAddr, .srcLen, .dstAddr, .dstCap, .srcW, .srcH, .dstW, .dstH],
      (s.writeOffset r.offset v).readReg r = v ∧
      (∀ q : Reg, q ≠ r → (s.writeOffset r.offset v).readReg q = s.readReg q) ∧
      (s.writeOffset r.offset v).mem = s.mem

/-- The read-only registers and the offsets 0x38 and up ignore writes; those offsets read 0 (10_state.md R26 to R29). -/
def Obligations.ReadOnlyOffsetsIgnoreWrites : Prop :=
  ∀ (s : State) (o : Nat) (v : Word) (rest : List Input), o % 4 = 0 → 0x2C ≤ o →
    s.inputs = .host (.regWrite 32 o v) :: rest →
    step s = .next { s with inputs := rest } ∧ (0x38 ≤ o → s.readOffset o = 0#32)

/-- 10_state.md R32: an aligned 32-bit read, at any offset, returns the value there and changes no register and no byte of
MEM (the model records the value in its own field `reply`): the register's value at a register's offset, 0 from 0x38 up
(R29), and no aligned offset is anything else; the fourteen registers and their offsets are those of the table of R21; a
register access of another width or at an unaligned offset is refused. -/
def Obligations.RegisterAccessShapes : Prop :=
  (Reg.offset .cmd = 0x00 ∧ Reg.offset .status = 0x04 ∧ Reg.offset .ctrl = 0x08 ∧ Reg.offset .srcAddr = 0x0C ∧
    Reg.offset .srcLen = 0x10 ∧ Reg.offset .dstAddr = 0x14 ∧ Reg.offset .dstCap = 0x18 ∧ Reg.offset .srcW = 0x1C ∧
    Reg.offset .srcH = 0x20 ∧ Reg.offset .dstW = 0x24 ∧ Reg.offset .dstH = 0x28 ∧ Reg.offset .resultLen = 0x2C ∧
    Reg.offset .resultAux = 0x30 ∧ Reg.offset .errInfo = 0x34) ∧
  (∀ s : State, s.readReg .cmd = s.cmd ∧ s.readReg .status = s.statusWord ∧ s.readReg .ctrl = s.ctrlWord ∧
    s.readReg .srcAddr = s.srcAddr ∧ s.readReg .srcLen = s.srcLen ∧ s.readReg .dstAddr = s.dstAddr ∧
    s.readReg .dstCap = s.dstCap ∧ s.readReg .srcW = s.srcW ∧ s.readReg .srcH = s.srcH ∧ s.readReg .dstW = s.dstW ∧
    s.readReg .dstH = s.dstH ∧ s.readReg .resultLen = s.resultLen ∧ s.readReg .resultAux = s.resultAux ∧
    s.readReg .errInfo = s.errInfo) ∧
  (∀ (s : State) (o : Nat) (rest : List Input), o % 4 = 0 → s.inputs = .host (.regRead 32 o) :: rest →
    (∀ r : Reg, o = r.offset → step s = .next { s with reply := .word (s.readReg r), inputs := rest }) ∧
    (0x38 ≤ o → step s = .next { s with reply := .word 0#32, inputs := rest }) ∧ ((∃ r : Reg, o = r.offset) ∨ 0x38 ≤ o)) ∧
  (∀ (s : State) (width o : Nat) (v : Word) (rest : List Input), width ≠ 32 ∨ o % 4 ≠ 0 →
    (s.inputs = .host (.regWrite width o v) :: rest → step s = .refused .registerAccessShape) ∧
    (s.inputs = .host (.regRead width o) :: rest → step s = .refused .registerAccessShape))

/-- 10_state.md R37: `irq` is DONE and IE; it falls when the host clears DONE or IE and when a command is accepted, and it
rises at every completion exactly when IE = 1 (60_exceptions.md R406). -/
def Obligations.InterruptIsDoneAndEnable : Prop :=
  ∀ s : State, (s.irq = true ↔ s.done = true ∧ s.ie = true) ∧
    (∀ v : Word, (s.accept v).irq = false) ∧
    (∀ v : Word, s.busy = false → v.getLsbD 1 = true → (s.writeOffset 0x04 v).irq = false) ∧
    (∀ v : Word, s.busy = false → v.getLsbD 0 = false → (s.writeOffset 0x08 v).irq = false) ∧
    (∀ t : State, s.busy = true → blockStep s = .next t → t.irq = s.ie)

/-- 60_exceptions.md R404: a command that evaluates to an error makes exactly these changes, together; every other field
keeps its value and `irq` is IE. The codes are those of the table of R401. ERRINFO is the detail wherever that has a 32-bit
value (log entry 6 for one that has none). -/
def Obligations.ErrorEntryChanges : Prop :=
  (ErrCode.code .illegalCmd = 1#4 ∧ ErrCode.code .param = 2#4 ∧ ErrCode.code .range = 3#4 ∧
    ErrCode.code .overlap = 4#4 ∧ ErrCode.code .index = 5#4 ∧ ErrCode.code .overflow = 6#4 ∧
    ErrCode.code .decodeCode = 7#4 ∧ ErrCode.code .decodeTrunc = 8#4) ∧
  ∀ (s : State) (code : ErrCode) (info : Nat), ∃ w : Word, (info < 2 ^ 32 → w.toNat = info) ∧
    s.complete (.err code info) =
      { s with err := true, errCode := code.code, errInfo := w, busy := false, done := true } ∧
    (s.complete (.err code info)).irq = s.ie

/-- 60_exceptions.md R400: a command in flight ends in exactly one of two ways, with success or with one error, and never
otherwise: the block's step gives a next state in which BUSY = 0 and DONE = 1. -/
def Obligations.CommandsEndInOneOfTwoWays : Prop :=
  ∀ s : State, s.Inv → s.busy = true → ∃ t, blockStep s = .next t ∧ t.busy = false ∧ t.done = true ∧
    KeepsOperands s t ∧
    ((t.err = false ∧ t.errCode = 0#4 ∧ t.errInfo = 0#32 ∧ t.resultLen.toNat ≤ s.memSize) ∨
      (t.err = true ∧ t.errCode ≠ 0#4 ∧ t.mem = s.mem ∧ t.resultLen = 0#32 ∧ t.resultAux = 0#32))

/-- 10_state.md R39: the block changes MEM only in a successful completion, and only in the RESULT_LEN bytes at
DST_ADDR. -/
def Obligations.BlockWritesOnlyItsDestination : Prop :=
  ∀ s t : State, s.Inv → blockStep s = .next t → ∀ a : Nat, t.mem.read a ≠ s.mem.read a →
    s.busy = true ∧ t.err = false ∧ s.dstAddr.toNat ≤ a ∧ a < s.dstAddr.toNat + t.resultLen.toNat

/-- 10_state.md R42: a register the table does not mark for a command is ignored by it, and so are the flags: two states
that agree on MEM and the marked registers give the same result, whatever else they hold; and no command writes CMD, CTRL or
a parameter register. -/
def Obligations.UnreadRegistersAreIgnored : Prop :=
  ∀ (i : Instr) (s s' : State), s.mem = s'.mem → s.memSize = s'.memSize →
    (∀ r : Reg, commandReads i r = true → s.readReg r = s'.readReg r) →
    (∃ r, exec i s = .next (s.complete r) ∧ exec i s' = .next (s'.complete r)) ∧
    ∀ t, exec i s = .next t → KeepsOperands s t

/-- With BUSY = 0 the block takes no step: its turn, and a step with no input left, change nothing
(70_reset_and_hazards.md R462). The queue of turns is the model's choice (log entry 4). -/
def Obligations.IdleBlockTakesNoStep : Prop :=
  ∀ s : State, s.busy = false →
    (s.inputs = [] → step s = .next s) ∧ (∀ rest, s.inputs = .block :: rest → step s = .next { s with inputs := rest })

/-- A command in flight completes however long the host polls STATUS, and its result does not depend on how long that was:
after `polls` reads and one more step the state is the completion of the command, with only the host's last reply to tell
them apart (70_reset_and_hazards.md R461). That the command completes when the queue of inputs is empty is the model's choice
(log entry 4). -/
def Obligations.CompletionAfterAnyPolling : Prop :=
  ∀ (s : State) (polls : Nat), s.busy = true → s.inputs = List.replicate polls (Input.rd .status) →
    ∃ t, blockStep (s.setInputs []) = .next t ∧ t.busy = false ∧ t.done = true ∧
      Host.Core.run Sys2Proof.core (polls + 1) s =
        .next (t.answer (if polls = 0 then s.reply else .word s.statusWord))

/-! ## Reset, memory, the invariant -/

/-- 10_state.md R40: after reset every register and every flag reads 0, no command is in flight and `irq` = 0. (MEM,
MEM_SIZE and the model's own fields of this state are the model's choices, log entries 1, 2, 4, 11.) -/
def Obligations.ResetClearsEveryRegister : Prop :=
  (∀ r : Reg, State.reset.readReg r = 0#32) ∧ State.reset.busy = false ∧ State.reset.done = false ∧
    State.reset.err = false ∧ State.reset.errCode = 0#4 ∧ State.reset.ie = false ∧ State.reset.irq = false

/-- 70_reset_and_hazards.md R450: `rst`, in any state, also with a command in flight, clears every register; MEM then holds
unspecified bytes: any memory of MEM_SIZE bytes can be what it holds. -/
def Obligations.ResetInputAtAnyMoment : Prop :=
  ∀ (s : State) (rest : List Input),
    (∀ cells, s.inputs = .rst cells :: rest → ∃ t, step s = .next t ∧ (∀ r : Reg, t.readReg r = 0#32) ∧ t.busy = false ∧
      t.done = false ∧ t.err = false ∧ t.errCode = 0#4 ∧ t.irq = false ∧ t.memSize = s.memSize ∧ t.inputs = rest) ∧
    (∀ m : Memory, m.wf → (∀ cell ∈ m, cell.1 < s.memSize) →
      ∃ cells, ∀ u : State, u = { s with inputs := .rst cells :: rest } → ∃ t, step u = .next t ∧ t.mem = m)

/-- While BUSY = 0 the host's load returns the bytes its store put at the same addresses, and no other byte of MEM
changes (20_memory.md R73, R75). -/
def Obligations.HostLoadReturnsStoredBytes : Prop :=
  ∀ (s : State) (addr : Nat) (bytes : List Byte) (rest : List Input), s.busy = false →
    addr + bytes.length ≤ s.memSize → s.inputs = .st addr bytes :: .ld addr bytes.length :: rest →
    ∃ t, Host.Core.run Sys2Proof.core 2 s = .next t ∧ t.reply = .bytes bytes ∧ t.inputs = rest ∧
      ∀ a, a < addr ∨ addr + bytes.length ≤ a → t.mem.read a = s.mem.read a

/-- While BUSY = 1 the host has no MEM step (20_memory.md R75; 93_implementation_defined.md U6: refuse). -/
def Obligations.NoHostMemoryStepWhileBusy : Prop :=
  ∀ (s : State) (addr n : Nat) (bytes : List Byte) (rest : List Input), s.busy = true →
    (s.inputs = .st addr bytes :: rest → step s = .refused .memAccessWhileBusy) ∧
    (s.inputs = .ld addr n :: rest → step s = .refused .memAccessWhileBusy)

/-- Every step keeps the invariant of the block: BUSY quiet, ERR with its code, zero results while BUSY and after an error
(10_state.md R23, R34; 60_exceptions.md R401, R404), MEM in canonical form and inside MEM_SIZE (20_memory.md R61). -/
def Obligations.StepKeepsInvariant : Prop := ∀ s t : State, s.Inv → step s = .next t → t.Inv

/-- The invariant holds at reset. -/
def Obligations.ResetMeetsInvariant : Prop := State.reset.Inv

/-- The machine stops only where the host leaves the interface: with an input inside it every step gives a next state
(60_exceptions.md R400, 70_reset_and_hazards.md R457). That a host MEM access past MEM_SIZE is outside it is the model's
choice (log entry 7). -/
def Obligations.StepsGoOnInsideTheInterface : Prop := ∀ s : State, s.hostKeepsInterface = true ↔ s.stepsOn

/-! ## pixel_format_converter -/

/-- 41_pixel_format.md R122: PIX.TOCANON. Its words; its errors in order; from every other state it completes with every
pixel's bytes 0 and 2 exchanged, byte 1 and, when C = 4, byte 3 copied, RESULT_LEN = n*C and RESULT_AUX = 0. -/
def Obligations.PixToCanonCommand : Prop :=
  encode (.pixToCanon .three) = 0x05#32 ∧ encode (.pixToCanon .four) = 0x15#32 ∧
  ∀ c : Channels,
    let size (s : State) : Nat := s.pixels * channelCount c
    ChecksInOrder (.pixToCanon c) State.zeroSource size size ∧
    ∀ s : State, s.memSize ≤ 2 ^ 32 → s.passesChecks State.zeroSource size size →
      ∃ t, exec (.pixToCanon c) s = .next t ∧ Succeeds s t (size s) 0 ∧
        ∀ p < s.pixels,
          let src := s.srcAddr.toNat + channelCount c * p
          let dst := s.dstAddr.toNat + channelCount c * p
          t.mem.read dst = s.mem.read (src + 2) ∧ t.mem.read (dst + 1) = s.mem.read (src + 1) ∧
          t.mem.read (dst + 2) = s.mem.read src ∧ (c = .four → t.mem.read (dst + 3) = s.mem.read (src + 3))

/-- 41_pixel_format.md R123: PIX.FROMCANON. Its words; its errors in order; from every other state it completes with every
pixel's bytes 0 and 2 exchanged, byte 1 and, when C = 4, byte 3 copied, RESULT_LEN = n*C and RESULT_AUX = 0. -/
def Obligations.PixFromCanonCommand : Prop :=
  encode (.pixFromCanon .three) = 0x06#32 ∧ encode (.pixFromCanon .four) = 0x16#32 ∧
  ∀ c : Channels,
    let size (s : State) : Nat := s.pixels * channelCount c
    ChecksInOrder (.pixFromCanon c) State.zeroSource size size ∧
    ∀ s : State, s.memSize ≤ 2 ^ 32 → s.passesChecks State.zeroSource size size →
      ∃ t, exec (.pixFromCanon c) s = .next t ∧ Succeeds s t (size s) 0 ∧
        ∀ p < s.pixels,
          let src := s.srcAddr.toNat + channelCount c * p
          let dst := s.dstAddr.toNat + channelCount c * p
          t.mem.read dst = s.mem.read (src + 2) ∧ t.mem.read (dst + 1) = s.mem.read (src + 1) ∧
          t.mem.read (dst + 2) = s.mem.read src ∧ (c = .four → t.mem.read (dst + 3) = s.mem.read (src + 3))

/-- 41_pixel_format.md R124: PIX.FROMCANON.DA. Its word; its errors in order, with four source and three destination bytes
per pixel; from every other state it completes with bytes 2, 1, 0 of every pixel stored and alpha dropped, RESULT_LEN = 3*n
and RESULT_AUX = 0. -/
def Obligations.PixFromCanonDaCommand : Prop :=
  encode .pixFromCanonDa = 0x36#32 ∧
  ChecksInOrder .pixFromCanonDa State.zeroSource (fun s => s.pixels * 4) (fun s => s.pixels * 3) ∧
  ∀ s : State, s.memSize ≤ 2 ^ 32 →
    s.passesChecks State.zeroSource (fun s => s.pixels * 4) (fun s => s.pixels * 3) →
    ∃ t, exec .pixFromCanonDa s = .next t ∧ Succeeds s t (s.pixels * 3) 0 ∧
      ∀ p < s.pixels,
        let src := s.srcAddr.toNat + 4 * p
        let dst := s.dstAddr.toNat + 3 * p
        t.mem.read dst = s.mem.read (src + 2) ∧ t.mem.read (dst + 1) = s.mem.read (src + 1) ∧
        t.mem.read (dst + 2) = s.mem.read src

/-- 41_pixel_format.md R126: PIX.FROMCANON undoes PIX.TOCANON and the other way round, and PIX.FROMCANON.DA gives what
PIX.FROMCANON gives with every fourth byte removed. Each command is one that ended without an error. -/
def Obligations.PixelConversionLaws : Prop :=
  (∀ (c : Channels) (s t u : State) (e : Word), s.memSize ≤ 2 ^ 32 → s.err = false →
    exec (.pixToCanon c) s = .next t → t.err = false →
    exec (.pixFromCanon c) (t.thenAt s.dstAddr e) = .next u → u.err = false →
    ∀ i < s.pixels * channelCount c, u.mem.read (e.toNat + i) = s.mem.read (s.srcAddr.toNat + i)) ∧
  (∀ (c : Channels) (s t u : State) (e : Word), s.memSize ≤ 2 ^ 32 → s.err = false →
    exec (.pixFromCanon c) s = .next t → t.err = false →
    exec (.pixToCanon c) (t.thenAt s.dstAddr e) = .next u → u.err = false →
    ∀ i < s.pixels * channelCount c, u.mem.read (e.toNat + i) = s.mem.read (s.srcAddr.toNat + i)) ∧
  (∀ s t u : State, s.memSize ≤ 2 ^ 32 → s.err = false →
    exec (.pixFromCanon .four) s = .next t → t.err = false → exec .pixFromCanonDa s = .next u → u.err = false →
    ∀ p < s.pixels, ∀ k < 3, u.mem.read (s.dstAddr.toNat + 3 * p + k) = t.mem.read (s.dstAddr.toNat + 4 * p + k))

/-! ## bmp_row_padder -/

/-- 43_row_padder.md R183: ROW.PAD. Its words; its errors in order; from every other state it completes with every row of L
bytes followed by its pad bytes 0x00, RESULT_LEN = H*stride and RESULT_AUX = stride. -/
def Obligations.RowPadCommand : Prop :=
  encode (.rowPad .three) = 0x03#32 ∧ encode (.rowPad .four) = 0x13#32 ∧
  ∀ ch : Channels,
    let c := channelCount ch
    let src (s : State) : Nat := s.srcH.toNat * (s.srcW.toNat * c)
    let stride (s : State) : Nat := s.srcW.toNat * c + (4 - s.srcW.toNat * c % 4) % 4
    let dst (s : State) : Nat := s.srcH.toNat * stride s
    ChecksInOrder (.rowPad ch) State.zeroSource src dst ∧
    ∀ s : State, s.memSize ≤ 2 ^ 32 → s.passesChecks State.zeroSource src dst →
      ∃ t, exec (.rowPad ch) s = .next t ∧ Succeeds s t (dst s) (stride s) ∧
        ∀ y < s.srcH.toNat,
          (∀ i < s.srcW.toNat * c,
            t.mem.read (s.dstAddr.toNat + y * stride s + i) = s.mem.read (s.srcAddr.toNat + y * (s.srcW.toNat * c) + i)) ∧
          (∀ j < (4 - s.srcW.toNat * c % 4) % 4,
            t.mem.read (s.dstAddr.toNat + y * stride s + s.srcW.toNat * c + j) = 0x00#8)

/-- 43_row_padder.md R184: ROW.UNPAD. Its words; its errors in order; from every other state it completes with every row's L
bytes, the pad bytes of the source left out whatever they hold, RESULT_LEN = H*L and RESULT_AUX = stride. -/
def Obligations.RowUnpadCommand : Prop :=
  encode (.rowUnpad .three) = 0x04#32 ∧ encode (.rowUnpad .four) = 0x14#32 ∧
  ∀ ch : Channels,
    let c := channelCount ch
    let stride (s : State) : Nat := s.srcW.toNat * c + (4 - s.srcW.toNat * c % 4) % 4
    let src (s : State) : Nat := s.srcH.toNat * stride s
    let dst (s : State) : Nat := s.srcH.toNat * (s.srcW.toNat * c)
    ChecksInOrder (.rowUnpad ch) State.zeroSource src dst ∧
    ∀ s : State, s.memSize ≤ 2 ^ 32 → s.passesChecks State.zeroSource src dst →
      ∃ t, exec (.rowUnpad ch) s = .next t ∧ Succeeds s t (dst s) (stride s) ∧
        ∀ y < s.srcH.toNat, ∀ i < s.srcW.toNat * c,
          t.mem.read (s.dstAddr.toNat + y * (s.srcW.toNat * c) + i) = s.mem.read (s.srcAddr.toNat + y * stride s + i)

/-- 43_row_padder.md R181: L, pad and stride; pad is 0 to 3, stride is a multiple of 4 and the next one at or above L; with
C = 4 pad is 0, with C = 3 it is W mod 4; an image takes H*L bytes unpadded and H*stride padded. -/
def Obligations.RowGeometry : Prop :=
  ∀ (w h : Nat) (ch : Channels),
    rowBytes w (channelCount ch) = w * channelCount ch ∧
    rowPadding w (channelCount ch) = (4 - w * channelCount ch % 4) % 4 ∧
    rowStride w (channelCount ch) = w * channelCount ch + rowPadding w (channelCount ch) ∧
    rowPadding w (channelCount ch) ≤ 3 ∧ rowStride w (channelCount ch) % 4 = 0 ∧
    (ch = .four → rowPadding w (channelCount ch) = 0) ∧ (ch = .three → rowPadding w (channelCount ch) = w % 4) ∧
    imageBytes w h (channelCount ch) = h * rowBytes w (channelCount ch) ∧
    paddedBytes w h (channelCount ch) = h * rowStride w (channelCount ch)

/-- 43_row_padder.md R185: ROW.UNPAD undoes ROW.PAD; ROW.PAD after ROW.UNPAD gives the padded image with every pad byte
0x00. Each command is one that ended without an error. -/
def Obligations.RowPaddingLaws : Prop :=
  (∀ (ch : Channels) (s t u : State) (e : Word), s.memSize ≤ 2 ^ 32 → s.err = false →
    exec (.rowPad ch) s = .next t → t.err = false →
    exec (.rowUnpad ch) (t.thenAt s.dstAddr e) = .next u → u.err = false →
    ∀ i < s.srcH.toNat * rowBytes s.srcW.toNat (channelCount ch),
      u.mem.read (e.toNat + i) = s.mem.read (s.srcAddr.toNat + i)) ∧
  (∀ (ch : Channels) (s t u : State) (e : Word), s.memSize ≤ 2 ^ 32 → s.err = false →
    exec (.rowUnpad ch) s = .next t → t.err = false →
    exec (.rowPad ch) (t.thenAt s.dstAddr e) = .next u → u.err = false →
    ∀ y < s.srcH.toNat, ∀ i < rowStride s.srcW.toNat (channelCount ch),
      u.mem.read (e.toNat + y * rowStride s.srcW.toNat (channelCount ch) + i) =
        if i < rowBytes s.srcW.toNat (channelCount ch) then
          s.mem.read (s.srcAddr.toNat + y * rowStride s.srcW.toNat (channelCount ch) + i)
        else 0x00#8)

/-! ## The scalers -/

/-- 42_scalers.md R150: SCALE.BL. Its words; its errors in order; from every other state it completes with the byte at every
destination column, row and channel equal to the floor of the exact rational blend, RESULT_LEN = new_w*new_h*C and
RESULT_AUX = 0. -/
def Obligations.ScaleBlCommand : Prop :=
  encode (.scaleBl .three) = 0x01#32 ∧ encode (.scaleBl .four) = 0x11#32 ∧
  ∀ ch : Channels,
    let c := channelCount ch
    let src (s : State) : Nat := s.srcW.toNat * s.srcH.toNat * c
    let dst (s : State) : Nat := s.dstW.toNat * s.dstH.toNat * c
    ChecksInOrder (.scaleBl ch) State.zeroImage src dst ∧
    ∀ s : State, s.memSize ≤ 2 ^ 32 → s.passesChecks State.zeroImage src dst →
      ∃ t, exec (.scaleBl ch) s = .next t ∧ Succeeds s t (dst s) 0 ∧
        ∀ dx < s.dstW.toNat, ∀ dy < s.dstH.toNat, ∀ k < c,
          ((t.mem.read (s.dstAddr.toNat + (c * (dy * s.dstW.toNat + dx) + k))).toNat : ℤ) =
            ⌊bilinearExact (s.sample s.srcW.toNat c) s.srcW.toNat s.srcH.toNat s.dstW.toNat s.dstH.toNat dx dy k⌋

/-- 42_scalers.md R160: SCALE.BC. Its words; its errors in order; from every other state it completes with the byte at every
destination column, row and channel equal to the exact rational value rounded half up and clamped to 0 .. 255,
RESULT_LEN = new_w*new_h*C and RESULT_AUX = 0. -/
def Obligations.ScaleBcCommand : Prop :=
  encode (.scaleBc .three) = 0x02#32 ∧ encode (.scaleBc .four) = 0x12#32 ∧
  ∀ ch : Channels,
    let c := channelCount ch
    let src (s : State) : Nat := s.srcW.toNat * s.srcH.toNat * c
    let dst (s : State) : Nat := s.dstW.toNat * s.dstH.toNat * c
    ChecksInOrder (.scaleBc ch) State.zeroImage src dst ∧
    ∀ s : State, s.memSize ≤ 2 ^ 32 → s.passesChecks State.zeroImage src dst →
      ∃ t, exec (.scaleBc ch) s = .next t ∧ Succeeds s t (dst s) 0 ∧
        ∀ dx < s.dstW.toNat, ∀ dy < s.dstH.toNat, ∀ k < c,
          ((t.mem.read (s.dstAddr.toNat + (c * (dy * s.dstW.toNat + dx) + k))).toNat : ℤ) =
            max 0 (min 255
              ⌊bicubicExact (s.sample s.srcW.toNat c) s.srcW.toNat s.srcH.toNat s.dstW.toNat s.dstH.toNat dx dy k
                + 1 / 2⌋)

/-- 42_scalers.md R151: the integer form of SCALE.BL equals the rational form in every case. -/
def Obligations.BilinearIntegerFormIsExact : Prop :=
  ∀ (sample : Sampler) (oldW oldH newW newH dx dy k : Nat), 0 < oldW → 0 < oldH → dx < newW → dy < newH →
    (bilinearValue sample oldW oldH newW newH dx dy k : ℤ) = ⌊bilinearExact sample oldW oldH newW newH dx dy k⌋

/-- 42_scalers.md R162: the integer form of SCALE.BC equals the rational form in every case. -/
def Obligations.BicubicIntegerFormIsExact : Prop :=
  ∀ (sample : Sampler) (oldW oldH newW newH dx dy k : Nat), 0 < oldW → 0 < oldH → dx < newW → dy < newH →
    bicubicValue sample oldW oldH newW newH dx dy k = bicubicRound (bicubicExact sample oldW oldH newW newH dx dy k)

/-- The taps of SCALE.BL lie inside the image, and with two columns or more the `min` of R150 changes no column, with two
rows or more no row (42_scalers.md R152); the exact blend and the byte lie between the least and the greatest of the four taps,
so between any bounds of the samples, and the first byte is the first sample (R153 a, b). -/
def Obligations.BilinearTapsAndBounds : Prop :=
  ∀ (sample : Sampler) (oldW oldH newW newH dx dy k : Nat), 0 < oldW → 0 < oldH → dx < newW → dy < newH →
    let srcX := (oldW - 1) * dx / newW
    let srcY := (oldH - 1) * dy / newH
    let x1 := min (srcX + 1) (oldW - 1)
    let y1 := min (srcY + 1) (oldH - 1)
    let least := min (min (sample srcX srcY k) (sample x1 srcY k)) (min (sample srcX y1 k) (sample x1 y1 k))
    let greatest := max (max (sample srcX srcY k) (sample x1 srcY k)) (max (sample srcX y1 k) (sample x1 y1 k))
    (srcX < oldW ∧ x1 < oldW ∧ srcY < oldH ∧ y1 < oldH) ∧
    (2 ≤ oldW → srcX + 1 ≤ oldW - 1 ∧ x1 = srcX + 1) ∧ (oldW = 1 → srcX = 0 ∧ x1 = 0) ∧
    (2 ≤ oldH → srcY + 1 ≤ oldH - 1 ∧ y1 = srcY + 1) ∧ (oldH = 1 → srcY = 0 ∧ y1 = 0) ∧
    ((least : ℚ) ≤ bilinearExact sample oldW oldH newW newH dx dy k ∧
      bilinearExact sample oldW oldH newW newH dx dy k ≤ (greatest : ℚ)) ∧
    (least ≤ bilinearValue sample oldW oldH newW newH dx dy k ∧
      bilinearValue sample oldW oldH newW newH dx dy k ≤ greatest) ∧
    (∀ lo hi, (∀ x < oldW, ∀ y < oldH, lo ≤ sample x y k ∧ sample x y k ≤ hi) →
      lo ≤ bilinearValue sample oldW oldH newW newH dx dy k ∧ bilinearValue sample oldW oldH newW newH dx dy k ≤ hi) ∧
    bilinearValue sample oldW oldH newW newH 0 0 k = sample 0 0 k

/-- Where the source size is a multiple of the destination size SCALE.BC is plain subsampling, so at the same size it is the
identity (42_scalers.md R163 d). -/
def Obligations.BicubicSubsampling : Prop :=
  ∀ (sample : Sampler) (a b newW newH dx dy k : Nat), 0 < a → 0 < b → dx < newW → dy < newH →
    sample (dx * a) (dy * b) k ≤ 255 →
    bicubicValue sample (a * newW) (b * newH) newW newH dx dy k = sample (dx * a) (dy * b) k

/-- 42_scalers.md R161: the kernel as the document writes it, its expansion by sample, its weights' sum, its ends, and the
signs of the outer weights. -/
def Obligations.CubicKernelWeights : Prop :=
  ∀ t q0 q1 q2 q3 : ℚ,
    let w0 : ℚ := (-t + 2 * t ^ 2 - t ^ 3) / 2
    let w1 : ℚ := (2 - 5 * t ^ 2 + 3 * t ^ 3) / 2
    let w2 : ℚ := (t + 4 * t ^ 2 - 3 * t ^ 3) / 2
    let w3 : ℚ := (-t ^ 2 + t ^ 3) / 2
    cubicKernel t q0 q1 q2 q3 =
      q1 + (1 / 2) * t * (q2 - q0 + t * (2 * q0 - 5 * q1 + 4 * q2 - q3 + t * (3 * (q1 - q2) + q3 - q0))) ∧
    cubicKernel t q0 q1 q2 q3 = w0 * q0 + w1 * q1 + w2 * q2 + w3 * q3 ∧ w0 + w1 + w2 + w3 = 1 ∧
    cubicKernel 0 q0 q1 q2 q3 = q1 ∧ cubicKernel 1 q0 q1 q2 q3 = q2 ∧ (0 ≤ t → t < 1 → w0 ≤ 0 ∧ w3 ≤ 0)

/-! ## LZW -/

/-- 44_lzw_encoder.md R210: LZW.ENC. Its word; Param, Range and Overlap in order, then Index at the first index not below N,
then Overflow when the chain is longer than DST_CAP; from every other state it completes with the sub-block chain of the
indices at DST_ADDR, RESULT_LEN its length and RESULT_AUX = b. -/
def Obligations.LzwEncCommand : Prop :=
  ∀ nexp ≤ 7,
    let src (s : State) : Nat := s.srcLen.toNat
    let dst (s : State) : Nat := s.dstCap.toNat
    let zero (s : State) : Prop := s.srcLen = 0#32
    encode (.lzwEnc nexp) = BitVec.ofNat 32 (0x007 + 0x100 * nexp) ∧
    ChecksInOrder (.lzwEnc nexp) zero src dst ∧
    ∀ s : State, s.memSize ≤ 2 ^ 32 → s.passesChecks zero src dst →
      let out := lzwEncode nexp s.sourceNumbers
      (∀ p < s.srcLen.toNat, 2 ^ (nexp + 1) ≤ (s.mem.read (s.srcAddr.toNat + p)).toNat →
        (∀ q < p, (s.mem.read (s.srcAddr.toNat + q)).toNat < 2 ^ (nexp + 1)) →
        exec (.lzwEnc nexp) s = .next (s.takeError .index p)) ∧
      ((∀ p < s.srcLen.toNat, (s.mem.read (s.srcAddr.toNat + p)).toNat < 2 ^ (nexp + 1)) →
        (s.dstCap.toNat < out.length → exec (.lzwEnc nexp) s = .next (s.takeError .overflow 0)) ∧
        (out.length ≤ s.dstCap.toNat →
          ∃ t, exec (.lzwEnc nexp) s = .next t ∧ Succeeds s t out.length (nexp + 2) ∧
            ∀ j < out.length, (t.mem.read (s.dstAddr.toNat + j)).toNat = out.getD j 0))

/-- 45_lzw_decoder.md R250: LZW.DEC. Its word; Range and Overlap in order and no Param; then the first error of deframing and
decoding; from every other state it completes with the decoded indices at DST_ADDR, RESULT_LEN their number and RESULT_AUX
the source bytes used. -/
def Obligations.LzwDecCommand : Prop :=
  ∀ nexp ≤ 7,
    let src (s : State) : Nat := s.srcLen.toNat
    let dst (s : State) : Nat := s.dstCap.toNat
    encode (.lzwDec nexp) = BitVec.ofNat 32 (0x008 + 0x100 * nexp) ∧
    ChecksInOrder (.lzwDec nexp) (fun _ => False) src dst ∧
    ∀ s : State, s.memSize ≤ 2 ^ 32 → s.passesChecks (fun _ => False) src dst →
      (∀ e, deframe s.sourceNumbers = .error e → exec (.lzwDec nexp) s = .next (s.takeError .decodeTrunc 0)) ∧
      (∀ payload used, deframe s.sourceNumbers = .ok (payload, used) →
        (∀ code info, decodePayload nexp s.dstCap.toNat payload = .error (code, info) →
          exec (.lzwDec nexp) s = .next (s.takeError code info)) ∧
        (∀ out, decodePayload nexp s.dstCap.toNat payload = .ok out →
          ∃ t, exec (.lzwDec nexp) s = .next t ∧ Succeeds s t out.length used ∧
            ∀ j < out.length, (t.mem.read (s.dstAddr.toNat + j)).toNat = out.getD j 0))

/-- 45_lzw_decoder.md R252: the round trip. Where LZW.ENC compressed an index stream, LZW.DEC with the same NEXP, given the
chain it wrote and a destination with room for the stream, completes and gives exactly the stream back, with RESULT_AUX the
length of the chain. -/
def Obligations.LzwRoundTrip : Prop :=
  ∀ (nexp : Nat) (s t : State) (e cap : Word), nexp ≤ 7 → s.memSize ≤ 2 ^ 32 → s.err = false →
    exec (.lzwEnc nexp) s = .next t → t.err = false →
    s.srcLen.toNat ≤ cap.toNat → e.toNat + cap.toNat ≤ s.memSize →
    (e.toNat + cap.toNat ≤ s.dstAddr.toNat ∨ s.dstAddr.toNat + t.resultLen.toNat ≤ e.toNat) →
    ∃ u, exec (.lzwDec nexp) { t with srcAddr := s.dstAddr, srcLen := t.resultLen, dstAddr := e, dstCap := cap } =
        .next u ∧ u.err = false ∧ u.resultLen = s.srcLen ∧ u.resultAux = t.resultLen ∧
      ∀ p < s.srcLen.toNat, u.mem.read (e.toNat + p) = s.mem.read (s.srcAddr.toNat + p)

/-- 44_lzw_encoder.md R202: the minimum code size b = NEXP + 2 is the smallest b with 2^b ≥ N + 2, for the eight legal N. -/
def Obligations.MinimumCodeSizeIsLeast : Prop :=
  ∀ nexp ≤ 7, minCodeSize nexp = nexp + 2 ∧ tableSize nexp + 2 ≤ 2 ^ minCodeSize nexp ∧
    ∀ b, tableSize nexp + 2 ≤ 2 ^ b → minCodeSize nexp ≤ b

/-- Every code the encoder emits fits its width, every width lies between b and 12, and the Clear-Code is emitted first and
never again (44_lzw_encoder.md R204, R206; 00_scope.md R11 e). -/
def Obligations.EncoderCodesFitTheirWidths : Prop :=
  ∀ (nexp : Nat) (first : Nat) (rest : List Nat), nexp ≤ 7 → (∀ i ∈ first :: rest, i < tableSize nexp) →
    ∃ codes, encodeCodes nexp (first :: rest) = (tableSize nexp, nexp + 2) :: codes ∧
      ∀ p ∈ codes, p.1 < 2 ^ p.2 ∧ nexp + 2 ≤ p.2 ∧ p.2 ≤ 12 ∧ p.1 ≠ tableSize nexp

/-- Codes are packed least significant bit first (44_lzw_encoder.md R207): bit j of a code is string bit j of its place, string
bit q is bit `q mod 8` of byte `q div 8`, and the packed bytes are bytes. Reading them back gives the bit string of the codes,
followed by fewer than eight zero bits, and the bits of a code of width w read as that code (45_lzw_decoder.md R242). -/
def Obligations.PackedBitsReadBack : Prop :=
  (∀ c w j : Nat, (codeBits c w).length = w ∧ (j < w → (codeBits c w)[j]? = some (c.testBit j))) ∧
  (∀ (payload : List Nat) (q : Nat), q < 8 * payload.length →
    (payloadBits payload)[q]? = some ((payload.getD (q / 8) 0).testBit (q % 8))) ∧
  (∀ codes : List (Nat × Nat),
    streamBits codes = codes.flatMap (fun p => codeBits p.1 p.2) ∧ (∀ byte ∈ pack codes, byte < 256) ∧
    ∃ k < 8, payloadBits (pack codes) = streamBits codes ++ List.replicate k false) ∧
  (∀ (c w : Nat) (rest : List Bool), c < 2 ^ w →
    bitsValue ((codeBits c w ++ rest).take w) = c ∧ (codeBits c w ++ rest).drop w = rest)

/-- A framed payload is its sub-blocks, each a length byte and then its bytes, 255 of them in every sub-block but the last,
followed by the terminator; the framed length is P + ceil(P/255) + 1, no sub-block but the terminator has length 0, and the
chain deframes to the payload, whatever bytes follow its terminator (44_lzw_encoder.md R208, 45_lzw_decoder.md R241). -/
def Obligations.FramedPayloadDeframes : Prop :=
  ∀ payload after : List Nat,
    let count := (payload.length + 254) / 255
    let part (i : Nat) : List Nat := (payload.drop (255 * i)).take 255
    frame payload = (List.range count).flatMap (fun i => (part i).length :: part i) ++ [0] ∧
    (∀ i, i + 1 < count → (part i).length = 255) ∧
    (∀ i < count, subBlock payload i = (part i).length :: part i ∧ 1 ≤ (part i).length ∧ (part i).length ≤ 255) ∧
    (List.range count).flatMap part = payload ∧
    (frame payload).length = payload.length + count + 1 ∧
    deframe (frame payload ++ after) = .ok (payload, (frame payload).length)

/-- Deframing accepts sub-blocks of any lengths from 1 up, gives their payloads joined and counts the bytes used, and
reports DecodeTrunc(0) for a chain cut short anywhere (45_lzw_decoder.md R241). -/
def Obligations.DeframeAcceptsAnySplit : Prop :=
  ∀ (blocks : List (List Nat)) (after : List Nat), (∀ b ∈ blocks, 1 ≤ b.length) →
    let chain := blocks.flatMap (fun b => b.length :: b) ++ [0]
    deframe (chain ++ after) = .ok (blocks.flatten, chain.length) ∧
    ∀ n < chain.length, deframe (chain.take n) = .error (.decodeTrunc, 0)

/-- Every index the decoder produces is below N, there are at most `cap` of them, and the only errors of decoding are
DecodeTrunc(1), DecodeCode and Overflow(0) (45_lzw_decoder.md R244, R251 d). -/
def Obligations.DecoderOutputsAreIndices : Prop :=
  ∀ (nexp cap : Nat) (payload : List Nat),
    (∀ out, decodePayload nexp cap payload = .ok out → out.length ≤ cap ∧ ∀ i ∈ out, i < tableSize nexp) ∧
    (∀ code info, decodePayload nexp cap payload = .error (code, info) →
      (code = .decodeTrunc ∧ info = 1) ∨ code = .decodeCode ∨ (code = .overflow ∧ info = 0))

/-- The packed chain of n indices is no longer than the bound of 44_lzw_encoder.md R211 f. -/
def Obligations.EncodedLengthBound : Prop :=
  ∀ (nexp : Nat) (indices : List Nat), nexp ≤ 7 → indices ≠ [] →
    (pack (encodeCodes nexp indices)).length ≤ (nexp + 2 + 12 * indices.length + 12 + 7) / 8

/-! ## Host software -/

/-- For an image whose buffer has its length (R301), so for every valid one (that those of width or height 0 are among them is
the model's choice, log entry 20), flipping twice and inverting twice give it back, four clockwise rotations do, and rotating clockwise
and then counterclockwise is a vertical flip (46_host_software.md R312, R313, R315, R318; 90_conflicts.md C5). -/
def Obligations.TransformLaws : Prop :=
  ∀ img : PixelImage, img.filled →
    img.flip.flip = img ∧ img.inverse.inverse = img ∧
    img.rotateClockwise.rotateClockwise.rotateClockwise.rotateClockwise = img ∧
    img.rotateClockwise.rotateCounterclockwise = img.flip

/-- Decoding an encoded BMP gives back the pixel buffer, width, height and channel count (46_host_software.md R323), for
every image whose buffer has its length and whose sizes the signed header fields hold (that those of width or height 0 are
among them is the model's choice, log entry 20), whatever the header fields the document leaves open, and whether decoding honours data_offset or takes the pixel array to begin after the 54 header bytes: that is
open (91_not_in_source.md N21, log entry 17), and `start` is any function with start 54 = 54. -/
def Obligations.BmpRoundTrip : Prop :=
  ∀ (openFields : BmpOpenFields) (start : Nat → Nat) (uncovered : Except HostError PixelImage) (img : PixelImage),
    start 54 = 54 → img.filled → img.width < 2 ^ 31 → img.height < 2 ^ 31 →
    decodeBmp start uncovered (encodeBmp openFields img) = .ok img

/-! ## LZW, code by code -/

/-- The decoding loop of 45_lzw_decoder.md R244, code by code, from every state of the decoder. A payload is decoded from the
start state (R251 a: no leading Clear-Code is needed). Too few bits give DecodeTrunc(1). A Clear-Code empties the table and
resets the next free code, the width and the previous code, and keeps the indices and the count of codes (R251 b).
End-of-Information gives the indices, whatever bits follow, so Clear, EOI is the empty stream (R251 c). With no previous code
a data code is a literal, or else DecodeCode at its position (R251 g). With a previous code p it is a literal, a table code,
or the next free code while the table is not full, which is the string of p with its own first index (R246); else DecodeCode.
A data code adds the string of p with its first index to a table that is not full (R245), its string to the indices unless
they then are more than `cap` (Overflow), and the width grows at a next free code of 2^width (R247). -/
def Obligations.DecoderFollowsItsCodes : Prop :=
  ∀ (nexp cap : Nat),
    (∀ payload, decodePayload nexp cap payload =
      decodeFrom nexp cap { table := [], next := 2 ^ (nexp + 1) + 2, width := nexp + 2, prev := none }
        (payloadBits payload) [] 0) ∧
    (decodePayload nexp cap (pack [(2 ^ (nexp + 1), nexp + 2), (2 ^ (nexp + 1) + 1, nexp + 2)]) = .ok []) ∧
    ∀ (d : Decoder) (bits : List Bool) (out : List Nat) (ord : Nat), 1 ≤ d.width →
      (bits.length < d.width → decodeFrom nexp cap d bits out ord = .error (.decodeTrunc, 1)) ∧
      ∀ c < 2 ^ d.width,
        let read := decodeFrom nexp cap d (codeBits c d.width ++ bits) out ord
        let goOn (table : List (Nat × List Nat)) (next : Nat) (s : List Nat) : Except DecodeError (List Nat) :=
          if cap < out.length + s.length then .error (.overflow, 0)
          else
            decodeFrom nexp cap
              { table := table, next := next, width := if next = 2 ^ d.width ∧ d.width < 12 then d.width + 1 else d.width
                prev := some c } bits (out ++ s) (ord + 1)
        (c = 2 ^ (nexp + 1) → read =
          decodeFrom nexp cap { table := [], next := 2 ^ (nexp + 1) + 2, width := nexp + 2, prev := none } bits out
            (ord + 1)) ∧
        (c = 2 ^ (nexp + 1) + 1 → read = .ok out) ∧
        (d.prev = none → c < 2 ^ (nexp + 1) → read = goOn d.table d.next [c]) ∧
        (d.prev = none → 2 ^ (nexp + 1) + 1 < c → read = .error (.decodeCode, ord)) ∧
        ∀ p, d.prev = some p → c ≠ 2 ^ (nexp + 1) → c ≠ 2 ^ (nexp + 1) + 1 →
          let str (x : Nat) : List Nat := if x < 2 ^ (nexp + 1) then [x] else (d.table.lookup x).getD []
          let added (s : List Nat) : Except DecodeError (List Nat) :=
            if d.next < 4096 then goOn ((d.next, str p ++ s.take 1) :: d.table) (d.next + 1) s else goOn d.table d.next s
          (c < 2 ^ (nexp + 1) ∨ c < d.next → read = added (str c)) ∧
          (2 ^ (nexp + 1) < c → c = d.next → d.next < 4096 → read = added (str p ++ (str p).take 1)) ∧
          (2 ^ (nexp + 1) < c → (d.next < c ∨ c = d.next ∧ 4096 ≤ d.next) → read = .error (.decodeCode, ord))

/-- The encoder cuts the stream into the longest strings it knows (44_lzw_encoder.md R203 to R206). The indices are the parts
joined, none empty. When data code j is emitted the known strings are the single indices and, as code N+2+i for each i < j
below 4096, part i with the first index of part i+1; part j and its beginnings are known, part j with the first index of
part j+1 is not. The codes are the Clear-Code at width b, the code of each part, End-of-Information; the width of data code j
is the bit length of N+1+j, at most 12, and that of End-of-Information the one a further data code would have, since the
width test is made after the last data code too (R205, R211 c). -/
def Obligations.EncoderEmitsLongestKnownStrings : Prop :=
  ∀ (nexp : Nat) (indices : List Nat), nexp ≤ 7 → indices ≠ [] → (∀ i ∈ indices, i < 2 ^ (nexp + 1)) →
    ∃ (m : Nat) (part : Nat → List Nat) (code : Nat → Nat),
      let entry (i : Nat) : List Nat := part i ++ (part (i + 1)).take 1
      let known (j : Nat) (str : List Nat) (c : Nat) : Prop :=
        (c < 2 ^ (nexp + 1) ∧ str = [c]) ∨
          ∃ i < j, c = 2 ^ (nexp + 1) + 2 + i ∧ c < 4096 ∧ str = entry i
      let width (j : Nat) : Nat := min 12 (Nat.log2 (2 ^ (nexp + 1) + 1 + j) + 1)
      1 ≤ m ∧ (List.range m).flatMap part = indices ∧
      (∀ j < m, part j ≠ [] ∧ known j (part j) (code j) ∧
        ∀ n, 1 ≤ n → n ≤ (part j).length → ∃ c, known j ((part j).take n) c) ∧
      (∀ j, j + 1 < m → ∀ c, ¬known j (entry j) c) ∧
      encodeCodes nexp indices =
        (2 ^ (nexp + 1), nexp + 2) :: ((List.range m).map fun j => (code j, width j)) ++ [(2 ^ (nexp + 1) + 1, width m)]

/-! ## Host programs and host software with the block -/

/-- `WAIT` reads STATUS until BUSY = 0 (30_encoding.md R99): `waitScript` is such a list of inputs from every state, however
many reads find BUSY = 1, and after any such list no command is in flight and the last read was STATUS with BUSY = 0. -/
def Obligations.WaitReadsStatusUntilIdle : Prop :=
  ∀ s : State, (∀ polls : Nat, waits (waitScript s.busy polls) s = true) ∧
    ∀ script : List Input, waits script s = true → ∃ t, deliverAll script s = .next t ∧ t.busy = false ∧
      t.reply = .word t.statusWord ∧ t.statusWord.getLsbD 0 = false ∧ t.inputs = s.inputs

/-- `resize` in Bilinear and Bicubic mode with the block (46_host_software.md R317, R304, R310): from a state with BUSY = 0 and
ERR = 0, for a valid image and a new size without a 0, with regions that fit and do not share a byte, the program completes and
the destination is adopted as a valid image of the new size and the same channels, every byte the floor of the exact blend
(42_scalers.md R150) or the exact value rounded and clamped (R160), however long the host waited. -/
def Obligations.ResizeOnBlockGivesTheImage : Prop :=
  ∀ (mode : ScaleMode) (img : PixelImage) (s : State) (src dst newW newH : Word) (polls : Nat)
    (uncovered : Except HostError PixelImage),
    let c := channelCount img.channels
    let n := img.width * img.height * c
    let m := newW.toNat * newH.toNat * c
    let sample : Sampler := fun x y k => (img.byteAt (img.offset x y k)).toNat
    img.valid → img.width ≠ 0 → img.height ≠ 0 → newW ≠ 0#32 → newH ≠ 0#32 → s.busy = false → s.err = false →
    src.toNat + n ≤ s.memSize → dst.toNat + m ≤ s.memSize →
    (src.toNat + n ≤ dst.toNat ∨ dst.toNat + m ≤ src.toNat) →
    ∃ out : PixelImage, img.resizeOnBlock mode src dst newW newH polls uncovered s = .next (.ok out) ∧ out.valid ∧
      out.width = newW.toNat ∧ out.height = newH.toNat ∧ out.channels = img.channels ∧
      ∀ dx < out.width, ∀ dy < out.height, ∀ k < c,
        ((out.byteAt (out.offset dx dy k)).toNat : ℤ) =
          match mode with
          | .bilinear => ⌊bilinearExact sample img.width img.height newW.toNat newH.toNat dx dy k⌋
          | .bicubic =>
            max 0 (min 255 ⌊bicubicExact sample img.width img.height newW.toNat newH.toNat dx dy k + 1 / 2⌋)

/-- Decoding an encoded GIF gives the image back (46_host_software.md R339; the document asks it of four colours): for an image
of three channels with at most 256 colours, at least one pixel and sizes that two bytes hold, whatever the version, GCT_ORDER,
GCT_PAD and the other open fields, if encoder and decoder take the same MCS_BYTE. That the canvas has the size of the image is
the model's choice (log entry 18). -/
def Obligations.GifRoundTrip : Prop :=
  ∀ (f : GifOpenFields) (policy : GctPolicy) (img : PixelImage) (u : Except HostError (List Byte))
    (u' : Except HostError PixelImage),
    f.localTable = false → img.filled → img.channels = .three → 1 ≤ img.width → img.width < 2 ^ 16 → 1 ≤ img.height →
    img.height < 2 ^ 16 → img.colours.length ≤ 256 →
    ∃ file, encodeGif f policy u img = .ok file ∧ decodeGif f.mcs u' file = .ok img
end

