-- ==== Sys2Proof/Laws/Memory.lean ====
section
/-! SUPPORT. The laws of MEM: what a read gives after a write, and that every memory operation keeps the canonical form. -/

namespace Sys2Proof.Machine

/-! ## One byte -/

@[simp] theorem Memory.read_nil (a : Nat) : Memory.read [] a = Config.unlistedByte := rfl

theorem Memory.read_cons (b : Nat) (v : Byte) (rest : Memory) (a : Nat) :
    Memory.read ((b, v) :: rest) a = if a = b then v else Memory.read rest a := rfl

theorem Memory.read_erase (m : Memory) (a b : Nat) :
    (m.erase a).read b = if b = a then Config.unlistedByte else m.read b := by
  induction m with
  | nil => simp [Memory.erase]
  | cons cell rest ih =>
    obtain ⟨c, u⟩ := cell
    by_cases hc : c = a <;> by_cases hb : b = c <;>
      simp_all [Memory.erase, Memory.read_cons]

theorem Memory.read_insert (m : Memory) (a b : Nat) (v : Byte) (h : ∀ cell ∈ m, cell.1 ≠ a) :
    (m.insert a v).read b = if b = a then v else m.read b := by
  induction m with
  | nil => simp [Memory.insert, Memory.read_cons]
  | cons cell rest ih =>
    obtain ⟨c, u⟩ := cell
    have hc : c ≠ a := h (c, u) (by simp)
    have ih := ih fun cell hm => h cell (by simp [hm])
    unfold Memory.insert
    split
    · simp [Memory.read_cons]
    · rw [Memory.read_cons, ih, Memory.read_cons]
      by_cases hb : b = c
      · subst hb; simp [hc]
      · simp [hb]

theorem Memory.mem_erase_ne (m : Memory) (a : Nat) : ∀ cell ∈ m.erase a, cell.1 ≠ a := by
  intro cell hm
  simpa using (List.mem_filter.mp hm).2

/-- A read after a write gives the byte written at its address and is unchanged elsewhere. -/
theorem Memory.read_write (m : Memory) (a b : Nat) (v : Byte) :
    (m.write a v).read b = if b = a then v else m.read b := by
  unfold Memory.write
  split
  · next h => rw [Memory.read_erase, h]
  · rw [Memory.read_insert _ _ _ _ (m.mem_erase_ne a), Memory.read_erase]
    split <;> rfl

@[simp] theorem Memory.read_write_same (m : Memory) (a : Nat) (v : Byte) : (m.write a v).read a = v := by
  simp [Memory.read_write]

theorem Memory.read_write_other (m : Memory) {a b : Nat} (v : Byte) (h : b ≠ a) :
    (m.write a v).read b = m.read b := by simp [Memory.read_write, h]

/-! ## The canonical form -/

@[simp] theorem Memory.wf_nil : Memory.wf [] := by simp [Memory.wf]

theorem Memory.wf_erase {m : Memory} (a : Nat) (h : m.wf) : (m.erase a).wf :=
  ⟨h.1.filter _, fun cell hm => h.2 cell (List.mem_of_mem_filter hm)⟩

theorem Memory.mem_insert {m : Memory} {a : Nat} {v : Byte} {cell : Host.Cell} :
    cell ∈ m.insert a v ↔ cell = (a, v) ∨ cell ∈ m := by
  induction m with
  | nil => simp [Memory.insert]
  | cons c rest ih =>
    obtain ⟨b, u⟩ := c
    unfold Memory.insert
    split
    · simp
    · simp only [List.mem_cons, ih]
      tauto

theorem Memory.wf_insert {m : Memory} {a : Nat} {v : Byte} (h : m.wf) (ha : ∀ cell ∈ m, cell.1 ≠ a)
    (hv : v ≠ Config.unlistedByte) : (m.insert a v).wf := by
  refine ⟨?_, fun cell hm => ?_⟩
  · obtain ⟨hp, -⟩ := h
    induction m with
    | nil => simp [Memory.insert]
    | cons c rest ih =>
      obtain ⟨b, u⟩ := c
      rw [List.pairwise_cons] at hp
      have hb : b ≠ a := ha (b, u) (by simp)
      unfold Memory.insert
      split
      · next hlt =>
        refine List.pairwise_cons.mpr ⟨fun x hx => ?_, List.pairwise_cons.mpr hp⟩
        rcases List.mem_cons.mp hx with rfl | hx
        · exact hlt
        · exact lt_trans hlt (hp.1 x hx)
      · next hge =>
        refine List.pairwise_cons.mpr ⟨fun x hx => ?_, ih (fun cell hm => ha cell (by simp [hm])) hp.2⟩
        rcases Memory.mem_insert.mp hx with rfl | hx
        · show b < a; omega
        · exact hp.1 x hx
  · rcases Memory.mem_insert.mp hm with rfl | hm
    · exact hv
    · exact h.2 cell hm

/-- A write keeps the canonical form. -/
theorem Memory.wf_write {m : Memory} (a : Nat) (v : Byte) (h : m.wf) : (m.write a v).wf := by
  unfold Memory.write
  split
  · exact Memory.wf_erase a h
  · next hv => exact Memory.wf_insert (Memory.wf_erase a h) (m.mem_erase_ne a) hv

theorem Memory.mem_of_mem_write {m : Memory} {a : Nat} {v : Byte} {cell : Host.Cell} (h : cell ∈ m.write a v) :
    cell.1 = a ∨ cell ∈ m := by
  unfold Memory.write at h
  split at h
  · exact .inr (List.mem_of_mem_filter h)
  · rcases Memory.mem_insert.mp h with rfl | h
    · exact .inl rfl
    · exact .inr (List.mem_of_mem_filter h)

/-! ## Strings of bytes -/

@[simp] theorem Memory.length_readBytes (m : Memory) (addr n : Nat) : (m.readBytes addr n).length = n := by
  simp [Memory.readBytes]

@[simp] theorem Memory.getElem_readBytes (m : Memory) (addr n i : Nat) (h : i < (m.readBytes addr n).length) :
    (m.readBytes addr n)[i] = m.read (addr + i) := by
  simp [Memory.readBytes]

/-- What a read gives after a string of bytes is written. -/
theorem Memory.read_writeBytes (bytes : List Byte) : ∀ (m : Memory) (addr a : Nat),
    (m.writeBytes addr bytes).read a =
      if h : addr ≤ a ∧ a - addr < bytes.length then bytes[a - addr]'h.2 else m.read a := by
  induction bytes with
  | nil => intro m addr a; simp [Memory.writeBytes]
  | cons v rest ih =>
    intro m addr a
    rw [Memory.writeBytes, ih, Memory.read_write]
    by_cases h0 : a = addr
    · subst h0; simp
    · by_cases h1 : addr + 1 ≤ a
      · have hs : a - addr = (a - (addr + 1)) + 1 := by omega
        by_cases h2 : a - (addr + 1) < rest.length
        · rw [dif_pos ⟨h1, h2⟩, dif_pos ⟨by omega, by rw [List.length_cons]; omega⟩]
          simp [hs]
        · rw [dif_neg (by omega), if_neg h0, dif_neg (by rw [List.length_cons]; omega)]
      · rw [dif_neg (by omega), if_neg h0, dif_neg (by omega)]

theorem Memory.read_writeBytes_inside {m : Memory} {addr i : Nat} {bytes : List Byte} (h : i < bytes.length) :
    (m.writeBytes addr bytes).read (addr + i) = bytes[i] := by
  rw [Memory.read_writeBytes, dif_pos ⟨by omega, by omega⟩]
  simp

theorem Memory.read_writeBytes_outside {m : Memory} {addr a : Nat} {bytes : List Byte}
    (h : a < addr ∨ addr + bytes.length ≤ a) : (m.writeBytes addr bytes).read a = m.read a := by
  rw [Memory.read_writeBytes, dif_neg (by omega)]

/-- A write of a string of bytes keeps the canonical form. -/
theorem Memory.wf_writeBytes (bytes : List Byte) : ∀ {m : Memory} (addr : Nat), m.wf → (m.writeBytes addr bytes).wf := by
  induction bytes with
  | nil => intro m addr h; exact h
  | cons v rest ih => intro m addr h; exact ih (addr + 1) (Memory.wf_write addr v h)

theorem Memory.mem_of_mem_writeBytes (bytes : List Byte) : ∀ {m : Memory} {addr : Nat} {cell : Host.Cell},
    cell ∈ m.writeBytes addr bytes → (addr ≤ cell.1 ∧ cell.1 < addr + bytes.length) ∨ cell ∈ m := by
  induction bytes with
  | nil => intro m addr cell h; exact .inr h
  | cons v rest ih =>
    intro m addr cell h
    rcases ih h with h | h
    · exact .inl ⟨by omega, by rw [List.length_cons]; omega⟩
    · rcases Memory.mem_of_mem_write h with h | h
      · exact .inl ⟨by omega, by rw [List.length_cons]; omega⟩
      · exact .inr h

/-! ## Cells -/

theorem Memory.wf_ofCells (size : Nat) (cells : List Host.Cell) : (Memory.ofCells size cells).wf := by
  induction cells with
  | nil => exact Memory.wf_nil
  | cons c rest ih =>
    obtain ⟨a, v⟩ := c
    simp only [Memory.ofCells]
    split
    · exact Memory.wf_write a v ih
    · exact ih

theorem Memory.ofCells_inside (size : Nat) (cells : List Host.Cell) :
    ∀ cell ∈ Memory.ofCells size cells, cell.1 < size := by
  induction cells with
  | nil => simp [Memory.ofCells]
  | cons c rest ih =>
    obtain ⟨a, v⟩ := c
    simp only [Memory.ofCells]
    split
    · next ha =>
      intro cell hm
      rcases Memory.mem_of_mem_write hm with h | h
      · omega
      · exact ih cell h
    · exact ih

/-- Memories in canonical form that read the same are the same. -/
theorem Memory.ext_of_wf : ∀ {m n : Memory}, m.wf → n.wf → (∀ a, m.read a = n.read a) → m = n
  | [], [], _, _, _ => rfl
  | [], (b, u) :: rest, _, hn, h => by
    have := h b
    simp only [Memory.read_nil, Memory.read_cons, if_true] at this
    exact absurd this.symm (hn.2 (b, u) (by simp))
  | (b, u) :: rest, [], hm, _, h => by
    have := h b
    simp only [Memory.read_nil, Memory.read_cons, if_true] at this
    exact absurd this (hm.2 (b, u) (by simp))
  | (b, u) :: rest, (c, v) :: rest', hm, hn, h => by
    have unlisted : ∀ {l : Memory} {x : Nat}, (∀ cell ∈ l, x < cell.1) → l.read x = Config.unlistedByte := by
      intro l x hx
      induction l with
      | nil => rfl
      | cons d t ih =>
        have := hx d (by simp)
        rw [show d :: t = (d.1, d.2) :: t from rfl, Memory.read_cons, if_neg (by omega)]
        exact ih fun cell hm => hx cell (by simp [hm])
    have hmp := List.pairwise_cons.mp hm.1
    have hnp := List.pairwise_cons.mp hn.1
    have hu : u ≠ Config.unlistedByte := hm.2 (b, u) (by simp)
    have hv : v ≠ Config.unlistedByte := hn.2 (c, v) (by simp)
    have hbc : b = c := by
      rcases lt_trichotomy b c with hlt | heq | hgt
      · have := h b
        rw [Memory.read_cons, if_pos rfl, Memory.read_cons, if_neg (by omega),
          unlisted fun cell hm => lt_trans hlt (hnp.1 cell hm)] at this
        exact absurd this hu
      · exact heq
      · have := h c
        rw [Memory.read_cons, if_neg (by omega), Memory.read_cons, if_pos rfl,
          unlisted fun cell hx => lt_trans hgt (hmp.1 cell hx)] at this
        exact absurd this.symm hv
    subst hbc
    have huv : u = v := by simpa [Memory.read_cons] using h b
    subst huv
    congr 1
    refine Memory.ext_of_wf ⟨hmp.2, fun cell hx => hm.2 cell (by simp [hx])⟩
      ⟨hnp.2, fun cell hx => hn.2 cell (by simp [hx])⟩ fun a => ?_
    by_cases hab : a = b
    · subst hab
      rw [unlisted fun cell hx => hmp.1 cell hx, unlisted fun cell hx => hnp.1 cell hx]
    · have := h a
      rwa [Memory.read_cons, if_neg hab, Memory.read_cons, if_neg hab] at this

end Sys2Proof.Machine
end

