-- ==== Sys2Proof/Laws/State.lean ====
section
/-! SUPPORT. One lemma per field per update of State, so that no proof unfolds a record update. -/

namespace Sys2Proof.Machine

/-! ## `State.accept` -/

@[simp] theorem State.accept_cmd (s : State) (v : Word) : (s.accept v).cmd = v := rfl
@[simp] theorem State.accept_busy (s : State) (v : Word) : (s.accept v).busy = true := rfl
@[simp] theorem State.accept_done (s : State) (v : Word) : (s.accept v).done = false := rfl
@[simp] theorem State.accept_err (s : State) (v : Word) : (s.accept v).err = s.err := rfl
@[simp] theorem State.accept_errCode (s : State) (v : Word) : (s.accept v).errCode = s.errCode := rfl
@[simp] theorem State.accept_ie (s : State) (v : Word) : (s.accept v).ie = s.ie := rfl
@[simp] theorem State.accept_srcAddr (s : State) (v : Word) : (s.accept v).srcAddr = s.srcAddr := rfl
@[simp] theorem State.accept_srcLen (s : State) (v : Word) : (s.accept v).srcLen = s.srcLen := rfl
@[simp] theorem State.accept_dstAddr (s : State) (v : Word) : (s.accept v).dstAddr = s.dstAddr := rfl
@[simp] theorem State.accept_dstCap (s : State) (v : Word) : (s.accept v).dstCap = s.dstCap := rfl
@[simp] theorem State.accept_srcW (s : State) (v : Word) : (s.accept v).srcW = s.srcW := rfl
@[simp] theorem State.accept_srcH (s : State) (v : Word) : (s.accept v).srcH = s.srcH := rfl
@[simp] theorem State.accept_dstW (s : State) (v : Word) : (s.accept v).dstW = s.dstW := rfl
@[simp] theorem State.accept_dstH (s : State) (v : Word) : (s.accept v).dstH = s.dstH := rfl
@[simp] theorem State.accept_resultLen (s : State) (v : Word) : (s.accept v).resultLen = 0#32 := rfl
@[simp] theorem State.accept_resultAux (s : State) (v : Word) : (s.accept v).resultAux = 0#32 := rfl
@[simp] theorem State.accept_errInfo (s : State) (v : Word) : (s.accept v).errInfo = s.errInfo := rfl
@[simp] theorem State.accept_memSize (s : State) (v : Word) : (s.accept v).memSize = s.memSize := rfl
@[simp] theorem State.accept_mem (s : State) (v : Word) : (s.accept v).mem = s.mem := rfl
@[simp] theorem State.accept_inputs (s : State) (v : Word) : (s.accept v).inputs = s.inputs := rfl
@[simp] theorem State.accept_reply (s : State) (v : Word) : (s.accept v).reply = s.reply := rfl

/-! ## `State.takeError` -/

@[simp] theorem State.takeError_cmd (s : State) (code : ErrCode) (info : Nat) : (s.takeError code info).cmd = s.cmd := rfl
@[simp] theorem State.takeError_busy (s : State) (code : ErrCode) (info : Nat) : (s.takeError code info).busy = false := rfl
@[simp] theorem State.takeError_done (s : State) (code : ErrCode) (info : Nat) : (s.takeError code info).done = true := rfl
@[simp] theorem State.takeError_err (s : State) (code : ErrCode) (info : Nat) : (s.takeError code info).err = true := rfl
@[simp] theorem State.takeError_errCode (s : State) (code : ErrCode) (info : Nat) : (s.takeError code info).errCode = code.code := rfl
@[simp] theorem State.takeError_ie (s : State) (code : ErrCode) (info : Nat) : (s.takeError code info).ie = s.ie := rfl
@[simp] theorem State.takeError_srcAddr (s : State) (code : ErrCode) (info : Nat) : (s.takeError code info).srcAddr = s.srcAddr := rfl
@[simp] theorem State.takeError_srcLen (s : State) (code : ErrCode) (info : Nat) : (s.takeError code info).srcLen = s.srcLen := rfl
@[simp] theorem State.takeError_dstAddr (s : State) (code : ErrCode) (info : Nat) : (s.takeError code info).dstAddr = s.dstAddr := rfl
@[simp] theorem State.takeError_dstCap (s : State) (code : ErrCode) (info : Nat) : (s.takeError code info).dstCap = s.dstCap := rfl
@[simp] theorem State.takeError_srcW (s : State) (code : ErrCode) (info : Nat) : (s.takeError code info).srcW = s.srcW := rfl
@[simp] theorem State.takeError_srcH (s : State) (code : ErrCode) (info : Nat) : (s.takeError code info).srcH = s.srcH := rfl
@[simp] theorem State.takeError_dstW (s : State) (code : ErrCode) (info : Nat) : (s.takeError code info).dstW = s.dstW := rfl
@[simp] theorem State.takeError_dstH (s : State) (code : ErrCode) (info : Nat) : (s.takeError code info).dstH = s.dstH := rfl
@[simp] theorem State.takeError_resultLen (s : State) (code : ErrCode) (info : Nat) : (s.takeError code info).resultLen = s.resultLen := rfl
@[simp] theorem State.takeError_resultAux (s : State) (code : ErrCode) (info : Nat) : (s.takeError code info).resultAux = s.resultAux := rfl
@[simp] theorem State.takeError_errInfo (s : State) (code : ErrCode) (info : Nat) : (s.takeError code info).errInfo = registerValue info := rfl
@[simp] theorem State.takeError_memSize (s : State) (code : ErrCode) (info : Nat) : (s.takeError code info).memSize = s.memSize := rfl
@[simp] theorem State.takeError_mem (s : State) (code : ErrCode) (info : Nat) : (s.takeError code info).mem = s.mem := rfl
@[simp] theorem State.takeError_inputs (s : State) (code : ErrCode) (info : Nat) : (s.takeError code info).inputs = s.inputs := rfl
@[simp] theorem State.takeError_reply (s : State) (code : ErrCode) (info : Nat) : (s.takeError code info).reply = s.reply := rfl

/-! ## `State.clearErr` -/

@[simp] theorem State.clearErr_cmd (s : State) : (s.clearErr).cmd = s.cmd := rfl
@[simp] theorem State.clearErr_busy (s : State) : (s.clearErr).busy = s.busy := rfl
@[simp] theorem State.clearErr_done (s : State) : (s.clearErr).done = s.done := rfl
@[simp] theorem State.clearErr_err (s : State) : (s.clearErr).err = false := rfl
@[simp] theorem State.clearErr_errCode (s : State) : (s.clearErr).errCode = 0#4 := rfl
@[simp] theorem State.clearErr_ie (s : State) : (s.clearErr).ie = s.ie := rfl
@[simp] theorem State.clearErr_srcAddr (s : State) : (s.clearErr).srcAddr = s.srcAddr := rfl
@[simp] theorem State.clearErr_srcLen (s : State) : (s.clearErr).srcLen = s.srcLen := rfl
@[simp] theorem State.clearErr_dstAddr (s : State) : (s.clearErr).dstAddr = s.dstAddr := rfl
@[simp] theorem State.clearErr_dstCap (s : State) : (s.clearErr).dstCap = s.dstCap := rfl
@[simp] theorem State.clearErr_srcW (s : State) : (s.clearErr).srcW = s.srcW := rfl
@[simp] theorem State.clearErr_srcH (s : State) : (s.clearErr).srcH = s.srcH := rfl
@[simp] theorem State.clearErr_dstW (s : State) : (s.clearErr).dstW = s.dstW := rfl
@[simp] theorem State.clearErr_dstH (s : State) : (s.clearErr).dstH = s.dstH := rfl
@[simp] theorem State.clearErr_resultLen (s : State) : (s.clearErr).resultLen = s.resultLen := rfl
@[simp] theorem State.clearErr_resultAux (s : State) : (s.clearErr).resultAux = s.resultAux := rfl
@[simp] theorem State.clearErr_errInfo (s : State) : (s.clearErr).errInfo = 0#32 := rfl
@[simp] theorem State.clearErr_memSize (s : State) : (s.clearErr).memSize = s.memSize := rfl
@[simp] theorem State.clearErr_mem (s : State) : (s.clearErr).mem = s.mem := rfl
@[simp] theorem State.clearErr_inputs (s : State) : (s.clearErr).inputs = s.inputs := rfl
@[simp] theorem State.clearErr_reply (s : State) : (s.clearErr).reply = s.reply := rfl

/-! ## `State.clearDone` -/

@[simp] theorem State.clearDone_cmd (s : State) : (s.clearDone).cmd = s.cmd := rfl
@[simp] theorem State.clearDone_busy (s : State) : (s.clearDone).busy = s.busy := rfl
@[simp] theorem State.clearDone_done (s : State) : (s.clearDone).done = false := rfl
@[simp] theorem State.clearDone_err (s : State) : (s.clearDone).err = s.err := rfl
@[simp] theorem State.clearDone_errCode (s : State) : (s.clearDone).errCode = s.errCode := rfl
@[simp] theorem State.clearDone_ie (s : State) : (s.clearDone).ie = s.ie := rfl
@[simp] theorem State.clearDone_srcAddr (s : State) : (s.clearDone).srcAddr = s.srcAddr := rfl
@[simp] theorem State.clearDone_srcLen (s : State) : (s.clearDone).srcLen = s.srcLen := rfl
@[simp] theorem State.clearDone_dstAddr (s : State) : (s.clearDone).dstAddr = s.dstAddr := rfl
@[simp] theorem State.clearDone_dstCap (s : State) : (s.clearDone).dstCap = s.dstCap := rfl
@[simp] theorem State.clearDone_srcW (s : State) : (s.clearDone).srcW = s.srcW := rfl
@[simp] theorem State.clearDone_srcH (s : State) : (s.clearDone).srcH = s.srcH := rfl
@[simp] theorem State.clearDone_dstW (s : State) : (s.clearDone).dstW = s.dstW := rfl
@[simp] theorem State.clearDone_dstH (s : State) : (s.clearDone).dstH = s.dstH := rfl
@[simp] theorem State.clearDone_resultLen (s : State) : (s.clearDone).resultLen = s.resultLen := rfl
@[simp] theorem State.clearDone_resultAux (s : State) : (s.clearDone).resultAux = s.resultAux := rfl
@[simp] theorem State.clearDone_errInfo (s : State) : (s.clearDone).errInfo = s.errInfo := rfl
@[simp] theorem State.clearDone_memSize (s : State) : (s.clearDone).memSize = s.memSize := rfl
@[simp] theorem State.clearDone_mem (s : State) : (s.clearDone).mem = s.mem := rfl
@[simp] theorem State.clearDone_inputs (s : State) : (s.clearDone).inputs = s.inputs := rfl
@[simp] theorem State.clearDone_reply (s : State) : (s.clearDone).reply = s.reply := rfl

/-! ## `State.finish` -/

@[simp] theorem State.finish_cmd (s : State) (dst : List Byte) (len aux : Nat) : (s.finish dst len aux).cmd = s.cmd := rfl
@[simp] theorem State.finish_busy (s : State) (dst : List Byte) (len aux : Nat) : (s.finish dst len aux).busy = false := rfl
@[simp] theorem State.finish_done (s : State) (dst : List Byte) (len aux : Nat) : (s.finish dst len aux).done = true := rfl
@[simp] theorem State.finish_err (s : State) (dst : List Byte) (len aux : Nat) : (s.finish dst len aux).err = s.err := rfl
@[simp] theorem State.finish_errCode (s : State) (dst : List Byte) (len aux : Nat) : (s.finish dst len aux).errCode = s.errCode := rfl
@[simp] theorem State.finish_ie (s : State) (dst : List Byte) (len aux : Nat) : (s.finish dst len aux).ie = s.ie := rfl
@[simp] theorem State.finish_srcAddr (s : State) (dst : List Byte) (len aux : Nat) : (s.finish dst len aux).srcAddr = s.srcAddr := rfl
@[simp] theorem State.finish_srcLen (s : State) (dst : List Byte) (len aux : Nat) : (s.finish dst len aux).srcLen = s.srcLen := rfl
@[simp] theorem State.finish_dstAddr (s : State) (dst : List Byte) (len aux : Nat) : (s.finish dst len aux).dstAddr = s.dstAddr := rfl
@[simp] theorem State.finish_dstCap (s : State) (dst : List Byte) (len aux : Nat) : (s.finish dst len aux).dstCap = s.dstCap := rfl
@[simp] theorem State.finish_srcW (s : State) (dst : List Byte) (len aux : Nat) : (s.finish dst len aux).srcW = s.srcW := rfl
@[simp] theorem State.finish_srcH (s : State) (dst : List Byte) (len aux : Nat) : (s.finish dst len aux).srcH = s.srcH := rfl
@[simp] theorem State.finish_dstW (s : State) (dst : List Byte) (len aux : Nat) : (s.finish dst len aux).dstW = s.dstW := rfl
@[simp] theorem State.finish_dstH (s : State) (dst : List Byte) (len aux : Nat) : (s.finish dst len aux).dstH = s.dstH := rfl
@[simp] theorem State.finish_resultLen (s : State) (dst : List Byte) (len aux : Nat) : (s.finish dst len aux).resultLen = registerValue len := rfl
@[simp] theorem State.finish_resultAux (s : State) (dst : List Byte) (len aux : Nat) : (s.finish dst len aux).resultAux = registerValue aux := rfl
@[simp] theorem State.finish_errInfo (s : State) (dst : List Byte) (len aux : Nat) : (s.finish dst len aux).errInfo = s.errInfo := rfl
@[simp] theorem State.finish_memSize (s : State) (dst : List Byte) (len aux : Nat) : (s.finish dst len aux).memSize = s.memSize := rfl
@[simp] theorem State.finish_mem (s : State) (dst : List Byte) (len aux : Nat) : (s.finish dst len aux).mem = s.mem.writeBytes s.dstAddr.toNat dst := rfl
@[simp] theorem State.finish_inputs (s : State) (dst : List Byte) (len aux : Nat) : (s.finish dst len aux).inputs = s.inputs := rfl
@[simp] theorem State.finish_reply (s : State) (dst : List Byte) (len aux : Nat) : (s.finish dst len aux).reply = s.reply := rfl

/-! ## `State.answer` -/

@[simp] theorem State.answer_cmd (s : State) (r : Reply) : (s.answer r).cmd = s.cmd := rfl
@[simp] theorem State.answer_busy (s : State) (r : Reply) : (s.answer r).busy = s.busy := rfl
@[simp] theorem State.answer_done (s : State) (r : Reply) : (s.answer r).done = s.done := rfl
@[simp] theorem State.answer_err (s : State) (r : Reply) : (s.answer r).err = s.err := rfl
@[simp] theorem State.answer_errCode (s : State) (r : Reply) : (s.answer r).errCode = s.errCode := rfl
@[simp] theorem State.answer_ie (s : State) (r : Reply) : (s.answer r).ie = s.ie := rfl
@[simp] theorem State.answer_srcAddr (s : State) (r : Reply) : (s.answer r).srcAddr = s.srcAddr := rfl
@[simp] theorem State.answer_srcLen (s : State) (r : Reply) : (s.answer r).srcLen = s.srcLen := rfl
@[simp] theorem State.answer_dstAddr (s : State) (r : Reply) : (s.answer r).dstAddr = s.dstAddr := rfl
@[simp] theorem State.answer_dstCap (s : State) (r : Reply) : (s.answer r).dstCap = s.dstCap := rfl
@[simp] theorem State.answer_srcW (s : State) (r : Reply) : (s.answer r).srcW = s.srcW := rfl
@[simp] theorem State.answer_srcH (s : State) (r : Reply) : (s.answer r).srcH = s.srcH := rfl
@[simp] theorem State.answer_dstW (s : State) (r : Reply) : (s.answer r).dstW = s.dstW := rfl
@[simp] theorem State.answer_dstH (s : State) (r : Reply) : (s.answer r).dstH = s.dstH := rfl
@[simp] theorem State.answer_resultLen (s : State) (r : Reply) : (s.answer r).resultLen = s.resultLen := rfl
@[simp] theorem State.answer_resultAux (s : State) (r : Reply) : (s.answer r).resultAux = s.resultAux := rfl
@[simp] theorem State.answer_errInfo (s : State) (r : Reply) : (s.answer r).errInfo = s.errInfo := rfl
@[simp] theorem State.answer_memSize (s : State) (r : Reply) : (s.answer r).memSize = s.memSize := rfl
@[simp] theorem State.answer_mem (s : State) (r : Reply) : (s.answer r).mem = s.mem := rfl
@[simp] theorem State.answer_inputs (s : State) (r : Reply) : (s.answer r).inputs = s.inputs := rfl
@[simp] theorem State.answer_reply (s : State) (r : Reply) : (s.answer r).reply = r := rfl

/-! ## `State.store` -/

@[simp] theorem State.store_cmd (s : State) (addr : Nat) (bytes : List Byte) : (s.store addr bytes).cmd = s.cmd := rfl
@[simp] theorem State.store_busy (s : State) (addr : Nat) (bytes : List Byte) : (s.store addr bytes).busy = s.busy := rfl
@[simp] theorem State.store_done (s : State) (addr : Nat) (bytes : List Byte) : (s.store addr bytes).done = s.done := rfl
@[simp] theorem State.store_err (s : State) (addr : Nat) (bytes : List Byte) : (s.store addr bytes).err = s.err := rfl
@[simp] theorem State.store_errCode (s : State) (addr : Nat) (bytes : List Byte) : (s.store addr bytes).errCode = s.errCode := rfl
@[simp] theorem State.store_ie (s : State) (addr : Nat) (bytes : List Byte) : (s.store addr bytes).ie = s.ie := rfl
@[simp] theorem State.store_srcAddr (s : State) (addr : Nat) (bytes : List Byte) : (s.store addr bytes).srcAddr = s.srcAddr := rfl
@[simp] theorem State.store_srcLen (s : State) (addr : Nat) (bytes : List Byte) : (s.store addr bytes).srcLen = s.srcLen := rfl
@[simp] theorem State.store_dstAddr (s : State) (addr : Nat) (bytes : List Byte) : (s.store addr bytes).dstAddr = s.dstAddr := rfl
@[simp] theorem State.store_dstCap (s : State) (addr : Nat) (bytes : List Byte) : (s.store addr bytes).dstCap = s.dstCap := rfl
@[simp] theorem State.store_srcW (s : State) (addr : Nat) (bytes : List Byte) : (s.store addr bytes).srcW = s.srcW := rfl
@[simp] theorem State.store_srcH (s : State) (addr : Nat) (bytes : List Byte) : (s.store addr bytes).srcH = s.srcH := rfl
@[simp] theorem State.store_dstW (s : State) (addr : Nat) (bytes : List Byte) : (s.store addr bytes).dstW = s.dstW := rfl
@[simp] theorem State.store_dstH (s : State) (addr : Nat) (bytes : List Byte) : (s.store addr bytes).dstH = s.dstH := rfl
@[simp] theorem State.store_resultLen (s : State) (addr : Nat) (bytes : List Byte) : (s.store addr bytes).resultLen = s.resultLen := rfl
@[simp] theorem State.store_resultAux (s : State) (addr : Nat) (bytes : List Byte) : (s.store addr bytes).resultAux = s.resultAux := rfl
@[simp] theorem State.store_errInfo (s : State) (addr : Nat) (bytes : List Byte) : (s.store addr bytes).errInfo = s.errInfo := rfl
@[simp] theorem State.store_memSize (s : State) (addr : Nat) (bytes : List Byte) : (s.store addr bytes).memSize = s.memSize := rfl
@[simp] theorem State.store_mem (s : State) (addr : Nat) (bytes : List Byte) : (s.store addr bytes).mem = s.mem.writeBytes addr bytes := rfl
@[simp] theorem State.store_inputs (s : State) (addr : Nat) (bytes : List Byte) : (s.store addr bytes).inputs = s.inputs := rfl
@[simp] theorem State.store_reply (s : State) (addr : Nat) (bytes : List Byte) : (s.store addr bytes).reply = s.reply := rfl

/-! ## `State.setInputs` -/

@[simp] theorem State.setInputs_cmd (s : State) (q : List Input) : (s.setInputs q).cmd = s.cmd := rfl
@[simp] theorem State.setInputs_busy (s : State) (q : List Input) : (s.setInputs q).busy = s.busy := rfl
@[simp] theorem State.setInputs_done (s : State) (q : List Input) : (s.setInputs q).done = s.done := rfl
@[simp] theorem State.setInputs_err (s : State) (q : List Input) : (s.setInputs q).err = s.err := rfl
@[simp] theorem State.setInputs_errCode (s : State) (q : List Input) : (s.setInputs q).errCode = s.errCode := rfl
@[simp] theorem State.setInputs_ie (s : State) (q : List Input) : (s.setInputs q).ie = s.ie := rfl
@[simp] theorem State.setInputs_srcAddr (s : State) (q : List Input) : (s.setInputs q).srcAddr = s.srcAddr := rfl
@[simp] theorem State.setInputs_srcLen (s : State) (q : List Input) : (s.setInputs q).srcLen = s.srcLen := rfl
@[simp] theorem State.setInputs_dstAddr (s : State) (q : List Input) : (s.setInputs q).dstAddr = s.dstAddr := rfl
@[simp] theorem State.setInputs_dstCap (s : State) (q : List Input) : (s.setInputs q).dstCap = s.dstCap := rfl
@[simp] theorem State.setInputs_srcW (s : State) (q : List Input) : (s.setInputs q).srcW = s.srcW := rfl
@[simp] theorem State.setInputs_srcH (s : State) (q : List Input) : (s.setInputs q).srcH = s.srcH := rfl
@[simp] theorem State.setInputs_dstW (s : State) (q : List Input) : (s.setInputs q).dstW = s.dstW := rfl
@[simp] theorem State.setInputs_dstH (s : State) (q : List Input) : (s.setInputs q).dstH = s.dstH := rfl
@[simp] theorem State.setInputs_resultLen (s : State) (q : List Input) : (s.setInputs q).resultLen = s.resultLen := rfl
@[simp] theorem State.setInputs_resultAux (s : State) (q : List Input) : (s.setInputs q).resultAux = s.resultAux := rfl
@[simp] theorem State.setInputs_errInfo (s : State) (q : List Input) : (s.setInputs q).errInfo = s.errInfo := rfl
@[simp] theorem State.setInputs_memSize (s : State) (q : List Input) : (s.setInputs q).memSize = s.memSize := rfl
@[simp] theorem State.setInputs_mem (s : State) (q : List Input) : (s.setInputs q).mem = s.mem := rfl
@[simp] theorem State.setInputs_inputs (s : State) (q : List Input) : (s.setInputs q).inputs = q := rfl
@[simp] theorem State.setInputs_reply (s : State) (q : List Input) : (s.setInputs q).reply = s.reply := rfl

end Sys2Proof.Machine
end

