-- ==== Sys2Proof/Laws/Ops.lean ====
section
/-! SUPPORT. What each shared operation can do, said once: the checks, the byte strings, the register values, completion,
the host port, one step. -/

namespace Sys2Proof.Machine

/-! ## Regions and checks -/

@[simp] theorem Region.inRange_iff (r : Region) (size : Nat) : r.inRange size = true ↔ r.base + r.len ≤ size := by
  simp [Region.inRange]

@[simp] theorem Region.overlaps_iff (r q : Region) :
    r.overlaps q = true ↔ 0 < r.len ∧ 0 < q.len ∧ r.base < q.base + q.len ∧ q.base < r.base + r.len := by
  simp [Region.overlaps, and_assoc]

/-- Everything `checked` can do: one of the three errors, in their order, or the command's own work. -/
theorem checked_cases (zero : Bool) (size : Nat) (src dst : Region) (work : Unit → CmdResult) :
    (zero = true ∧ checked zero size src dst work = .err .param 0) ∨
    (zero = false ∧ ¬(src.base + src.len ≤ size ∧ dst.base + dst.len ≤ size) ∧
      checked zero size src dst work = .err .range 0) ∨
    (zero = false ∧ src.base + src.len ≤ size ∧ dst.base + dst.len ≤ size ∧ src.overlaps dst = true ∧
      checked zero size src dst work = .err .overlap 0) ∨
    (zero = false ∧ src.base + src.len ≤ size ∧ dst.base + dst.len ≤ size ∧ src.overlaps dst = false ∧
      checked zero size src dst work = work ()) := by
  unfold checked
  by_cases hz : zero = true
  · exact .inl ⟨hz, by simp [hz]⟩
  · simp only [Bool.not_eq_true] at hz
    by_cases hr : src.base + src.len ≤ size ∧ dst.base + dst.len ≤ size
    · obtain ⟨h1, h2⟩ := hr
      have e1 : src.inRange size = true := by simpa using h1
      have e2 : dst.inRange size = true := by simpa using h2
      cases ho : src.overlaps dst
      · exact .inr (.inr (.inr ⟨hz, h1, h2, rfl, by simp [hz, e1, e2]⟩))
      · exact .inr (.inr (.inl ⟨hz, h1, h2, rfl, by simp [hz, e1, e2]⟩))
    · refine .inr (.inl ⟨hz, hr, ?_⟩)
      have : (!src.inRange size || !dst.inRange size) = true := by
        simp [Region.inRange]; omega
      simp [hz, this]

theorem checked_zero {size : Nat} {src dst : Region} {work : Unit → CmdResult} :
    checked true size src dst work = .err .param 0 := rfl

theorem checked_range {size : Nat} {src dst : Region} {work : Unit → CmdResult}
    (h : ¬(src.base + src.len ≤ size ∧ dst.base + dst.len ≤ size)) :
    checked false size src dst work = .err .range 0 := by
  rcases checked_cases false size src dst work with ⟨h', -⟩ | ⟨-, -, e⟩ | ⟨-, h1, h2, -⟩ | ⟨-, h1, h2, -⟩
  · exact absurd h' (by simp)
  · exact e
  · exact absurd ⟨h1, h2⟩ h
  · exact absurd ⟨h1, h2⟩ h

theorem checked_overlap {size : Nat} {src dst : Region} {work : Unit → CmdResult}
    (h1 : src.base + src.len ≤ size) (h2 : dst.base + dst.len ≤ size) (ho : src.overlaps dst = true) :
    checked false size src dst work = .err .overlap 0 := by
  rcases checked_cases false size src dst work with ⟨h', -⟩ | ⟨-, h, -⟩ | ⟨-, -, -, -, e⟩ | ⟨-, -, -, h, -⟩
  · exact absurd h' (by simp)
  · exact absurd ⟨h1, h2⟩ h
  · exact e
  · exact absurd (ho.symm.trans h) (by simp)

theorem checked_pass {size : Nat} {src dst : Region} {work : Unit → CmdResult}
    (h1 : src.base + src.len ≤ size) (h2 : dst.base + dst.len ≤ size) (ho : src.overlaps dst = false) :
    checked false size src dst work = work () := by
  rcases checked_cases false size src dst work with ⟨h', -⟩ | ⟨-, h, -⟩ | ⟨-, -, -, h, -⟩ | ⟨-, -, -, -, e⟩
  · exact absurd h' (by simp)
  · exact absurd ⟨h1, h2⟩ h
  · exact absurd (h.symm.trans ho) (by simp)
  · exact e

/-! ## Byte strings and register values -/

@[simp] theorem length_gather (n : Nat) (f : Nat → Byte) : (gather n f).length = n := by simp [gather]

@[simp] theorem getElem_gather (n : Nat) (f : Nat → Byte) (i : Nat) (h : i < (gather n f).length) :
    (gather n f)[i] = f i := by simp [gather]

theorem registerValue_toNat {n : Nat} (h : n < 2 ^ 32) : (registerValue n).toNat = n := by
  rw [registerValue, if_pos h, BitVec.toNat_ofNat]
  exact Nat.mod_eq_of_lt h

@[simp] theorem registerValue_zero : registerValue 0 = 0#32 := rfl

theorem atOffset_offset (r : Reg) : Reg.atOffset r.offset = some r := by cases r <;> rfl

/-! ## Completion -/

@[simp] theorem State.complete_ok (s : State) (dst : List Byte) (len aux : Nat) :
    s.complete (.ok dst len aux) = s.finish dst len aux := rfl

@[simp] theorem State.complete_err (s : State) (code : ErrCode) (info : Nat) :
    s.complete (.err code info) = s.takeError code info := rfl

/-- No completion changes an operand (10_state.md R42). -/
theorem complete_keepsOperands (s : State) (r : CmdResult) : KeepsOperands s (s.complete r) := by
  cases r <;> constructor <;> rfl

/-- The result of a command's rule. -/
def commandResult : Instr → State → CmdResult
  | .scaleBl c, s => scaleImage bilinearValue (channelCount c) s
  | .scaleBc c, s => scaleImage bicubicValue (channelCount c) s
  | .rowPad c, s => padRows (channelCount c) s
  | .rowUnpad c, s => unpadRows (channelCount c) s
  | .pixToCanon c, s => convertPixels (channelCount c) (channelCount c) s
  | .pixFromCanon c, s => convertPixels (channelCount c) (channelCount c) s
  | .pixFromCanonDa, s => convertPixels 4 3 s
  | .lzwEnc nexp, s => compress nexp s
  | .lzwDec nexp, s => expand nexp s

/-- Every command is one completion with the result of its rule. -/
theorem exec_eq_complete (i : Instr) (s : State) : exec i s = .next (s.complete (commandResult i s)) := by
  cases i <;> rfl

/-! ## One step -/

/-- The block's step, said once: nothing while BUSY = 0, IllegalCmd for an illegal word, else the command. -/
theorem blockStep_cases (s : State) :
    (s.busy = false ∧ blockStep s = .next s) ∨
    (s.busy = true ∧ (∃ e, decode s.cmd = .error e) ∧ blockStep s = .next (s.takeError .illegalCmd 0)) ∨
    (∃ i, s.busy = true ∧ decode s.cmd = .ok i ∧ blockStep s = exec i s) := by
  cases hb : s.busy
  · exact .inl ⟨rfl, by simp [blockStep, hb]⟩
  · cases hd : decode s.cmd with
    | error e => exact .inr (.inl ⟨rfl, ⟨e, rfl⟩, by simp [blockStep, hb, hd]⟩)
    | ok i => exact .inr (.inr ⟨i, rfl, rfl, by simp [blockStep, hb, hd]⟩)

/-- The block's step always gives a next state. -/
theorem blockStep_next (s : State) : ∃ t, blockStep s = .next t := by
  rcases blockStep_cases s with ⟨-, h⟩ | ⟨-, -, h⟩ | ⟨i, -, -, h⟩
  · exact ⟨_, h⟩
  · exact ⟨_, h⟩
  · exact ⟨_, h.trans (exec_eq_complete i s)⟩

/-- Every way a host operation can give a next state. -/
theorem hostStep_next {op : HostOp} {s t : State} (h : hostStep op s = .next t) :
    (∃ w o v, op = .regWrite w o v ∧ registerShapeOk w o = true ∧ t = s.writeOffset o v) ∨
    (∃ w o, op = .regRead w o ∧ registerShapeOk w o = true ∧ t = s.answer (.word (s.readOffset o))) ∨
    (∃ a bs, op = .memStore a bs ∧ s.busy = false ∧ a + bs.length ≤ s.memSize ∧ t = s.store a bs) ∨
    (∃ a n, op = .memLoad a n ∧ s.busy = false ∧ a + n ≤ s.memSize ∧ t = s.answer (.bytes (s.mem.readBytes a n))) := by
  cases op with
  | regWrite w o v =>
    simp only [hostStep] at h
    split at h
    · next hs => cases h; exact .inl ⟨w, o, v, rfl, hs, rfl⟩
    · cases h
  | regRead w o =>
    simp only [hostStep] at h
    split at h
    · next hs => cases h; exact .inr (.inl ⟨w, o, rfl, hs, rfl⟩)
    · cases h
  | memStore a bs =>
    simp only [hostStep, State.memAccess] at h
    split at h
    · cases h
    · split at h
      · cases h
      · next hb hr => cases h; exact .inr (.inr (.inl ⟨a, bs, rfl, by simpa using hb, by omega, rfl⟩))
  | memLoad a n =>
    simp only [hostStep, State.memAccess] at h
    split at h
    · cases h
    · split at h
      · cases h
      · next hb hr => cases h; exact .inr (.inr (.inr ⟨a, n, rfl, by simpa using hb, by omega, rfl⟩))

/-- Every way a register write changes the state. -/
theorem writeOffset_cases (s : State) (o : Nat) (v : Word) :
    s.writeOffset o v = s ∨ ∃ r, s.busy = false ∧ Reg.atOffset o = some r ∧ s.writeOffset o v = s.writeReg r v := by
  unfold State.writeOffset
  split
  · exact .inl rfl
  · next hb =>
    split
    · next r hr => exact .inr ⟨r, by simpa using hb, hr, rfl⟩
    · exact .inl rfl

/-- Every way a step can give a next state. -/
theorem step_next {s t : State} (h : step s = .next t) :
    (s.inputs = [] ∧ blockStep s = .next t) ∨
    (∃ rest, s.inputs = .block :: rest ∧ blockStep (s.setInputs rest) = .next t) ∨
    (∃ op rest, s.inputs = .host op :: rest ∧ hostStep op (s.setInputs rest) = .next t) ∨
    (∃ cells rest, s.inputs = .rst cells :: rest ∧ t = (s.setInputs rest).resetInput cells) := by
  unfold step takeInput at h
  split at h
  · next e => exact .inl ⟨e, h⟩
  · next rest e => exact .inr (.inl ⟨rest, e, h⟩)
  · next op rest e => exact .inr (.inr (.inl ⟨op, rest, e, h⟩))
  · next cells rest e => cases h; exact .inr (.inr (.inr ⟨cells, rest, e, rfl⟩))

end Sys2Proof.Machine
end

