-- ==== Sys2Proof/Laws/Host.lean ====
section
/-! SUPPORT. What running a host program, adopting a destination and decoding with enough fuel can do, said once. -/

namespace Sys2Proof.Machine

/-! ## Running inputs and programs -/

/-- Delivering the block's turn is the block's step. -/
@[simp] theorem deliver_block (s : State) : deliver .block s = blockStep s := rfl

/-- Delivering a host operation is the host's step. -/
@[simp] theorem deliver_host (op : HostOp) (s : State) : deliver (.host op) s = hostStep op s := rfl

/-- Delivering `rst` is the reset input. -/
@[simp] theorem deliver_rst (contents : List Host.Cell) (s : State) :
    deliver (.rst contents) s = .next (s.resetInput contents) := rfl

@[simp] theorem deliverAll_nil (s : State) : deliverAll [] s = .next s := rfl

/-- The first input gives a next state: the rest is delivered to that. -/
theorem deliverAll_cons {i : Input} {s t : State} (h : deliver i s = .next t) (rest : List Input) :
    deliverAll (i :: rest) s = deliverAll rest t := by simp [deliverAll, h]

/-- Inputs in two parts are delivered one part after the other. -/
theorem deliverAll_append {first : List Input} {s t : State} (h : deliverAll first s = .next t) (rest : List Input) :
    deliverAll (first ++ rest) s = deliverAll rest t := by
  induction first generalizing s with
  | nil => simp only [deliverAll_nil, Host.Outcome.next.injEq] at h; simp [h]
  | cons i first ih =>
    simp only [List.cons_append, deliverAll] at h ⊢
    split at h
    · rename_i u hu
      exact ih h
    · cases h
    · cases h

@[simp] theorem runProgram_nil (s : State) : runProgram [] s = .next s := rfl

/-- The first line gives a next state: the rest is run from that. -/
theorem runProgram_cons {line : HostLine} {s t : State} (h : deliverAll (line.inputs s) s = .next t)
    (rest : List HostLine) : runProgram (line :: rest) s = runProgram rest t := by simp [runProgram, h]

/-- A line that is one operation is that operation's delivery. -/
theorem runProgram_op {i : Input} {s t : State} (h : deliver i s = .next t) (rest : List HostLine) :
    runProgram (.op i :: rest) s = runProgram rest t :=
  runProgram_cons (by simp [HostLine.inputs, deliverAll, h]) rest

/-! ## What the host takes after a command -/

/-- After a success the host takes the result. -/
theorem collect_done {α : Type} {s : State} (hd : s.done = true) (he : s.err = false) (uncovered : Except HostError α)
    (take : State → α) : s.collect uncovered take = .ok (take s) := by simp [State.collect, hd, he]

/-- After an error the kind is that of the error recorded. -/
theorem collect_error {α : Type} {s : State} {e : ErrCode} (he : s.err = true) (hc : s.errCode = e.code)
    (uncovered : Except HostError α) (take : State → α) :
    s.collect uncovered take = match e.hostError with | some k => .error k | none => uncovered := by
  have : ErrCode.ofCode e.code = some e := by cases e <;> rfl
  cases h : e.hostError <;> simp [State.collect, he, hc, this, h]

/-- A program that runs to its end gives what the host takes there. -/
theorem runAndCollect_next {α : Type} {program : List HostLine} {s t : State} (h : runProgram program s = .next t)
    (uncovered : Except HostError α) (take : State → α) :
    runAndCollect program uncovered take s = .next (t.collect uncovered take) := by simp [runAndCollect, h]

/-- After a success the destination is the image. -/
theorem adopt_done {s : State} (hd : s.done = true) (he : s.err = false) (channels : Channels)
    (uncovered : Except HostError PixelImage) :
    s.adopt channels uncovered = .ok (s.imageAt (s.destinationImage channels)) := collect_done hd he _ _

/-- After an error the kind is that of the error recorded. -/
theorem adopt_error {s : State} {e : ErrCode} (he : s.err = true) (hc : s.errCode = e.code) (channels : Channels)
    (uncovered : Except HostError PixelImage) :
    s.adopt channels uncovered = match e.hostError with | some k => .error k | none => uncovered :=
  collect_error he hc _ _

/-! ## Fuel of the decoder -/

/-- A data code leaves the width at least 1. -/
theorem Decoder.one_le_width_afterDataCode {d : Decoder} (h : 1 ≤ d.width) (nexp c : Nat) (str : List Nat) :
    1 ≤ (d.afterDataCode nexp c str).width := by
  simp only [Decoder.afterDataCode, Decoder.widen, Decoder.grow]
  split <;> split <;> (try split) <;> simp_all

/-- Fuel beyond the bits left plays no part. -/
theorem decodeLoop_fuel (nexp cap : Nat) (d : Decoder) (bits : List Bool) (out : List Nat) (ord fuel : Nat)
    (hw : 1 ≤ d.width) (hf : bits.length < fuel) :
    decodeLoop nexp cap fuel d bits out ord = decodeFrom nexp cap d bits out ord := by
  suffices H : ∀ (n fuel fuel' : Nat) (d : Decoder) (bits : List Bool) (out : List Nat) (ord : Nat), bits.length ≤ n →
      1 ≤ d.width → bits.length < fuel → bits.length < fuel' →
      decodeLoop nexp cap fuel d bits out ord = decodeLoop nexp cap fuel' d bits out ord from
    H bits.length fuel (bits.length + 1) d bits out ord le_rfl hw hf (Nat.lt_succ_self _)
  intro n
  induction n with
  | zero =>
    intro fuel fuel' d bits out ord hn hw hf hf'
    obtain ⟨f, rfl⟩ := Nat.exists_eq_succ_of_ne_zero (Nat.ne_of_gt (Nat.zero_lt_of_lt hf))
    obtain ⟨f', rfl⟩ := Nat.exists_eq_succ_of_ne_zero (Nat.ne_of_gt (Nat.zero_lt_of_lt hf'))
    have : bits.length < d.width := by omega
    simp [decodeLoop, this]
  | succ n ih =>
    intro fuel fuel' d bits out ord hn hw hf hf'
    obtain ⟨f, rfl⟩ := Nat.exists_eq_succ_of_ne_zero (Nat.ne_of_gt (Nat.zero_lt_of_lt hf))
    obtain ⟨f', rfl⟩ := Nat.exists_eq_succ_of_ne_zero (Nat.ne_of_gt (Nat.zero_lt_of_lt hf'))
    by_cases hl : bits.length < d.width
    · simp [decodeLoop, hl]
    · have step : ∀ (d' : Decoder) (o : List Nat) (k : Nat), 1 ≤ d'.width →
          decodeLoop nexp cap f d' (bits.drop d.width) o k = decodeLoop nexp cap f' d' (bits.drop d.width) o k :=
        fun d' o k h => ih f f' d' _ o k (by simp; omega) h (by simp; omega) (by simp; omega)
      simp only [decodeLoop, hl, if_false]
      rw [step (Decoder.start nexp) out (ord + 1) (by simp [Decoder.start, minCodeSize])]
      split
      · rfl
      · split
        · rfl
        · split
          · rfl
          · split
            · rfl
            · exact step _ _ _ (Decoder.one_le_width_afterDataCode hw ..)

end Sys2Proof.Machine
end

