-- ==== Sys2Proof/Laws/PerInstr.lean ====
section
/-! SUPPORT. A statement about the syntax of every command, one lemma per constructor. -/

namespace Sys2Proof.Laws.EncodedInRow

/-- The word of a well-formed command selects the command's row of the opcode table (30_encoding.md R94):
`w and mask = match`. -/
def Statement (i : Instr) : Prop := i.wellFormed → encode i &&& (tableRow i).2 = (tableRow i).1

theorem scaleBl (c : Channels) : Statement (.scaleBl c) := fun _ => by cases c <;> rfl
theorem scaleBc (c : Channels) : Statement (.scaleBc c) := fun _ => by cases c <;> rfl
theorem rowPad (c : Channels) : Statement (.rowPad c) := fun _ => by cases c <;> rfl
theorem rowUnpad (c : Channels) : Statement (.rowUnpad c) := fun _ => by cases c <;> rfl
theorem pixToCanon (c : Channels) : Statement (.pixToCanon c) := fun _ => by cases c <;> rfl
theorem pixFromCanon (c : Channels) : Statement (.pixFromCanon c) := fun _ => by cases c <;> rfl
theorem pixFromCanonDa : Statement .pixFromCanonDa := fun _ => rfl
theorem lzwEnc (nexp : Nat) : Statement (.lzwEnc nexp) := fun (h : nexp ≤ 7) => by
  interval_cases nexp <;> rfl
theorem lzwDec (nexp : Nat) : Statement (.lzwDec nexp) := fun (h : nexp ≤ 7) => by
  interval_cases nexp <;> rfl

end Sys2Proof.Laws.EncodedInRow
end

