-- ==== Sys2Proof/Tests/Slice0.lean ====
section
/-! SUPPORT. Our own tests: small facts on fixed values, with expected values from spec/95_test_vectors.md, and a witness
for the hypotheses of every statement. -/

namespace Sys2Proof.Tests

open Sys2Proof.Machine

/-! ## Helpers -/

/-- MEM holding the given bytes at an address. -/
def memAt (addr : Nat) (bytes : List Nat) : Memory := Memory.writeBytes [] addr (bytes.map (BitVec.ofNat 8))

/-- The reset state with the 256 bytes of MEM of the vectors. -/
def idle : State := { State.reset with memSize := 256 }

/-- A source image of w by h pixels at `src`, a destination at `dst`. -/
def image (src dst w h : Nat) (bytes : List Nat) : State :=
  { idle with
    srcAddr := BitVec.ofNat 32 src, dstAddr := BitVec.ofNat 32 dst
    srcW := BitVec.ofNat 32 w, srcH := BitVec.ofNat 32 h, mem := memAt src bytes }

/-- An image to be scaled to w' by h' pixels at address 64. -/
def scaling (w h w' h' : Nat) (bytes : List Nat) : State :=
  { image 0 64 w h bytes with dstW := BitVec.ofNat 32 w', dstH := BitVec.ofNat 32 h' }

/-- A source stream at 0, a destination of `cap` bytes at `dst`. -/
def stream (dst cap : Nat) (bytes : List Nat) : State :=
  { idle with
    srcLen := BitVec.ofNat 32 bytes.length, dstAddr := BitVec.ofNat 32 dst, dstCap := BitVec.ofNat 32 cap
    mem := memAt 0 bytes }

/-- The state after one step. -/
def after (s : State) : Option State :=
  match step s with
  | .next t => some t
  | _ => none

/-- What a step on the command word leaves: STATUS, RESULT_LEN, RESULT_AUX, ERRINFO, then n bytes at DST_ADDR. -/
def outcome (w : Word) (n : Nat) (s : State) : Option (List Nat × List Nat) :=
  (after (s.withCommand w)).map fun t =>
    ([t.statusWord.toNat, t.resultLen.toNat, t.resultAux.toNat, t.errInfo.toNat],
      (t.mem.readBytes s.dstAddr.toNat n).map (·.toNat))

/-! ## Well-formedness and decoding -/

theorem test_wellFormed_refuses_enc_nexp_8 : ¬(Instr.lzwEnc 8).wellFormed := by decide
theorem test_wellFormed_refuses_dec_nexp_8 : ¬(Instr.lzwDec 8).wellFormed := by decide
theorem test_wellFormed_admits_nexp_7 : (Instr.lzwEnc 7).wellFormed ∧ (Instr.lzwDec 7).wellFormed := by decide

-- Words written bit by bit from the encoding of 30_encoding.md R91, R92.
theorem test_decode_scaleBl : decode 0b00000000000000000000000000010001#32 = .ok (.scaleBl .four) := by decide
theorem test_decode_scaleBc : decode 0b00000000000000000000000000000010#32 = .ok (.scaleBc .three) := by decide
theorem test_decode_rowPad : decode 0b00000000000000000000000000010011#32 = .ok (.rowPad .four) := by decide
theorem test_decode_rowUnpad : decode 0b00000000000000000000000000000100#32 = .ok (.rowUnpad .three) := by decide
theorem test_decode_pixToCanon : decode 0b00000000000000000000000000010101#32 = .ok (.pixToCanon .four) := by decide
theorem test_decode_pixFromCanon : decode 0b00000000000000000000000000000110#32 = .ok (.pixFromCanon .three) := by decide
theorem test_decode_pixFromCanonDa : decode 0b00000000000000000000000000110110#32 = .ok .pixFromCanonDa := by decide
theorem test_decode_lzwEnc : decode 0b00000000000000000000011000000111#32 = .ok (.lzwEnc 6) := by decide
theorem test_decode_lzwDec : decode 0b00000000000000000000001100001000#32 = .ok (.lzwDec 3) := by decide

-- V-CMD-12 to V-CMD-19, one word for each reason.
theorem test_decode_refuses_op_0 : decode 0x00000000#32 = .error .opUnassigned := by decide
theorem test_decode_refuses_op_9 : decode 0x00000009#32 = .error .opUnassigned := by decide
theorem test_decode_refuses_dropa_without_alpha : decode 0x00000026#32 = .error .dropaWithoutAlpha := by decide
theorem test_decode_refuses_dropa : decode 0x00000031#32 = .error .dropaWithoutFromCanon := by decide
theorem test_decode_refuses_ch4_with_lzw : decode 0x00000118#32 = .error .ch4WithLzw := by decide
theorem test_decode_refuses_nexp : decode 0x00000736#32 = .error .nexpWithoutLzw := by decide
theorem test_decode_refuses_bit_7 : decode 0x00000081#32 = .error .zeroBitsSet := by decide
theorem test_decode_refuses_bit_31 : decode 0x80000001#32 = .error .zeroBitsSet := by decide

/-- A command placed after reset runs: Param, for the sizes are 0 (60_exceptions.md R401). -/
theorem test_first_step_after_reset :
    after (State.reset.withFetchWord 32 0x05) = some ((State.reset.accept 0x05#32).takeError .param 0) := by
  decide +kernel

/-! ## One step of each command (spec/95_test_vectors.md sections 2 to 8) -/

-- V-CMD-19: STATUS 0x16.
theorem test_illegal_word : outcome 0xFFFFFFFF#32 0 idle = some ([0x16, 0, 0, 0], []) := by decide +kernel

-- V-PIX-2, V-PIX-10.
theorem test_pixToCanon :
    outcome 0x15#32 8 (image 0 32 1 2 [1, 2, 3, 4, 5, 6, 7, 8]) = some ([0x02, 8, 0, 0], [3, 2, 1, 4, 7, 6, 5, 8]) := by
  decide +kernel
theorem test_pixToCanon_overlap : outcome 0x05#32 0 (image 0 5 1 2 []) = some ([0x46, 0, 0, 0], []) := by decide +kernel

-- V-PIX-5, V-PIX-3.
theorem test_pixFromCanon :
    outcome 0x06#32 6 (image 0 32 2 1 [0x30, 0x20, 0x10, 0x60, 0x50, 0x40]) =
      some ([0x02, 6, 0, 0], [0x10, 0x20, 0x30, 0x40, 0x50, 0x60]) := by decide +kernel
theorem test_pixFromCanon_alpha :
    outcome 0x16#32 4 (image 0 32 1 1 [0xFF, 0x80, 0x00, 0x7F]) = some ([0x02, 4, 0, 0], [0x00, 0x80, 0xFF, 0x7F]) := by
  decide +kernel

-- V-PIX-13, V-PIX-12.
theorem test_pixFromCanonDa :
    outcome 0x36#32 6 (image 6 0 2 1 [1, 2, 3, 4, 5, 6, 7, 8]) = some ([0x02, 6, 0, 0], [3, 2, 1, 7, 6, 5]) := by
  decide +kernel
theorem test_pixFromCanonDa_overlap : outcome 0x36#32 0 (image 0 7 2 1 []) = some ([0x46, 0, 0, 0], []) := by
  decide +kernel

-- V-ROW-6, V-ROW-10.
theorem test_rowPad :
    outcome 0x03#32 12 (image 0 32 1 3 [1, 2, 3, 4, 5, 6, 7, 8, 9]) =
      some ([0x02, 12, 4, 0], [1, 2, 3, 0, 4, 5, 6, 0, 7, 8, 9, 0]) := by decide +kernel
theorem test_rowPad_range : outcome 0x03#32 0 (image 0 250 2 1 []) = some ([0x36, 0, 0, 0], []) := by decide +kernel

-- V-ROW-2, V-ROW-9.
theorem test_rowUnpad :
    outcome 0x04#32 6 (image 0 32 1 2 [0x0A, 0x0B, 0x0C, 0xFF, 0x1A, 0x1B, 0x1C, 0xEE]) =
      some ([0x02, 6, 4, 0], [0x0A, 0x0B, 0x0C, 0x1A, 0x1B, 0x1C]) := by decide +kernel
theorem test_rowUnpad_range : outcome 0x04#32 0 (image 249 0 2 1 []) = some ([0x36, 0, 0, 0], []) := by decide +kernel

-- V-BL-2 (source A), V-BL-6 (source Q).
theorem test_scaleBl :
    outcome 0x01#32 12 (scaling 2 2 2 2 [0, 10, 100, 30, 40, 200, 60, 70, 50, 90, 255, 0]) =
      some ([0x02, 12, 0, 0], [0, 10, 100, 15, 25, 150, 30, 40, 75, 45, 93, 87]) := by decide +kernel
theorem test_scaleBl_alpha :
    outcome 0x11#32 16 (scaling 3 1 4 1 [10, 20, 30, 40, 50, 60, 70, 80, 250, 0, 128, 255]) =
      some ([0x02, 16, 0, 0], [10, 20, 30, 40, 30, 40, 50, 60, 50, 60, 70, 80, 150, 30, 99, 167]) := by decide +kernel

-- V-BC-1 (source A), V-BC-6 (source Q): values rounded and clamped at both ends.
theorem test_scaleBc :
    outcome 0x02#32 27 (scaling 2 2 3 3 [0, 10, 100, 30, 40, 200, 60, 70, 50, 90, 255, 0]) =
      some ([0x02, 27, 0, 0],
        [0, 10, 100, 21, 31, 170, 32, 42, 207, 42, 52, 65, 63, 150, 61, 74, 202, 59, 64, 74, 46, 86, 213, 3, 97, 255, 0]) := by
  decide +kernel
theorem test_scaleBc_alpha :
    outcome 0x12#32 16 (scaling 3 1 4 1 [10, 20, 30, 40, 50, 60, 70, 80, 250, 0, 128, 255]) =
      some ([0x02, 16, 0, 0], [10, 20, 30, 40, 28, 56, 58, 60, 153, 33, 102, 170, 255, 0, 132, 255]) := by decide +kernel

-- V-ENC-7, V-ENC-19.
theorem test_lzwEnc :
    outcome 0x107#32 9 (stream 64 64 [0, 1, 1, 0, 1, 0, 0, 1, 0, 1, 1, 0, 2, 3, 2, 3]) =
      some ([0x02, 9, 3, 0], [0x07, 0x44, 0x62, 0x90, 0x07, 0x32, 0x5E, 0x00, 0x00]) := by decide +kernel
theorem test_lzwEnc_index : outcome 0x107#32 0 (stream 64 64 [0, 1, 4, 9]) = some ([0x56, 0, 0, 2], []) := by
  decide +kernel

-- V-DEC-8, V-DEC-17.
theorem test_lzwDec :
    outcome 0x108#32 6 (stream 64 64 [0x04, 0x4C, 0x28, 0xB9, 0x00, 0x00]) =
      some ([0x02, 6, 6, 0], [1, 1, 2, 2, 2, 2]) := by decide +kernel
theorem test_lzwDec_code : outcome 0x108#32 0 (stream 64 64 [0x02, 0x31, 0x5D, 0x00]) = some ([0x76, 0, 0, 3], []) := by
  decide +kernel

/-! ## Host operations -/

-- V-REG-3: STATUS bits 1 and 2 are cleared one at a time.
theorem test_status_clears_done :
    ({ idle with done := true, err := true, errCode := 1#4 }.writeOffset 0x04 0x2#32).statusWord = 0x14#32 := by decide
theorem test_cmd_ignored_while_err :
    { idle with err := true, errCode := 1#4 }.writeOffset 0x00 0x05#32 = { idle with err := true, errCode := 1#4 } := by
  decide
-- V-REG-6: `rst` with a command in flight.
theorem test_rst_in_flight :
    after { idle with cmd := 0x05#32, busy := true, inputs := [.rst [(3, 7#8)]] } = some { idle with mem := [(3, 7#8)] } := by
  decide +kernel
theorem test_store_past_memory : step { idle with inputs := [.st 255 [1#8, 2#8]] } = .fault .noSuchMemory := by rfl

/-! ## Witnesses: states and operands that meet the hypotheses of the statements -/

/-- A state with PIX.TOCANON in flight, the block's turn next. -/
def running : State := { image 0 32 2 1 [1, 2, 3, 4, 5, 6] with cmd := 0x05#32, busy := true }

theorem witness_DecodeOfEncode : (Instr.lzwDec 7).wellFormed := by decide
theorem witness_EncodeOfDecode : decode 0x708#32 = .ok (.lzwDec 7) := by decide
theorem witness_IllegalWords_accepted : idle.busy = false ∧ idle.err = false := by decide
theorem witness_IllegalWords_completed :
    { running with cmd := 0x26#32 }.busy = true ∧ decode 0x26#32 = .error .dropaWithoutAlpha := by decide
theorem witness_StepRunsDecodedCommand_turn :
    { running with inputs := [.block] }.busy = true ∧ decode running.cmd = .ok (.pixToCanon .three) ∧
      { running with inputs := [Input.block] }.inputs = .block :: [] := by decide
theorem witness_StepRunsDecodedCommand_empty : running.busy = true ∧ running.inputs = [] := by decide
theorem witness_AcceptanceOfCommand :
    { idle with inputs := [.wr .cmd 0x05#32] }.inputs = .host (.regWrite 32 0x00 0x05#32) :: [] ∧
      idle.busy = false ∧ idle.err = false := by decide
theorem witness_AcceptanceOfCommand_ignored :
    running.busy = true ∧ { idle with err := true, errCode := 1#4 }.err = true := by decide
theorem witness_BusyIgnoresRegisterWrites :
    running.busy = true ∧ 0x38 % 4 = 0 ∧
      { running with inputs := [.host (.regWrite 32 0x38 5#32)] }.inputs = .host (.regWrite 32 0x38 5#32) :: [] := by decide
theorem witness_running_inv : running.Inv := by constructor <;> decide +kernel
theorem witness_StatusWriteClearsFlags :
    idle.busy = false ∧
      { idle with inputs := [.wr .status 0x6#32] }.inputs = .host (.regWrite 32 0x04 0x6#32) :: [] := by decide
theorem witness_CtrlKeepsEnableOnly :
    idle.busy = false ∧
      { idle with inputs := [.wr .ctrl 0xFFFFFFFF#32] }.inputs = .host (.regWrite 32 0x08 0xFFFFFFFF#32) :: [] := by decide
theorem witness_ParameterRegistersHoldWrites :
    idle.busy = false ∧ ∀ p ∈ [(Reg.srcAddr, 0x0C), (.srcLen, 0x10), (.dstAddr, 0x14), (.dstCap, 0x18), (.srcW, 0x1C),
        (.srcH, 0x20), (.dstW, 0x24), (.dstH, 0x28)],
      { idle with inputs := [.wr p.1 0xFFFFFFFF#32] }.inputs = .host (.regWrite 32 p.2 0xFFFFFFFF#32) :: [] := by decide
theorem witness_ReadOnlyOffsetsIgnoreWrites :
    0x2C % 4 = 0 ∧ 0x2C ≤ 0x2C ∧ 0x38 % 4 = 0 ∧ 0x2C ≤ 0x38 ∧
      { idle with inputs := [.host (.regWrite 32 0x38 5#32)] }.inputs = .host (.regWrite 32 0x38 5#32) :: [] := by decide
theorem witness_RegisterAccessShapes_read :
    0x34 % 4 = 0 ∧ 0x34 = Reg.errInfo.offset ∧ 0x38 % 4 = 0 ∧ 0x38 ≤ 0x38 ∧
      { idle with inputs := [.rd .errInfo] }.inputs = .host (.regRead 32 0x34) :: [] ∧
      { idle with inputs := [.host (.regRead 32 0x38)] }.inputs = .host (.regRead 32 0x38) :: [] := by decide
theorem witness_RegisterAccessShapes_refused :
    (16 ≠ 32 ∨ 0x04 % 4 ≠ 0) ∧ (32 ≠ 32 ∨ 0x05 % 4 ≠ 0) ∧
      { idle with inputs := [.host (.regWrite 32 5 1#32)] }.inputs = .host (.regWrite 32 5 1#32) :: [] ∧
      { idle with inputs := [.host (.regRead 16 4)] }.inputs = .host (.regRead 16 4) :: [] := by decide
theorem witness_InterruptIsDoneAndEnable_writes :
    idle.busy = false ∧ (0x2#32).getLsbD 1 = true ∧ (0x2#32).getLsbD 0 = false := by decide
theorem witness_InterruptIsDoneAndEnable_completion : ∃ t, running.busy = true ∧ blockStep running = .next t :=
  ⟨_, rfl, rfl⟩
theorem witness_ErrorEntryChanges : 2 ^ 32 - 1 < 2 ^ 32 := by decide
theorem witness_CommandsEndInOneOfTwoWays : running.Inv ∧ running.busy = true := ⟨witness_running_inv, rfl⟩
theorem witness_BlockWritesOnlyItsDestination :
    (match blockStep running with
      | .next t => decide (t.mem.read 32 ≠ running.mem.read 32)
      | _ => false) = true := by decide +kernel
/-- A state that differs from `running` in registers PIX.TOCANON does not read. -/
def runningOther : State := { running with srcLen := 9#32, dstW := 7#32, ie := true }

theorem witness_UnreadRegistersAreIgnored :
    running ≠ runningOther ∧ running.mem = runningOther.mem ∧ running.memSize = runningOther.memSize ∧
      ∀ r : Reg, commandReads (.pixToCanon .three) r = true → running.readReg r = runningOther.readReg r := by
  refine ⟨by decide +kernel, rfl, rfl, ?_⟩
  intro r
  cases r <;> decide +kernel
theorem witness_IdleBlockTakesNoStep :
    idle.busy = false ∧ idle.inputs = [] ∧ { idle with inputs := [.block] }.inputs = .block :: [] := by decide
theorem witness_CompletionAfterAnyPolling :
    running.busy = true ∧ running.inputs = List.replicate 0 (.rd .status) ∧
      { running with inputs := [.rd .status, .rd .status] }.inputs = List.replicate 2 (.rd .status) := by decide
theorem witness_ResetInputAtAnyMoment :
    { running with inputs := [.rst [(255, 1#8)]] }.inputs = .rst [(255, 1#8)] :: [] ∧
      Memory.wf [(0, 1#8), (255, 2#8)] ∧ ∀ cell ∈ [(0, 1#8), (255, 2#8)], cell.1 < idle.memSize := by decide +kernel
theorem witness_HostLoadReturnsStoredBytes :
    idle.busy = false ∧ 254 + [1#8, 2#8].length ≤ idle.memSize ∧
      { idle with inputs := [.st 254 [1#8, 2#8], .ld 254 2] }.inputs =
        .st 254 [1#8, 2#8] :: .ld 254 [1#8, 2#8].length :: [] := by decide
theorem witness_NoHostMemoryStepWhileBusy :
    running.busy = true ∧ { running with inputs := [.st 0 [1#8]] }.inputs = .st 0 [1#8] :: [] ∧
      { running with inputs := [.ld 0 1] }.inputs = .ld 0 1 :: [] := by decide
theorem witness_StepKeepsInvariant : ∃ t, running.Inv ∧ step running = .next t := ⟨_, witness_running_inv, rfl⟩
theorem witness_StepsGoOnInsideTheInterface :
    { idle with inputs := [.st 254 [1#8, 2#8]] }.hostKeepsInterface = true ∧
      { idle with inputs := [.st 255 [1#8, 2#8]] }.hostKeepsInterface = false := by decide

/-! The commands: each clause of the checks, and a state that passes them at the edge of MEM. -/

theorem witness_Pix_param : (image 0 32 0 1 []).zeroSource ∧ (image 0 32 1 0 []).zeroSource := by
  unfold State.zeroSource; decide
theorem witness_Pix_range :
    ¬(image 251 0 1 2 []).zeroSource ∧ ¬(image 251 0 1 2 []).regionsFit 6 6 ∧ (image 251 0 1 2 []).pixels * 3 = 6 := by
  unfold State.zeroSource State.regionsFit; decide
theorem witness_Pix_overlap :
    ¬(image 0 5 1 2 []).zeroSource ∧ (image 0 5 1 2 []).regionsFit 6 6 ∧ (image 0 5 1 2 []).regionsShare 6 6 := by
  unfold State.zeroSource State.regionsFit State.regionsShare; decide
theorem witness_Pix_passes :
    (image 250 0 1 2 []).memSize ≤ 2 ^ 32 ∧
      (image 250 0 1 2 []).passesChecks State.zeroSource (fun s => s.pixels * 3) (fun s => s.pixels * 3) := by
  unfold State.passesChecks State.zeroSource State.regionsFit State.regionsShare; decide
theorem witness_PixDa_passes :
    (image 6 0 2 1 []).passesChecks State.zeroSource (fun s => s.pixels * 4) (fun s => s.pixels * 3) := by
  unfold State.passesChecks State.zeroSource State.regionsFit State.regionsShare; decide
theorem witness_PixDa_range_and_overlap :
    ¬(image 249 0 2 1 []).regionsFit 8 6 ∧ ¬(image 249 0 2 1 []).zeroSource ∧ (image 0 7 2 1 []).regionsFit 8 6 ∧
      (image 0 7 2 1 []).regionsShare 8 6 ∧ ¬(image 0 7 2 1 []).zeroSource := by
  unfold State.zeroSource State.regionsFit State.regionsShare; decide

/-- The state after one completion, or the state itself. -/
def done (i : Instr) (s : State) : State :=
  match exec i s with
  | .next t => t
  | _ => s

theorem witness_PixelConversionLaws :
    let s := image 0 32 2 1 [1, 2, 3, 4, 5, 6, 7, 8]
    ∀ c ∈ [Channels.three, .four],
      s.memSize ≤ 2 ^ 32 ∧ s.err = false ∧ (done (.pixToCanon c) s).err = false ∧
      (done (.pixFromCanon c) ((done (.pixToCanon c) s).thenAt s.dstAddr 0#32)).err = false ∧
      (done (.pixFromCanon c) s).err = false ∧
      (done (.pixToCanon c) ((done (.pixFromCanon c) s).thenAt s.dstAddr 0#32)).err = false ∧
      (done .pixFromCanonDa s).err = false := by decide +kernel

theorem witness_RowPad_passes :
    (image 0 248 2 1 []).memSize ≤ 2 ^ 32 ∧
      (image 0 248 2 1 []).passesChecks State.zeroSource (fun s => s.srcH.toNat * (s.srcW.toNat * 3))
        (fun s => s.srcH.toNat * (s.srcW.toNat * 3 + (4 - s.srcW.toNat * 3 % 4) % 4)) := by
  unfold State.passesChecks State.zeroSource State.regionsFit State.regionsShare; decide
theorem witness_RowPad_stops :
    (image 0 248 0 1 []).zeroSource ∧ ¬(image 0 249 2 1 []).zeroSource ∧ ¬(image 0 249 2 1 []).regionsFit 6 8 ∧
      (image 0 5 2 1 []).regionsFit 6 8 ∧ (image 0 5 2 1 []).regionsShare 6 8 := by
  unfold State.zeroSource State.regionsFit State.regionsShare; decide
theorem witness_RowUnpad_passes :
    (image 248 0 2 1 []).memSize ≤ 2 ^ 32 ∧
      (image 248 0 2 1 []).passesChecks State.zeroSource
        (fun s => s.srcH.toNat * (s.srcW.toNat * 3 + (4 - s.srcW.toNat * 3 % 4) % 4))
        (fun s => s.srcH.toNat * (s.srcW.toNat * 3)) := by
  unfold State.passesChecks State.zeroSource State.regionsFit State.regionsShare; decide
theorem witness_RowUnpad_stops :
    (image 0 32 1 0 []).zeroSource ∧ ¬(image 249 0 2 1 []).zeroSource ∧ ¬(image 249 0 2 1 []).regionsFit 8 6 ∧
      (image 0 7 2 1 []).regionsFit 8 6 ∧ (image 0 7 2 1 []).regionsShare 8 6 := by
  unfold State.zeroSource State.regionsFit State.regionsShare; decide
theorem witness_RowPaddingLaws :
    let s := image 0 32 2 1 [1, 2, 3, 4, 5, 6, 7, 8]
    s.memSize ≤ 2 ^ 32 ∧ s.err = false ∧ (done (.rowPad .three) s).err = false ∧
    (done (.rowUnpad .three) ((done (.rowPad .three) s).thenAt s.dstAddr 0#32)).err = false ∧
    (done (.rowUnpad .three) s).err = false ∧
    (done (.rowPad .three) ((done (.rowUnpad .three) s).thenAt s.dstAddr 0#32)).err = false := by decide +kernel

theorem witness_Scale_passes :
    (scaling 2 2 8 8 []).memSize ≤ 2 ^ 32 ∧
      (scaling 2 2 8 8 []).passesChecks State.zeroImage (fun s => s.srcW.toNat * s.srcH.toNat * 3)
        (fun s => s.dstW.toNat * s.dstH.toNat * 3) := by
  unfold State.passesChecks State.zeroImage State.zeroSource State.regionsFit State.regionsShare; decide
theorem witness_Scale_param :
    (scaling 0 2 8 8 []).zeroImage ∧ (scaling 2 0 8 8 []).zeroImage ∧ (scaling 2 2 0 8 []).zeroImage ∧
      (scaling 2 2 8 0 []).zeroImage := by
  unfold State.zeroImage State.zeroSource; decide
theorem witness_Scale_stops :
    ¬(scaling 2 2 8 9 []).zeroImage ∧ ¬(scaling 2 2 8 9 []).regionsFit 12 (8 * 9 * 3) ∧
      ¬(scaling 22 1 1 1 []).zeroImage ∧ (scaling 22 1 1 1 []).regionsFit 66 3 ∧ (scaling 22 1 1 1 []).regionsShare 66 3 := by
  unfold State.zeroImage State.zeroSource State.regionsFit State.regionsShare; decide
-- oldW = oldH = 1, newW = newH = 3, dx = dy = 2.
theorem witness_IntegerForms : 0 < 1 ∧ 2 < 3 := by decide
-- oldW = oldH = 2, newW = newH = 3, dx = dy = 2; and oldW = oldH = 1.
theorem witness_BilinearTapsAndBounds :
    (0 < 2 ∧ 2 < 3 ∧ 2 ≤ 2) ∧ (0 < 1 ∧ 2 < 3 ∧ 1 = 1) ∧
    ∀ x < 2, ∀ y < 2, 5 ≤ (fun x y _ => 5 + x + y : Sampler) x y 0 ∧ (fun x y _ => 5 + x + y : Sampler) x y 0 ≤ 7 := by
  decide
theorem witness_BicubicSubsampling : (fun _ _ _ => 255 : Sampler) (1 * 2) (1 * 2) 0 ≤ 255 ∧ 0 < 2 ∧ 1 < 3 := by decide
theorem witness_CubicKernelWeights : (0 : ℚ) ≤ 0 ∧ (0 : ℚ) < 1 := by decide

theorem witness_LzwEnc_stops :
    (stream 64 64 []).srcLen = 0#32 ∧ (stream 250 7 [1]).srcLen ≠ 0#32 ∧ ¬(stream 250 7 [1]).regionsFit 1 7 ∧
      (stream 0 7 [1]).regionsFit 1 7 ∧ (stream 0 7 [1]).regionsShare 1 7 := by
  unfold State.regionsFit State.regionsShare; decide
theorem witness_LzwEnc_passes :
    (stream 252 4 [1, 1, 1, 1, 1, 1]).passesChecks (fun s => s.srcLen = 0#32) (·.srcLen.toNat) (·.dstCap.toNat) := by
  unfold State.passesChecks State.regionsFit State.regionsShare; decide
theorem witness_LzwEnc_index :
    let s := stream 252 4 [1, 1, 1, 4]
    3 < s.srcLen.toNat ∧ 2 ^ 2 ≤ (s.mem.read 3).toNat ∧ ∀ q < 3, (s.mem.read q).toNat < 2 ^ 2 := by decide +kernel
-- V-ENC-21, V-ENC-22: four bytes come out.
theorem witness_LzwEnc_length : (lzwEncode 1 (stream 252 4 [1, 1, 1, 1, 1, 1]).sourceNumbers).length = 4 := by
  decide +kernel
theorem witness_LzwDec_stops :
    ¬(stream 250 7 [1]).regionsFit 1 7 ∧ (stream 0 7 [1]).regionsFit 1 7 ∧ (stream 0 7 [1]).regionsShare 1 7 := by
  unfold State.regionsFit State.regionsShare; decide
theorem witness_LzwDec_passes :
    (stream 250 6 [0x02, 0x8C, 0x5F, 0x00]).passesChecks (fun _ => False) (·.srcLen.toNat) (·.dstCap.toNat) := by
  unfold State.passesChecks State.regionsFit State.regionsShare; decide
-- V-DEC-13, V-DEC-20, V-DEC-15, V-DEC-24, V-DEC-25.
theorem witness_LzwDec_results :
    lzwDecode 1 6 [0x02, 0x8C, 0x5F, 0x00] = .ok ([1, 1, 1, 1, 1, 1], 4) ∧
      deframe [0x02, 0x8C, 0x5F] = .error (.decodeTrunc, 0) ∧ decodePayload 1 64 [0x74, 0x01] = .error (.decodeCode, 1) ∧
      decodePayload 1 64 [0x0C] = .error (.decodeTrunc, 1) ∧ decodePayload 1 5 [0x8C, 0x5F] = .error (.overflow, 0) := by
  decide +kernel
theorem witness_LzwRoundTrip :
    let s := stream 64 4 [1, 1, 1, 1, 1, 1]
    let t := done (.lzwEnc 1) s
    s.memSize ≤ 2 ^ 32 ∧ s.err = false ∧ t.err = false ∧ s.srcLen.toNat ≤ (6#32).toNat ∧
      (58#32).toNat + (6#32).toNat ≤ s.memSize ∧ (58#32).toNat + (6#32).toNat ≤ s.dstAddr.toNat ∧
      s.dstAddr.toNat + t.resultLen.toNat ≤ (68#32).toNat ∧ (68#32).toNat + (6#32).toNat ≤ s.memSize := by decide +kernel
theorem witness_MinimumCodeSize : tableSize 7 + 2 ≤ 2 ^ 9 := by decide
theorem witness_EncoderCodes : ∀ i ∈ [255, 0, 255], i < tableSize 7 := by decide
theorem witness_PackedBits : 4095 < 2 ^ 12 ∧ 11 < 12 ∧ 15 < 8 * [0x8C, 0x5F].length := by decide
theorem witness_FramedPayload : (0 < ([5].length + 254) / 255) ∧ (1 < (256 + 254) / 255) ∧ (0 + 1 < (256 + 254) / 255) := by decide
theorem witness_DeframeAcceptsAnySplit : ∀ b ∈ [[1], [2, 3]], 1 ≤ b.length := by decide

/-- Two pixels of three channels. -/
def twoPixels : PixelImage := { width := 2, height := 1, channels := .three, data := [1#8, 2#8, 3#8, 4#8, 5#8, 6#8] }

theorem witness_TransformLaws : twoPixels.filled := by decide
theorem witness_BmpRoundTrip :
    id 54 = 54 ∧ (fun _ => 54 : Nat → Nat) 54 = 54 ∧ twoPixels.filled ∧ twoPixels.width < 2 ^ 31 ∧
      twoPixels.height < 2 ^ 31 := by decide

/-- Decoders of N = 4 for the clauses of DecoderFollowsItsCodes: with no previous code, with one, and with a full table. -/
def decoders : List Decoder :=
  [{ table := [], next := 6, width := 3, prev := none }, { table := [(6, [0, 1])], next := 7, width := 3, prev := some 1 },
    { table := [], next := 4096, width := 12, prev := some 1 }]

-- Codes of every clause: with no previous code 3, 4, 5, 6; with one 3, 6, the next free 7; with a full table the next free.
theorem witness_DecoderFollowsItsCodes :
    (∀ d ∈ decoders, 1 ≤ d.width) ∧ [true, false].length < 3 ∧ (∀ c ∈ [3, 4, 5, 6, 7], c < 2 ^ 3) ∧ 4095 < 2 ^ 12 ∧
      (3 < 2 ^ 2 ∧ 4 = 2 ^ 2 ∧ 5 = 2 ^ 2 + 1 ∧ 2 ^ 2 + 1 < 6 ∧ 6 < 7 ∧ 7 ≠ 2 ^ 2 ∧ 7 ≠ 2 ^ 2 + 1 ∧ 7 < 4096) := by decide
theorem witness_DecoderFollowsItsCodes_unknown :
    let d : Decoder := { table := [], next := 4096, width := 13, prev := some 1 }
    1 ≤ d.width ∧ 4096 < 2 ^ d.width ∧ 2 ^ 2 < 4096 ∧ 4096 = d.next ∧ 4096 ≤ d.next ∧ d.next < 4097 ∧
      4097 < 2 ^ d.width := by decide
theorem witness_EncoderEmitsLongestKnownStrings :
    [255, 0, 255] ≠ [] ∧ (∀ i ∈ [255, 0, 255], i < 2 ^ (7 + 1)) ∧ [0] ≠ [] ∧ ∀ i ∈ [0], i < 2 ^ (0 + 1) := by decide
theorem witness_WaitReadsStatusUntilIdle : waits [.rd .status, .block, .rd .status] running = true := by decide +kernel
theorem witness_ResizeOnBlock :
    twoPixels.valid ∧ twoPixels.width ≠ 0 ∧ twoPixels.height ≠ 0 ∧ 3#32 ≠ 0#32 ∧ idle.busy = false ∧ idle.err = false ∧
      (0#32).toNat + 6 ≤ idle.memSize ∧ (6#32).toNat + 9 ≤ idle.memSize ∧ (0#32).toNat + 6 ≤ (6#32).toNat := by decide

/-- Colours in the order of their first pixels, padding with entry 0. -/
def firstSeen : GctPolicy :=
  { order := id, order_perm := fun _ => .refl _, pad := fun colours _ => colours.headD (0#8, 0#8, 0#8) }

/-- The open fields of a GIF file at some values. -/
def gifFields (mcs : McsByte) : GifOpenFields :=
  { version := .gif89a, screenBits := 15#4, background := 0#8, aspect := 0#8, left := 1#16, top := 2#16, mcs := mcs
    localTable := false }

theorem witness_GifRoundTrip :
    (gifFields .document).localTable = false ∧ twoPixels.filled ∧ twoPixels.channels = .three ∧ 1 ≤ twoPixels.width ∧
      twoPixels.width < 2 ^ 16 ∧ 1 ≤ twoPixels.height ∧ twoPixels.height < 2 ^ 16 ∧ twoPixels.colours.length ≤ 256 := by
  decide +kernel

/-! ## Host software -/

-- 30_encoding.md R99: `C` defaults to 3, `N=256` is NEXP 7, `N=6` is no operand.
theorem test_mnemonic_operands :
    Mnemonic.scaleBl.instr .omitted = some (.scaleBl .three) ∧ Mnemonic.lzwEnc.instr (.colours 256) = some (.lzwEnc 7) ∧
      Mnemonic.lzwEnc.instr (.colours 6) = none ∧ Mnemonic.pixFromCanonDa.instr (.channels 4) = none := by decide
-- 30_encoding.md R99: `WAIT` with no command in flight reads STATUS once.
theorem test_wait_while_idle :
    waits [.rd .status] idle = true ∧ waits [.rd .status, .rd .status] idle = false := by decide +kernel
-- 46_host_software.md R335: no NEXP for a size byte of 1, in the document's numbers.
theorem test_nexpOfMcs : nexpOfMcs .document 1 = none ∧ nexpOfMcs .document 9 = some 7 ∧ nexpOfMcs .standard 1 = some 0 := by
  decide

end Sys2Proof.Tests
end

section
/-! The register port (10_state.md R21, R29, R32 to R37): which register an offset names, what a host register access does to
the state in one step, and `irq`. Settles O7, O9, O14 and O15. -/

namespace Sys2Proof.Machine

/-! ## Offsets and registers -/

theorem eq_offset_of_atOffset {o : Nat} {r : Reg} (h : Reg.atOffset o = some r) : o = r.offset := by
  unfold Reg.atOffset at h
  split at h <;> cases h <;> rfl

theorem Reg.offset_lt (r : Reg) : r.offset < 0x38 := by cases r <;> decide

/-- Offsets 0x38 and up hold no register (10_state.md R29). -/
theorem Reg.atOffset_reserved {o : Nat} (h : 0x38 ≤ o) : Reg.atOffset o = none := by
  cases hr : Reg.atOffset o with
  | none => rfl
  | some r =>
    have heq := eq_offset_of_atOffset hr
    have hlt := r.offset_lt
    omega

/-- The fourteen registers in the order of their offsets (10_state.md R21). -/
def registers : List Reg :=
  [.cmd, .status, .ctrl, .srcAddr, .srcLen, .dstAddr, .dstCap, .srcW, .srcH, .dstW, .dstH, .resultLen, .resultAux, .errInfo]

theorem map_offset_registers : registers.map Reg.offset = (List.range 14).map (4 * ·) := rfl

/-- The registers fill the aligned offsets below 0x38 without a gap. -/
theorem Reg.exists_offset_or_reserved {o : Nat} (h : o % 4 = 0) : (∃ r : Reg, o = r.offset) ∨ 0x38 ≤ o := by
  rcases Nat.lt_or_ge o 0x38 with hlt | hge
  · have hmem : o ∈ registers.map Reg.offset := by
      rw [map_offset_registers]
      exact List.mem_map.mpr ⟨o / 4, List.mem_range.mpr (by omega), by omega⟩
    obtain ⟨r, -, hr⟩ := List.mem_map.mp hmem
    exact .inl ⟨r, hr.symm⟩
  · exact .inr hge

@[simp] theorem State.readOffset_offset (s : State) (r : Reg) : s.readOffset r.offset = s.readReg r := by
  simp [State.readOffset, atOffset_offset]

theorem State.readOffset_reserved (s : State) {o : Nat} (h : 0x38 ≤ o) : s.readOffset o = 0#32 := by
  simp [State.readOffset, Reg.atOffset_reserved h]

/-! ## Register writes -/

theorem bitOf_eq_getLsbD (v : Word) (i : Nat) : bitOf v i = v.getLsbD i := by
  simp [bitOf, BitVec.getLsbD, Nat.testBit_eq_decide_div_mod_eq]

theorem State.accepts_iff (s : State) : s.accepts = true ↔ s.busy = false ∧ s.err = false := by
  simp [State.accepts]

theorem State.accepts_eq_false_iff (s : State) : s.accepts = false ↔ s.busy = true ∨ s.err = true := by
  simp only [State.accepts, Bool.and_eq_false_iff, Bool.not_eq_false']

theorem State.writeOffset_of_busy {s : State} (h : s.busy = true) (o : Nat) (v : Word) : s.writeOffset o v = s := by
  simp [State.writeOffset, h]

theorem State.writeOffset_offset {s : State} (h : s.busy = false) (r : Reg) (v : Word) :
    s.writeOffset r.offset v = s.writeReg r v := by
  simp [State.writeOffset, h, atOffset_offset]

/-- A CMD write is accepted or does nothing (10_state.md R33, R34). -/
theorem State.writeOffset_cmd (s : State) (v : Word) : s.writeOffset 0x00 v = if s.accepts then s.accept v else s := by
  cases hb : s.busy with
  | false => exact State.writeOffset_offset hb .cmd v
  | true =>
    have hacc : s.accepts = false := s.accepts_eq_false_iff.mpr (.inl hb)
    rw [State.writeOffset_of_busy hb, if_neg (Bool.eq_false_iff.mp hacc)]

/-- The two write-one-to-clear bits of STATUS act on their own fields only (10_state.md R36). -/
theorem State.writeStatus_eq (s : State) (v : Word) :
    s.writeStatus v = { s with
      done := s.done && !v.getLsbD 1
      err := s.err && !v.getLsbD 2
      errCode := if v.getLsbD 2 then 0#4 else s.errCode
      errInfo := if v.getLsbD 2 then 0#32 else s.errInfo } := by
  simp only [State.writeStatus, bitOf_eq_getLsbD]
  cases v.getLsbD 1 <;> cases v.getLsbD 2 <;> simp [State.clearDone, State.clearErr]

theorem State.writeOffset_status {s : State} (h : s.busy = false) (v : Word) : s.writeOffset 0x04 v = s.writeStatus v :=
  State.writeOffset_offset h .status v

theorem State.writeOffset_ctrl {s : State} (h : s.busy = false) (v : Word) :
    s.writeOffset 0x08 v = { s with ie := v.getLsbD 0 } := by
  rw [← bitOf_eq_getLsbD]
  exact State.writeOffset_offset h .ctrl v

/-! ## The step that takes a register access -/

theorem registerShapeOk_iff (width o : Nat) : registerShapeOk width o = true ↔ width = 32 ∧ o % 4 = 0 := by
  simp [registerShapeOk]

theorem registerShapeOk_eq_false {width o : Nat} (h : width ≠ 32 ∨ o % 4 ≠ 0) : registerShapeOk width o = false := by
  rw [Bool.eq_false_iff, ne_eq, registerShapeOk_iff]
  omega

theorem step_host {s : State} {op : HostOp} {rest : List Input} (h : s.inputs = .host op :: rest) :
    step s = hostStep op (s.setInputs rest) := by
  simp [step, takeInput, h]

theorem step_regWrite {s : State} {o : Nat} {v : Word} {rest : List Input} (ho : o % 4 = 0)
    (h : s.inputs = .host (.regWrite 32 o v) :: rest) : step s = .next ((s.setInputs rest).writeOffset o v) := by
  rw [step_host h, hostStep, if_pos ((registerShapeOk_iff 32 o).mpr ⟨rfl, ho⟩)]

theorem step_regRead {s : State} {o : Nat} {rest : List Input} (ho : o % 4 = 0)
    (h : s.inputs = .host (.regRead 32 o) :: rest) :
    step s = .next ((s.setInputs rest).answer (.word ((s.setInputs rest).readOffset o))) := by
  rw [step_host h, hostStep, if_pos ((registerShapeOk_iff 32 o).mpr ⟨rfl, ho⟩)]

theorem step_regWrite_refused {s : State} {width o : Nat} {v : Word} {rest : List Input} (hw : width ≠ 32 ∨ o % 4 ≠ 0)
    (h : s.inputs = .host (.regWrite width o v) :: rest) : step s = .refused .registerAccessShape := by
  simp [step_host h, hostStep, registerShapeOk_eq_false hw]

theorem step_regRead_refused {s : State} {width o : Nat} {rest : List Input} (hw : width ≠ 32 ∨ o % 4 ≠ 0)
    (h : s.inputs = .host (.regRead width o) :: rest) : step s = .refused .registerAccessShape := by
  simp [step_host h, hostStep, registerShapeOk_eq_false hw]

@[simp] theorem State.readReg_setInputs (s : State) (q : List Input) (r : Reg) :
    (s.setInputs q).readReg r = s.readReg r := by cases r <;> rfl

/-! ## The interrupt line -/

theorem State.irq_iff (s : State) : s.irq = true ↔ s.done = true ∧ s.ie = true := by simp [State.irq]

theorem State.irq_of_not_done {s : State} (h : s.done = false) : s.irq = false := by simp [State.irq, h]

theorem State.irq_of_not_ie {s : State} (h : s.ie = false) : s.irq = false := by simp [State.irq, h]

/-- Every completion raises DONE and leaves IE, so `irq` is IE (60_exceptions.md R406). -/
@[simp] theorem State.irq_complete (s : State) (r : CmdResult) : (s.complete r).irq = s.ie := by
  cases r <;> simp [State.irq]

/-- While BUSY = 1 the block's step is a completion, for an illegal word too (10_state.md R35, 30_encoding.md R95). -/
theorem blockStep_eq_complete {s : State} (h : s.busy = true) : ∃ r, blockStep s = .next (s.complete r) := by
  rcases blockStep_cases s with ⟨hb, -⟩ | ⟨-, -, hstep⟩ | ⟨i, -, -, hstep⟩
  · exact absurd (h.symm.trans hb) (by decide)
  · exact ⟨.err .illegalCmd 0, hstep⟩
  · exact ⟨commandResult i s, hstep.trans (exec_eq_complete i s)⟩

/-! ## The statements -/

/-- Settles O7, by the one equation of a CMD write. -/
theorem acceptanceOfCommand : Obligations.AcceptanceOfCommand := by
  unfold Obligations.AcceptanceOfCommand
  intro s v rest hq
  have hstep := step_regWrite (Nat.zero_mod 4) hq
  rw [State.writeOffset_cmd] at hstep
  constructor
  · intro hbusy herr
    have hacc : (s.setInputs rest).accepts = true := (State.accepts_iff _).mpr ⟨hbusy, herr⟩
    rw [hstep, if_pos hacc]
    rfl
  · intro hstop
    have hacc : (s.setInputs rest).accepts = false := (State.accepts_eq_false_iff _).mpr hstop
    rw [hstep, if_neg (Bool.eq_false_iff.mp hacc)]
    rfl

/-- Settles O9. -/
theorem statusWriteClearsFlags : Obligations.StatusWriteClearsFlags := by
  unfold Obligations.StatusWriteClearsFlags
  intro s v rest hbusy hq
  have hbusy' : (s.setInputs rest).busy = false := hbusy
  rw [step_regWrite (by decide) hq, State.writeOffset_status hbusy', State.writeStatus_eq]
  rfl

/-- Settles O14: an aligned offset is a register's or reserved, and a step reads what stands there. -/
theorem registerAccessShapes : Obligations.RegisterAccessShapes := by
  unfold Obligations.RegisterAccessShapes
  refine ⟨by decide, fun s => ?_, fun s o rest ho hq => ⟨?_, ?_, ?_⟩, fun s width o v rest hw => ⟨?_, ?_⟩⟩
  · exact ⟨rfl, rfl, rfl, rfl, rfl, rfl, rfl, rfl, rfl, rfl, rfl, rfl, rfl, rfl⟩
  · rintro r rfl
    rw [step_regRead ho hq, State.readOffset_offset, State.readReg_setInputs]
    rfl
  · intro hres
    rw [step_regRead ho hq, State.readOffset_reserved _ hres]
    rfl
  · exact Reg.exists_offset_or_reserved ho
  · exact step_regWrite_refused hw
  · exact step_regRead_refused hw

/-- Settles O15: DONE falls at acceptance and by bit 1 of STATUS, IE by bit 0 of CTRL, and every block step in flight is a
completion. -/
theorem interruptIsDoneAndEnable : Obligations.InterruptIsDoneAndEnable := by
  unfold Obligations.InterruptIsDoneAndEnable
  refine fun s => ⟨s.irq_iff, fun v => ?_, fun v hbusy hv => ?_, fun v hbusy hv => ?_, fun t hbusy ht => ?_⟩
  · exact State.irq_of_not_done (s.accept_done v)
  · apply State.irq_of_not_done
    rw [State.writeOffset_status hbusy, State.writeStatus_eq, hv]
    exact Bool.and_false s.done
  · apply State.irq_of_not_ie
    rw [State.writeOffset_ctrl hbusy]
    exact hv
  · obtain ⟨r, hr⟩ := blockStep_eq_complete hbusy
    cases ht.symm.trans hr
    exact s.irq_complete r

end Sys2Proof.Machine
end

section
/-! Illegal command words (30_encoding.md R95, R100): for each class of OP, which fields make the decoder refuse the word,
and how an illegal word completes. Settles O5. -/

namespace Sys2Proof

/-! ## The ranges of the fields -/

theorem field_lt (w : Word) (hi lo : Nat) : field w hi lo < 2 ^ (hi + 1 - lo) :=
  Nat.mod_lt _ (Nat.two_pow_pos _)

theorem opField_lt (w : Word) : opField w < 16 := field_lt w 3 0

theorem ch4Field_lt (w : Word) : ch4Field w < 2 := field_lt w 4 4

theorem dropaField_lt (w : Word) : dropaField w < 2 := field_lt w 5 5

/-! ## What the decoder of each class of OP refuses -/

/-- OP 1 to 5 leave only CH4 free. -/
theorem decodeImage_error_iff (w : Word) (mk : Channels → Instr) :
    (∃ e, decodeImage w mk = .error e) ↔ dropaField w ≠ 0 ∨ nexpField w ≠ 0 := by
  unfold decodeImage
  split_ifs with hdropa hnexp <;> simp [*]

/-- OP 6 allows DROPA only together with CH4. -/
theorem decodeFromCanon_error_iff (w : Word) :
    (∃ e, decodeFromCanon w = .error e) ↔ nexpField w ≠ 0 ∨ (dropaField w ≠ 0 ∧ ch4Field w ≠ 1) := by
  unfold decodeFromCanon
  split_ifs with hnexp hdropa hch4 <;> simp [*]

/-- OP 7 and 8 leave only NEXP free. -/
theorem decodeLzw_error_iff (w : Word) (mk : Nat → Instr) :
    (∃ e, decodeLzw w mk = .error e) ↔ dropaField w ≠ 0 ∨ ch4Field w ≠ 0 := by
  unfold decodeLzw
  split_ifs with hdropa hch4 <;> simp [*]

/-! ## The decoder by class of OP -/

section ByOp

variable {w : Word}

theorem decode_of_zeroBitsSet (h : zeroHiField w ≠ 0 ∨ zeroLoField w ≠ 0) : decode w = .error .zeroBitsSet :=
  if_pos h

variable (hz : ¬(zeroHiField w ≠ 0 ∨ zeroLoField w ≠ 0))
include hz

theorem decode_of_opUnassigned (h : opField w = 0 ∨ 9 ≤ opField w) : decode w = .error .opUnassigned := by
  unfold decode
  rw [if_neg hz]
  split
  case h_9 => rfl
  all_goals omega

theorem decode_of_imageOp (h : 1 ≤ opField w ∧ opField w ≤ 5) : ∃ mk, decode w = decodeImage w mk := by
  have hop : opField w = 1 ∨ opField w = 2 ∨ opField w = 3 ∨ opField w = 4 ∨ opField w = 5 := by omega
  unfold decode
  rw [if_neg hz]
  rcases hop with h | h | h | h | h <;> rw [h] <;> exact ⟨_, rfl⟩

theorem decode_of_fromCanonOp (h : opField w = 6) : decode w = decodeFromCanon w := by
  unfold decode
  rw [if_neg hz, h]
  rfl

theorem decode_of_lzwOp (h : opField w = 7 ∨ opField w = 8) : ∃ mk, decode w = decodeLzw w mk := by
  unfold decode
  rw [if_neg hz]
  rcases h with h | h <;> rw [h] <;> exact ⟨_, rfl⟩

end ByOp

/-- Which words the decoder refuses, in the order of 30_encoding.md R100: the zero bits, then each class of OP. -/
theorem decode_error_iff (w : Word) :
    (∃ e, decode w = .error e) ↔
      (zeroHiField w ≠ 0 ∨ zeroLoField w ≠ 0) ∨ (opField w = 0 ∨ 9 ≤ opField w) ∨
      ((1 ≤ opField w ∧ opField w ≤ 5) ∧ (dropaField w ≠ 0 ∨ nexpField w ≠ 0)) ∨
      (opField w = 6 ∧ (nexpField w ≠ 0 ∨ (dropaField w ≠ 0 ∧ ch4Field w ≠ 1))) ∨
      ((opField w = 7 ∨ opField w = 8) ∧ (dropaField w ≠ 0 ∨ ch4Field w ≠ 0)) := by
  by_cases hz : zeroHiField w ≠ 0 ∨ zeroLoField w ≠ 0
  · exact iff_of_true ⟨_, decode_of_zeroBitsSet hz⟩ (.inl hz)
  have hop : (opField w = 0 ∨ 9 ≤ opField w) ∨ (1 ≤ opField w ∧ opField w ≤ 5) ∨ opField w = 6 ∨
      (opField w = 7 ∨ opField w = 8) := by omega
  rcases hop with hun | himg | hcan | hlzw
  · exact iff_of_true ⟨_, decode_of_opUnassigned hz hun⟩ (.inr (.inl hun))
  · obtain ⟨mk, hd⟩ := decode_of_imageOp hz himg
    rw [hd, decodeImage_error_iff]
    omega
  · rw [decode_of_fromCanonOp hz hcan, decodeFromCanon_error_iff]
    omega
  · obtain ⟨mk, hd⟩ := decode_of_lzwOp hz hlzw
    rw [hd, decodeLzw_error_iff]
    omega

namespace Machine

/-! ## The completion of an illegal word -/

theorem blockStep_of_decode_error {s : State} {e : Illegal} (hb : s.busy = true) (hd : decode s.cmd = .error e) :
    blockStep s = .next (s.takeError .illegalCmd 0) := by
  rcases blockStep_cases s with ⟨hidle, -⟩ | ⟨-, -, hstep⟩ | ⟨i, -, hok, -⟩
  · exact absurd (hb.symm.trans hidle) (by decide)
  · exact hstep
  · cases hd.symm.trans hok

/-- Settles O5: the classes of R100 are regrouped as R95 lists them, CH4 and DROPA being single bits. -/
theorem illegalWordsCompleteWithIllegalCmd : Obligations.IllegalWordsCompleteWithIllegalCmd := by
  unfold Obligations.IllegalWordsCompleteWithIllegalCmd
  refine fun w => ⟨?_, fun s hbusy herr => ?_, ?_⟩
  · have hop := opField_lt w
    have hch4 := ch4Field_lt w
    have hdropa := dropaField_lt w
    rw [decode_error_iff]
    omega
  · rw [State.writeOffset_cmd, if_pos (s.accepts_iff.mpr ⟨hbusy, herr⟩)]
  · rintro s hbusy rfl ⟨e, hd⟩
    exact ⟨_, blockStep_of_decode_error hbusy hd, rfl, rfl, rfl, rfl⟩

end Machine

end Sys2Proof
end

section
/-! The commands that check their operands and then write one image, and the pixel conversions among them
(41_pixel_format.md R120 to R125). Settles O29, O30 and O31. -/

namespace Sys2Proof.Machine

/-! ## Checks, then work -/

/-- The rule of command `i` is `checked` with this zero test and these two regions, then `work`. -/
def ChecksThen (i : Instr) (zero : State → Prop) (src dst : State → Nat) (work : State → CmdResult) : Prop :=
  ∀ s : State, ∃ b : Bool, (b = true ↔ zero s) ∧
    commandResult i s = checked b s.memSize (s.srcRegion (src s)) (s.dstRegion (dst s)) fun _ => work s

theorem srcRegion_overlaps_dstRegion (s : State) (n m : Nat) :
    (s.srcRegion n).overlaps (s.dstRegion m) = true ↔ s.regionsShare n m :=
  Region.overlaps_iff _ _

section Checks

variable {i : Instr} {zero : State → Prop} {src dst : State → Nat} {work : State → CmdResult}

theorem ChecksThen.checksInOrder (h : ChecksThen i zero src dst work) : ChecksInOrder i zero src dst := by
  intro s
  obtain ⟨b, hb, hr⟩ := h s
  rw [exec_eq_complete, hr]
  refine ⟨fun hz => ?_, fun hz hfit => ?_, fun hz ⟨hsrc, hdst⟩ hshare => ?_⟩
  · rw [hb.mpr hz, checked_zero, State.complete_err]
  · rw [Bool.eq_false_iff.mpr (mt hb.mp hz),
      checked_range (src := s.srcRegion (src s)) (dst := s.dstRegion (dst s)) hfit, State.complete_err]
  · rw [Bool.eq_false_iff.mpr (mt hb.mp hz),
      checked_overlap hsrc hdst ((srcRegion_overlaps_dstRegion s _ _).mpr hshare), State.complete_err]

theorem ChecksThen.exec_of_passes (h : ChecksThen i zero src dst work) {s : State}
    (hp : s.passesChecks zero src dst) : exec i s = .next (s.complete (work s)) := by
  obtain ⟨b, hb, hr⟩ := h s
  obtain ⟨hz, ⟨hsrc, hdst⟩, hshare⟩ := hp
  rw [exec_eq_complete, hr, Bool.eq_false_iff.mpr (mt hb.mp hz),
    checked_pass hsrc hdst (Bool.eq_false_iff.mpr (mt (srcRegion_overlaps_dstRegion s _ _).mp hshare))]

end Checks

/-! ## Completion with an image -/

/-- A destination that fits beside a non-empty source is shorter than MEM, so RESULT_LEN can hold its length. -/
theorem dst_len_lt_of_disjoint {s : State} {n m : Nat} (hsize : s.memSize ≤ 2 ^ 32) (hn : 0 < n)
    (hfit : s.regionsFit n m) (hdisj : ¬s.regionsShare n m) : m < 2 ^ 32 := by
  obtain ⟨hsrc, hdst⟩ := hfit
  unfold State.regionsShare at hdisj
  omega

theorem succeeds_finish (s : State) {bytes : List Byte} {len aux : Nat} (hlen : bytes.length = len)
    (hlt : len < 2 ^ 32) (haux : aux < 2 ^ 32) : Succeeds s (s.finish bytes len aux) len aux where
  operands := complete_keepsOperands s (.ok bytes len aux)
  err := rfl
  errCode := rfl
  errInfo := rfl
  busy := rfl
  done := rfl
  resultLen := registerValue_toNat hlt
  resultAux := registerValue_toNat haux
  mem _ ha := Memory.read_writeBytes_outside (hlen ▸ ha)

theorem read_finish_gather (s : State) {n j : Nat} (f : Nat → Byte) (len aux : Nat) (hj : j < n) :
    (s.finish (gather n f) len aux).mem.read (s.dstAddr.toNat + j) = f j := by
  rw [State.finish_mem, Memory.read_writeBytes_inside (by simpa using hj), getElem_gather]

/-! ## Pixel conversion -/

theorem zeroSource_iff (s : State) : (s.srcW = 0#32 || s.srcH = 0#32) = true ↔ s.zeroSource := by
  simp [State.zeroSource]

theorem pixels_pos {s : State} (h : ¬s.zeroSource) : 0 < s.pixels := by
  obtain ⟨hw, hh⟩ := not_or.mp h
  exact Nat.mul_pos (Nat.pos_of_ne_zero fun e => hw (BitVec.eq_of_toNat_eq e))
    (Nat.pos_of_ne_zero fun e => hh (BitVec.eq_of_toNat_eq e))

/-- Channel k of destination pixel p comes from the exchanged channel of source pixel p. -/
theorem convertOffset_pixel (c : Nat) {d k : Nat} (p : Nat) (hk : k < d) :
    convertOffset c d (d * p + k) = c * p + swapChannel k := by
  have hd : 0 < d := Nat.zero_lt_of_lt hk
  rw [convertOffset, Nat.mul_add_div hd, Nat.div_eq_of_lt hk, Nat.add_zero, Nat.mul_add_mod, Nat.mod_eq_of_lt hk]

/-- Byte k of pixel p lies inside an image of n pixels. -/
theorem pixel_byte_lt {n d p k : Nat} (hp : p < n) (hk : k < d) : d * p + k < n * d :=
  calc d * p + k < d * p + d := Nat.add_lt_add_left hk _
    _ = (p + 1) * d := by ring
    _ ≤ n * d := Nat.mul_le_mul_right d hp

/-- What `convertPixels` does once its checks have passed. -/
def convertedImage (c d : Nat) (s : State) : CmdResult :=
  .ok (gather (s.pixels * d) fun i => s.srcByte (convertOffset c d i)) (s.pixels * d) 0

theorem checksThen_of_convertPixels {i : Instr} {c d : Nat} (h : ∀ s, commandResult i s = convertPixels c d s) :
    ChecksThen i State.zeroSource (fun s => s.pixels * c) (fun s => s.pixels * d) (convertedImage c d) :=
  fun s => ⟨_, zeroSource_iff s, h s⟩

/-- In `t` every destination pixel of d bytes holds the source pixel of `s`, of c bytes, in the other order
(41_pixel_format.md R121). -/
def PixelsExchanged (c d : Nat) (s t : State) : Prop :=
  ∀ p < s.pixels, ∀ k < d,
    t.mem.read (s.dstAddr.toNat + d * p + k) = s.mem.read (s.srcAddr.toNat + c * p + swapChannel k)

theorem pixelsExchanged_convertedImage (c d : Nat) (s : State) :
    PixelsExchanged c d s (s.complete (convertedImage c d s)) := by
  intro p hp k hk
  rw [convertedImage, State.complete_ok, Nat.add_assoc, read_finish_gather s _ _ _ (pixel_byte_lt hp hk),
    convertOffset_pixel c p hk, State.srcByte, Nat.add_assoc]

/-- A conversion that passes its checks succeeds, with every pixel exchanged. -/
theorem exec_of_convertPixels {i : Instr} {c d : Nat} (h : ∀ s, commandResult i s = convertPixels c d s) (hc : 0 < c)
    {s : State} (hsize : s.memSize ≤ 2 ^ 32)
    (hp : s.passesChecks State.zeroSource (fun s => s.pixels * c) (fun s => s.pixels * d)) :
    ∃ t, exec i s = .next t ∧ Succeeds s t (s.pixels * d) 0 ∧ PixelsExchanged c d s t := by
  refine ⟨_, (checksThen_of_convertPixels h).exec_of_passes hp, ?_, pixelsExchanged_convertedImage c d s⟩
  obtain ⟨hz, hfit, hshare⟩ := hp
  have hlt : s.pixels * d < 2 ^ 32 := dst_len_lt_of_disjoint hsize (Nat.mul_pos (pixels_pos hz) hc) hfit hshare
  exact succeeds_finish s (length_gather _ _) hlt (Nat.two_pow_pos 32)

/-- Bytes 0 and 2 of every pixel change places and byte 1 is copied. -/
theorem PixelsExchanged.colour_bytes {c d : Nat} {s t : State} (h : PixelsExchanged c d s t) (hd : 3 ≤ d) {p : Nat}
    (hp : p < s.pixels) :
    t.mem.read (s.dstAddr.toNat + d * p) = s.mem.read (s.srcAddr.toNat + c * p + 2) ∧
    t.mem.read (s.dstAddr.toNat + d * p + 1) = s.mem.read (s.srcAddr.toNat + c * p + 1) ∧
    t.mem.read (s.dstAddr.toNat + d * p + 2) = s.mem.read (s.srcAddr.toNat + c * p) :=
  ⟨h p hp 0 (by omega), h p hp 1 (by omega), h p hp 2 (by omega)⟩

/-- Byte 3 of every pixel, the alpha, is copied where the destination has one. -/
theorem PixelsExchanged.alpha_byte {c d : Nat} {s t : State} (h : PixelsExchanged c d s t) (hd : 4 ≤ d) {p : Nat}
    (hp : p < s.pixels) :
    t.mem.read (s.dstAddr.toNat + d * p + 3) = s.mem.read (s.srcAddr.toNat + c * p + 3) :=
  h p hp 3 hd

theorem three_le_channelCount (c : Channels) : 3 ≤ channelCount c := by cases c <;> decide

/-- PIX.TOCANON and PIX.FROMCANON are one conversion between images of the same channel count (41_pixel_format.md R122,
R123): the checks in their order, else success with bytes 0 and 2 exchanged and the others copied. -/
theorem sameChannels_command {i : Instr} {c : Channels}
    (h : ∀ s, commandResult i s = convertPixels (channelCount c) (channelCount c) s) :
    let size (s : State) : Nat := s.pixels * channelCount c
    ChecksInOrder i State.zeroSource size size ∧
    ∀ s : State, s.memSize ≤ 2 ^ 32 → s.passesChecks State.zeroSource size size →
      ∃ t, exec i s = .next t ∧ Succeeds s t (size s) 0 ∧
        ∀ p < s.pixels,
          let src := s.srcAddr.toNat + channelCount c * p
          let dst := s.dstAddr.toNat + channelCount c * p
          t.mem.read dst = s.mem.read (src + 2) ∧ t.mem.read (dst + 1) = s.mem.read (src + 1) ∧
          t.mem.read (dst + 2) = s.mem.read src ∧ (c = .four → t.mem.read (dst + 3) = s.mem.read (src + 3)) := by
  have hthree := three_le_channelCount c
  refine ⟨(checksThen_of_convertPixels h).checksInOrder, fun s hsize hpass => ?_⟩
  obtain ⟨t, ht, hsucc, hpix⟩ := exec_of_convertPixels h (Nat.zero_lt_of_lt hthree) hsize hpass
  refine ⟨t, ht, hsucc, fun p hp => ?_⟩
  obtain ⟨h0, h1, h2⟩ := hpix.colour_bytes hthree hp
  refine ⟨h0, h1, h2, ?_⟩
  rintro rfl
  exact hpix.alpha_byte le_rfl hp

/-! ## The statements -/

/-- Settles O29. -/
theorem pixToCanonCommand : Obligations.PixToCanonCommand := by
  unfold Obligations.PixToCanonCommand
  exact ⟨rfl, rfl, fun _ => sameChannels_command fun _ => rfl⟩

/-- Settles O30. -/
theorem pixFromCanonCommand : Obligations.PixFromCanonCommand := by
  unfold Obligations.PixFromCanonCommand
  exact ⟨rfl, rfl, fun _ => sameChannels_command fun _ => rfl⟩

/-- Settles O31. -/
theorem pixFromCanonDaCommand : Obligations.PixFromCanonDaCommand := by
  unfold Obligations.PixFromCanonDaCommand
  have hrule (s : State) : commandResult .pixFromCanonDa s = convertPixels 4 3 s := rfl
  refine ⟨rfl, (checksThen_of_convertPixels hrule).checksInOrder, fun s hsize hp => ?_⟩
  obtain ⟨t, ht, hsucc, hpix⟩ := exec_of_convertPixels hrule (by decide) hsize hp
  exact ⟨t, ht, hsucc, fun _ hlt => hpix.colour_bytes le_rfl hlt⟩

end Sys2Proof.Machine
end

section
/-! The scalers: the integer forms that SCALE.BL and SCALE.BC run are the exact rational forms (42_scalers.md R150, R151,
R160, R162), and the image they store. Settles O37 and O38. -/

namespace Sys2Proof.Machine

/-! ## A source coordinate n/d: its whole part and its fraction -/

theorem floor_natCast_div (n d : Nat) : ((n : ℚ) / d).floor = ((n / d : Nat) : ℤ) :=
  (Rat.floor_natCast_div_natCast n d).trans (Int.natCast_ediv n d).symm

theorem natCast_div_sub_div (n : Nat) {d : Nat} (hd : 0 < d) : (n : ℚ) / d - (n / d : Nat) = (n % d : Nat) / d := by
  have hd' : (d : ℚ) ≠ 0 := Nat.cast_ne_zero.mpr hd.ne'
  have hn : (d : ℚ) * (n / d : Nat) + (n % d : Nat) = n := by exact_mod_cast Nat.div_add_mod n d
  rw [div_sub' hd', ← hn, add_sub_cancel_left]

/-! ## SCALE.BL -/

/-- The numerator of the blend of four taps, with the weights q and r of the columns and u and v of the rows
(42_scalers.md R151). -/
def blendSum (a b c d q r u v : Nat) : Nat := a * q * u + b * r * u + c * v * q + d * r * v

/-- The weights of a blend sum to w*h, so it is at most that many times any bound of the taps. -/
theorem blendSum_le {a b c d m w h r v : Nat} (ha : a ≤ m) (hb : b ≤ m) (hc : c ≤ m) (hd : d ≤ m) (hr : r ≤ w)
    (hv : v ≤ h) : blendSum a b c d (w - r) r (h - v) v ≤ m * (w * h) :=
  calc blendSum a b c d (w - r) r (h - v) v ≤ blendSum m m m m (w - r) r (h - v) v := by unfold blendSum; gcongr
    _ = m * ((w - r + r) * (h - v + v)) := by unfold blendSum; ring
    _ = m * (w * h) := by rw [Nat.sub_add_cancel hr, Nat.sub_add_cancel hv]

/-- The blend at the fractions r/w and v/h is its numerator over w*h. -/
theorem blend_eq_blendSum_div (a b c d : Nat) {w h r v : Nat} (hr : r < w) (hv : v < h) :
    (a : ℚ) * (1 - r / w) * (1 - v / h) + b * (r / w) * (1 - v / h) + c * (v / h) * (1 - r / w) + d * (r / w) * (v / h) =
      (blendSum a b c d (w - r) r (h - v) v : Nat) / (w * h : Nat) := by
  have hw : (w : ℚ) ≠ 0 := Nat.cast_ne_zero.mpr (Nat.ne_zero_of_lt hr)
  have hh : (h : ℚ) ≠ 0 := Nat.cast_ne_zero.mpr (Nat.ne_zero_of_lt hv)
  simp only [blendSum, Nat.cast_add, Nat.cast_mul, Nat.cast_sub hr.le, Nat.cast_sub hv.le]
  field_simp

/-- The numerator of SCALE.BL's value, over newW*newH (42_scalers.md R151, R152). -/
def bilinearSum (sample : Sampler) (oldW oldH newW newH dx dy k : Nat) : Nat :=
  let x := (oldW - 1) * dx / newW
  let y := (oldH - 1) * dy / newH
  let x1 := min (x + 1) (oldW - 1)
  let y1 := min (y + 1) (oldH - 1)
  let rx := (oldW - 1) * dx % newW
  let ry := (oldH - 1) * dy % newH
  blendSum (sample x y k) (sample x1 y k) (sample x y1 k) (sample x1 y1 k) (newW - rx) rx (newH - ry) ry

theorem bilinearValue_eq_div (sample : Sampler) (oldW oldH newW newH dx dy k : Nat) :
    bilinearValue sample oldW oldH newW newH dx dy k =
      bilinearSum sample oldW oldH newW newH dx dy k / (newW * newH) := rfl

/-- The coordinate of 42_scalers.md R150 as one quotient. -/
theorem bilinearCoordinate_eq {old : Nat} (h : 0 < old) (new d : Nat) :
    ((old : ℚ) - 1) / new * d = ((old - 1) * d : Nat) / new := by
  rw [Nat.cast_mul, Nat.cast_pred h, div_mul_eq_mul_div]

section Bilinear

variable (sample : Sampler) {oldW oldH newW newH : Nat}

theorem bilinearExact_eq_div (how : 0 < oldW) (hoh : 0 < oldH) (hw : 0 < newW) (hh : 0 < newH) (dx dy k : Nat) :
    bilinearExact sample oldW oldH newW newH dx dy k =
      bilinearSum sample oldW oldH newW newH dx dy k / (newW * newH : Nat) := by
  simp only [bilinearExact, bilinearCoordinate_eq how, bilinearCoordinate_eq hoh, floor_natCast_div, Int.toNat_natCast,
    natCast_div_sub_div _ hw, natCast_div_sub_div _ hh]
  exact blend_eq_blendSum_div _ _ _ _ (Nat.mod_lt _ hw) (Nat.mod_lt _ hh)

/-- The integer form of SCALE.BL is the floor of the exact blend (42_scalers.md R151). -/
theorem bilinearValue_eq_floor (how : 0 < oldW) (hoh : 0 < oldH) (hw : 0 < newW) (hh : 0 < newH) (dx dy k : Nat) :
    (bilinearValue sample oldW oldH newW newH dx dy k : ℤ) = ⌊bilinearExact sample oldW oldH newW newH dx dy k⌋ := by
  rw [bilinearExact_eq_div sample how hoh hw hh, Rat.floor_natCast_div_natCast, bilinearValue_eq_div, Int.natCast_ediv]

variable {sample}

theorem bilinearValue_le {m k : Nat} (h : ∀ x y, sample x y k ≤ m) (oldW oldH : Nat) (hw : 0 < newW) (hh : 0 < newH)
    (dx dy : Nat) : bilinearValue sample oldW oldH newW newH dx dy k ≤ m := by
  have hsum : bilinearSum sample oldW oldH newW newH dx dy k ≤ m * (newW * newH) :=
    blendSum_le (h _ _) (h _ _) (h _ _) (h _ _) (Nat.mod_lt _ hw).le (Nat.mod_lt _ hh).le
  rw [bilinearValue_eq_div]
  exact Nat.div_le_of_le_mul (hsum.trans_eq (Nat.mul_comm _ _))

end Bilinear

/-! ## SCALE.BC -/

/-- The kernel at the fraction r/n is the sum of the integer weights over 2n³ (42_scalers.md R161, R162). -/
theorem cubicKernel_eq_weights (r : Nat) {n : Nat} (hn : 0 < n) (q0 q1 q2 q3 : ℚ) :
    cubicKernel ((r : ℚ) / n) q0 q1 q2 q3 =
      (cubicWeight r n 0 * q0 + cubicWeight r n 1 * q1 + cubicWeight r n 2 * q2 + cubicWeight r n 3 * q3) /
        (2 * (n : ℚ) ^ 3) := by
  have hn' : (n : ℚ) ≠ 0 := Nat.cast_ne_zero.mpr hn.ne'
  simp only [cubicKernel, cubicWeight]
  push_cast
  field_simp
  ring

/-- The sixteen taps with their integer weights, for the fractions rx/w and ry/h (42_scalers.md R162). -/
def weightedTaps (rx w ry h : ℤ) (tap : Nat → Nat → Nat) : ℤ :=
  sumTaps fun j => sumTaps fun i => cubicWeight ry h j * cubicWeight rx w i * tap i j

/-- The kernel at the fraction t along row j of the sixteen taps (42_scalers.md R160). -/
def kernelRow (t : ℚ) (tap : Nat → Nat → Nat) (j : Nat) : ℚ :=
  cubicKernel t (tap 0 j) (tap 1 j) (tap 2 j) (tap 3 j)

/-- The denominator of SCALE.BC's exact value, for a destination of w by h (42_scalers.md R162). -/
def bicubicDen (w h : Nat) : ℤ := 4 * (w : ℤ) ^ 3 * (h : ℤ) ^ 3

theorem bicubicDen_pos {w h : Nat} (hw : 0 < w) (hh : 0 < h) : 0 < bicubicDen w h := by
  unfold bicubicDen
  positivity

/-- The kernel along four rows and then down the column is the weighted sum of the sixteen taps over that denominator. -/
theorem cubicKernel_rows_eq (rx ry : Nat) {w h : Nat} (hw : 0 < w) (hh : 0 < h) (tap : Nat → Nat → Nat) :
    cubicKernel ((ry : ℚ) / h) (kernelRow (rx / w) tap 0) (kernelRow (rx / w) tap 1) (kernelRow (rx / w) tap 2)
        (kernelRow (rx / w) tap 3) =
      weightedTaps rx w ry h tap / bicubicDen w h := by
  have hw' : (w : ℚ) ≠ 0 := Nat.cast_ne_zero.mpr hw.ne'
  have hh' : (h : ℚ) ≠ 0 := Nat.cast_ne_zero.mpr hh.ne'
  simp only [cubicKernel_eq_weights ry hh, kernelRow, cubicKernel_eq_weights rx hw, weightedTaps, sumTaps, bicubicDen]
  push_cast
  field_simp
  ring

/-- Rounding half up of a quotient of integers (42_scalers.md R162). -/
theorem floor_div_add_half (n : ℤ) {d : ℤ} (hd : 0 < d) : ⌊(n : ℚ) / d + 1 / 2⌋ = (2 * n + d) / (2 * d) := by
  have hd' : (d : ℚ) ≠ 0 := Int.cast_ne_zero.mpr hd.ne'
  have hsum : (n : ℚ) / d + 1 / 2 = ((2 * n + d : ℤ) : ℚ) / ((2 * d : ℤ) : ℚ) := by
    push_cast
    field_simp
  lift d to ℕ using hd.le
  rw [hsum]
  exact_mod_cast Rat.floor_intCast_div_natCast (2 * n + d) (2 * d)

/-- The coordinate of 42_scalers.md R160 as one quotient. -/
theorem bicubicCoordinate_eq (old new d : Nat) : (d : ℚ) * ((old : ℚ) / new) = (d * old : Nat) / new := by
  rw [Nat.cast_mul, mul_div_assoc]

/-- Tap i, j of the four by four around the source coordinate (42_scalers.md R160, R163). -/
def bicubicTap (sample : Sampler) (oldW oldH newW newH dx dy k i j : Nat) : Nat :=
  sample (cubicTap (dx * oldW / newW) oldW i) (cubicTap (dy * oldH / newH) oldH j) k

/-- The numerator of SCALE.BC's exact value, over `bicubicDen newW newH` (42_scalers.md R162). -/
def bicubicSum (sample : Sampler) (oldW oldH newW newH dx dy k : Nat) : ℤ :=
  weightedTaps (dx * oldW % newW : Nat) newW (dy * oldH % newH : Nat) newH
    (bicubicTap sample oldW oldH newW newH dx dy k)

theorem bicubicExact_eq_div (sample : Sampler) (oldW oldH : Nat) {newW newH : Nat} (hw : 0 < newW) (hh : 0 < newH)
    (dx dy k : Nat) :
    bicubicExact sample oldW oldH newW newH dx dy k =
      bicubicSum sample oldW oldH newW newH dx dy k / bicubicDen newW newH := by
  simp only [bicubicExact, bicubicCoordinate_eq, floor_natCast_div, Int.toNat_natCast, natCast_div_sub_div _ hw,
    natCast_div_sub_div _ hh]
  exact cubicKernel_rows_eq (dx * oldW % newW) (dy * oldH % newH) hw hh (bicubicTap sample oldW oldH newW newH dx dy k)

theorem bicubicValue_eq_clamp_div (sample : Sampler) (oldW oldH newW newH dx dy k : Nat) :
    bicubicValue sample oldW oldH newW newH dx dy k =
      (clamp ((2 * bicubicSum sample oldW oldH newW newH dx dy k + bicubicDen newW newH) / (2 * bicubicDen newW newH))
        0 255).toNat := rfl

/-- The integer form of SCALE.BC is the exact value rounded half up and clamped (42_scalers.md R162). -/
theorem bicubicValue_eq_clamp (sample : Sampler) (oldW oldH : Nat) {newW newH : Nat} (hw : 0 < newW) (hh : 0 < newH)
    (dx dy k : Nat) :
    (bicubicValue sample oldW oldH newW newH dx dy k : ℤ) =
      max 0 (min 255 ⌊bicubicExact sample oldW oldH newW newH dx dy k + 1 / 2⌋) := by
  rw [bicubicExact_eq_div sample oldW oldH hw hh, floor_div_add_half _ (bicubicDen_pos hw hh), bicubicValue_eq_clamp_div]
  exact Int.toNat_of_nonneg (le_max_left _ _)

theorem bicubicValue_le (sample : Sampler) (oldW oldH newW newH dx dy k : Nat) :
    bicubicValue sample oldW oldH newW newH dx dy k ≤ 255 :=
  Int.toNat_le.mpr (max_le (by decide) (min_le_left _ _))

/-! ## The commands -/

theorem zeroImage_iff (s : State) :
    (s.srcW = 0#32 || s.srcH = 0#32 || s.dstW = 0#32 || s.dstH = 0#32) = true ↔ s.zeroImage := by
  simp [State.zeroImage, State.zeroSource, or_assoc]

theorem State.sample_le (s : State) (oldW c x y k : Nat) : s.sample oldW c x y k ≤ 255 :=
  Nat.le_of_lt_succ (BitVec.isLt _)

/-- The number of bytes of the destination image (42_scalers.md R142). -/
def State.scaledBytes (s : State) (c : Nat) : Nat := s.dstW.toNat * s.dstH.toNat * c

/-- What a scaler computes: the byte at a destination column, row and channel, from the sample function and the sizes. -/
abbrev Scaling (α : Type) := Sampler → Nat → Nat → Nat → Nat → Nat → Nat → Nat → α

/-- The destination byte at column dx, row dy, channel k. -/
def scaledByte (value : Scaling Nat) (c : Nat) (s : State) (dx dy k : Nat) : Nat :=
  value (s.sample s.srcW.toNat c) s.srcW.toNat s.srcH.toNat s.dstW.toNat s.dstH.toNat dx dy k

/-- What `scaleImage` does once its checks have passed. -/
def scaledImage (value : Scaling Nat) (c : Nat) (s : State) : CmdResult :=
  .ok (gather (s.scaledBytes c) fun q =>
      BitVec.ofNat 8 (scaledByte value c s (q / c % s.dstW.toNat) (q / c / s.dstW.toNat) (q % c)))
    (s.scaledBytes c) 0

theorem checksThen_of_scaleImage {i : Instr} {value : Scaling Nat} {c : Nat}
    (h : ∀ s, commandResult i s = scaleImage value c s) :
    ChecksThen i State.zeroImage (fun s => s.pixels * c) (fun s => s.scaledBytes c) (scaledImage value c) :=
  fun s => ⟨_, zeroImage_iff s, h s⟩

/-- The byte stored at the place of column dx, row dy, channel k (42_scalers.md R142). -/
theorem read_scaledImage (value : Scaling Nat) {c : Nat} (s : State) {dx dy k : Nat} (hdx : dx < s.dstW.toNat)
    (hdy : dy < s.dstH.toNat) (hk : k < c) :
    (s.complete (scaledImage value c s)).mem.read (s.dstAddr.toNat + (c * (dy * s.dstW.toNat + dx) + k)) =
      BitVec.ofNat 8 (scaledByte value c s dx dy k) := by
  have hpixel : dy * s.dstW.toNat + dx < s.dstW.toNat * s.dstH.toNat := by
    rw [Nat.mul_comm dy, Nat.mul_comm s.dstW.toNat s.dstH.toNat]
    exact pixel_byte_lt hdy hdx
  have hbyte : c * (dy * s.dstW.toNat + dx) + k < s.scaledBytes c := pixel_byte_lt hpixel hk
  have hdiv : (c * (dy * s.dstW.toNat + dx) + k) / c = dy * s.dstW.toNat + dx := by
    rw [Nat.mul_add_div (Nat.zero_lt_of_lt hk), Nat.div_eq_of_lt hk, Nat.add_zero]
  have hcol : (dy * s.dstW.toNat + dx) % s.dstW.toNat = dx := by rw [Nat.mul_add_mod', Nat.mod_eq_of_lt hdx]
  have hrow : (dy * s.dstW.toNat + dx) / s.dstW.toNat = dy := by
    rw [Nat.mul_comm, Nat.mul_add_div (Nat.zero_lt_of_lt hdx), Nat.div_eq_of_lt hdx, Nat.add_zero]
  rw [scaledImage, State.complete_ok, read_finish_gather s _ _ _ hbyte, hdiv, hcol, hrow,
    Nat.mul_add_mod, Nat.mod_eq_of_lt hk]

/-- `value` computes the byte that `spec` states, for every image of bytes and all sizes from 1. -/
def ComputesByte (value : Scaling Nat) (spec : Scaling ℤ) : Prop :=
  ∀ (sample : Sampler) (oldW oldH newW newH dx dy k : Nat), (∀ x y, sample x y k ≤ 255) → 0 < oldW → 0 < oldH →
    0 < newW → 0 < newH →
    value sample oldW oldH newW newH dx dy k ≤ 255 ∧
      (value sample oldW oldH newW newH dx dy k : ℤ) = spec sample oldW oldH newW newH dx dy k

theorem bilinearValue_computesByte :
    ComputesByte bilinearValue fun sample oldW oldH newW newH dx dy k =>
      ⌊bilinearExact sample oldW oldH newW newH dx dy k⌋ :=
  fun sample oldW oldH _ _ dx dy k hs how hoh hw hh =>
    ⟨bilinearValue_le hs oldW oldH hw hh dx dy, bilinearValue_eq_floor sample how hoh hw hh dx dy k⟩

theorem bicubicValue_computesByte :
    ComputesByte bicubicValue fun sample oldW oldH newW newH dx dy k =>
      max 0 (min 255 ⌊bicubicExact sample oldW oldH newW newH dx dy k + 1 / 2⌋) :=
  fun sample oldW oldH _ _ dx dy k _ _ _ hw hh =>
    ⟨bicubicValue_le sample oldW oldH _ _ dx dy k, bicubicValue_eq_clamp sample oldW oldH hw hh dx dy k⟩

theorem toNat_pos_of_ne_zero {w : Word} (h : w ≠ 0#32) : 0 < w.toNat :=
  Nat.pos_of_ne_zero fun e => h (BitVec.eq_of_toNat_eq e)

/-- The common rule of the two scalers (42_scalers.md R142, R143): the checks in their order, else success with every
destination byte as `spec` states it. -/
theorem scale_command {i : Instr} {value : Scaling Nat} {spec : Scaling ℤ} {ch : Channels}
    (h : ∀ s, commandResult i s = scaleImage value (channelCount ch) s) (hv : ComputesByte value spec) :
    let c := channelCount ch
    let src (s : State) : Nat := s.srcW.toNat * s.srcH.toNat * c
    let dst (s : State) : Nat := s.dstW.toNat * s.dstH.toNat * c
    ChecksInOrder i State.zeroImage src dst ∧
    ∀ s : State, s.memSize ≤ 2 ^ 32 → s.passesChecks State.zeroImage src dst →
      ∃ t, exec i s = .next t ∧ Succeeds s t (dst s) 0 ∧
        ∀ dx < s.dstW.toNat, ∀ dy < s.dstH.toNat, ∀ k < c,
          ((t.mem.read (s.dstAddr.toNat + (c * (dy * s.dstW.toNat + dx) + k))).toNat : ℤ) =
            spec (s.sample s.srcW.toNat c) s.srcW.toNat s.srcH.toNat s.dstW.toNat s.dstH.toNat dx dy k := by
  have hrule := checksThen_of_scaleImage h
  refine ⟨hrule.checksInOrder, fun s hsize hpass => ⟨_, hrule.exec_of_passes hpass, ?_, fun dx hdx dy hdy k hk => ?_⟩⟩
  · obtain ⟨hzero, hfit, hshare⟩ := hpass
    have hc : 0 < channelCount ch := Nat.zero_lt_of_lt (three_le_channelCount ch)
    have hsrc : 0 < s.pixels * channelCount ch := Nat.mul_pos (pixels_pos (not_or.mp hzero).1) hc
    exact succeeds_finish s (length_gather _ _) (dst_len_lt_of_disjoint hsize hsrc hfit hshare) (Nat.two_pow_pos 32)
  · obtain ⟨hzero, -, -⟩ := hpass
    obtain ⟨hw, hh⟩ := not_or.mp (not_or.mp hzero).1
    obtain ⟨hle, heq⟩ := hv (s.sample s.srcW.toNat (channelCount ch)) s.srcW.toNat s.srcH.toNat s.dstW.toNat
      s.dstH.toNat dx dy k (fun x y => s.sample_le _ _ x y k) (toNat_pos_of_ne_zero hw) (toNat_pos_of_ne_zero hh)
      (Nat.zero_lt_of_lt hdx) (Nat.zero_lt_of_lt hdy)
    rw [read_scaledImage value s hdx hdy hk, scaledByte, BitVec.toNat_ofNat, Nat.mod_eq_of_lt (by omega)]
    exact heq

/-! ## The statements -/

/-- Settles O37. -/
theorem scaleBlCommand : Obligations.ScaleBlCommand := by
  unfold Obligations.ScaleBlCommand
  exact ⟨rfl, rfl, fun _ => scale_command (fun _ => rfl) bilinearValue_computesByte⟩

/-- Settles O38. -/
theorem scaleBcCommand : Obligations.ScaleBcCommand := by
  unfold Obligations.ScaleBcCommand
  exact ⟨rfl, rfl, fun _ => scale_command (fun _ => rfl) bicubicValue_computesByte⟩

end Sys2Proof.Machine
end

section
/-! bmp_row_padder (43_row_padder.md R180 to R184): the geometry of a padded row, where a byte of a row stands in either
image, and the two commands, which share one completion rule. Settles O33, O34 and O35. -/

namespace Sys2Proof.Machine

/-! ## Row geometry -/

theorem rowPadding_eq (w c : Nat) : rowPadding w c = (4 - rowBytes w c % 4) % 4 := rfl

theorem rowPadding_le (w c : Nat) : rowPadding w c ≤ 3 := by
  rw [rowPadding_eq]
  omega

theorem rowStride_mod_four (w c : Nat) : rowStride w c % 4 = 0 := by
  rw [rowStride, rowPadding_eq]
  omega

theorem rowPadding_of_four (w : Nat) : rowPadding w 4 = 0 := by
  rw [rowPadding_eq, rowBytes, Nat.mul_mod_left]

theorem rowPadding_of_three (w : Nat) : rowPadding w 3 = w % 4 := by
  rw [rowPadding_eq, rowBytes]
  omega

theorem imageBytes_eq_rows (w h c : Nat) : imageBytes w h c = h * rowBytes w c := by
  rw [imageBytes, rowBytes, Nat.mul_comm w h, Nat.mul_assoc]

theorem rowBytes_le_rowStride (w c : Nat) : rowBytes w c ≤ rowStride w c := Nat.le_add_right _ _

/-! ## The bytes of a row -/

/-- Byte i of row y lies inside an image of h rows. -/
theorem row_byte_lt {h len y i : Nat} (hy : y < h) (hi : i < len) : y * len + i < h * len := by
  rw [Nat.mul_comm y]
  exact pixel_byte_lt hy hi

theorem row_div_mod {len i : Nat} (y : Nat) (hi : i < len) : (y * len + i) / len = y ∧ (y * len + i) % len = i :=
  (Nat.div_mod_unique (Nat.zero_lt_of_lt hi)).mpr ⟨by ring, hi⟩

theorem paddedByte_row (src : Nat → Byte) (w c y : Nat) {i : Nat} (hi : i < rowStride w c) :
    paddedByte src w c (y * rowStride w c + i) = if i < rowBytes w c then src (y * rowBytes w c + i) else 0x00#8 := by
  obtain ⟨hdiv, hmod⟩ := row_div_mod y hi
  rw [paddedByte, hdiv, hmod]

theorem unpaddedByte_row (src : Nat → Byte) (w c y : Nat) {i : Nat} (hi : i < rowBytes w c) :
    unpaddedByte src w c (y * rowBytes w c + i) = src (y * rowStride w c + i) := by
  obtain ⟨hdiv, hmod⟩ := row_div_mod y hi
  rw [unpaddedByte, hdiv, hmod, paddedOffset]

/-! ## The common completion -/

/-- What a row command does once its checks have passed: it stores `size` bytes, byte q given by `byte`, and reports their
number and the stride. -/
def rowImage (c : Nat) (size : State → Nat) (byte : State → Nat → Byte) (s : State) : CmdResult :=
  .ok (gather (size s) (byte s)) (size s) (rowStride s.srcW.toNat c)

/-- The bytes of the source image without padding. -/
def State.unpaddedSize (c : Nat) (s : State) : Nat := s.srcH.toNat * rowBytes s.srcW.toNat c

/-- The bytes of the source image with every row padded. -/
def State.paddedSize (c : Nat) (s : State) : Nat := paddedBytes s.srcW.toNat s.srcH.toNat c

theorem checksThen_rowPad (ch : Channels) :
    ChecksThen (.rowPad ch) State.zeroSource (State.unpaddedSize (channelCount ch)) (State.paddedSize (channelCount ch))
      (rowImage (channelCount ch) (State.paddedSize (channelCount ch)) fun s =>
        paddedByte s.srcByte s.srcW.toNat (channelCount ch)) :=
  fun s => ⟨_, zeroSource_iff s, rfl⟩

theorem checksThen_rowUnpad (ch : Channels) :
    ChecksThen (.rowUnpad ch) State.zeroSource (State.paddedSize (channelCount ch)) (State.unpaddedSize (channelCount ch))
      (rowImage (channelCount ch) (State.unpaddedSize (channelCount ch)) fun s =>
        unpaddedByte s.srcByte s.srcW.toNat (channelCount ch)) :=
  fun s => ⟨_, zeroSource_iff s, rfl⟩

theorem unpaddedSize_pos {c : Nat} (hc : 0 < c) {s : State} (hz : ¬s.zeroSource) : 0 < s.unpaddedSize c := by
  obtain ⟨hw, hh⟩ := not_or.mp hz
  exact Nat.mul_pos (toNat_pos_of_ne_zero hh) (Nat.mul_pos (toNat_pos_of_ne_zero hw) hc)

theorem unpaddedSize_le_paddedSize (c : Nat) (s : State) : s.unpaddedSize c ≤ s.paddedSize c :=
  Nat.mul_le_mul_left _ (rowBytes_le_rowStride _ _)

theorem rowStride_le_paddedSize (c : Nat) {s : State} (hz : ¬s.zeroSource) :
    rowStride s.srcW.toNat c ≤ s.paddedSize c :=
  Nat.le_mul_of_pos_left _ (toNat_pos_of_ne_zero (not_or.mp hz).2)

/-- A source that fits beside a non-empty destination is shorter than MEM. -/
theorem src_len_lt_of_disjoint {s : State} {n m : Nat} (hsize : s.memSize ≤ 2 ^ 32) (hm : 0 < m)
    (hfit : s.regionsFit n m) (hdisj : ¬s.regionsShare n m) : n < 2 ^ 32 := by
  obtain ⟨hsrc, hdst⟩ := hfit
  unfold State.regionsShare at hdisj
  omega

/-- A row command that passes its checks succeeds and stores its image at DST_ADDR. One of its two regions is the padded
image, so RESULT_AUX can hold the stride. -/
theorem exec_of_rowImage {i : Instr} {c : Nat} {src dst : State → Nat} {byte : State → Nat → Byte}
    (h : ChecksThen i State.zeroSource src dst (rowImage c dst byte)) {s : State} (hsize : s.memSize ≤ 2 ^ 32)
    (hsrc : 0 < src s) (hdst : 0 < dst s) (hstride : rowStride s.srcW.toNat c ≤ max (src s) (dst s))
    (hp : s.passesChecks State.zeroSource src dst) :
    ∃ t, exec i s = .next t ∧ Succeeds s t (dst s) (rowStride s.srcW.toNat c) ∧
      ∀ q < dst s, t.mem.read (s.dstAddr.toNat + q) = byte s q := by
  refine ⟨_, h.exec_of_passes hp, ?_, fun q hq => read_finish_gather s _ _ _ hq⟩
  obtain ⟨-, hfit, hshare⟩ := hp
  have hsrcLt := src_len_lt_of_disjoint hsize hdst hfit hshare
  have hdstLt := dst_len_lt_of_disjoint hsize hsrc hfit hshare
  exact succeeds_finish s (length_gather _ _) hdstLt (hstride.trans_lt (max_lt hsrcLt hdstLt))

/-! ## The two commands -/

theorem exec_rowPad (ch : Channels) {s : State} (hsize : s.memSize ≤ 2 ^ 32)
    (hp : s.passesChecks State.zeroSource (State.unpaddedSize (channelCount ch)) (State.paddedSize (channelCount ch))) :
    ∃ t, exec (.rowPad ch) s = .next t ∧
      Succeeds s t (s.paddedSize (channelCount ch)) (rowStride s.srcW.toNat (channelCount ch)) ∧
      ∀ y < s.srcH.toNat, ∀ i < rowStride s.srcW.toNat (channelCount ch),
        t.mem.read (s.dstAddr.toNat + y * rowStride s.srcW.toNat (channelCount ch) + i) =
          if i < rowBytes s.srcW.toNat (channelCount ch) then
            s.mem.read (s.srcAddr.toNat + y * rowBytes s.srcW.toNat (channelCount ch) + i)
          else 0x00#8 := by
  have hsrc := unpaddedSize_pos (Nat.zero_lt_of_lt (three_le_channelCount ch)) hp.1
  obtain ⟨t, ht, hsucc, hbytes⟩ := exec_of_rowImage (checksThen_rowPad ch) hsize hsrc
    (hsrc.trans_le (unpaddedSize_le_paddedSize _ s)) (le_max_of_le_right (rowStride_le_paddedSize _ hp.1)) hp
  refine ⟨t, ht, hsucc, fun y hy i hi => ?_⟩
  rw [Nat.add_assoc, hbytes _ (row_byte_lt hy hi), paddedByte_row _ _ _ _ hi, State.srcByte, Nat.add_assoc]

theorem exec_rowUnpad (ch : Channels) {s : State} (hsize : s.memSize ≤ 2 ^ 32)
    (hp : s.passesChecks State.zeroSource (State.paddedSize (channelCount ch)) (State.unpaddedSize (channelCount ch))) :
    ∃ t, exec (.rowUnpad ch) s = .next t ∧
      Succeeds s t (s.unpaddedSize (channelCount ch)) (rowStride s.srcW.toNat (channelCount ch)) ∧
      ∀ y < s.srcH.toNat, ∀ i < rowBytes s.srcW.toNat (channelCount ch),
        t.mem.read (s.dstAddr.toNat + y * rowBytes s.srcW.toNat (channelCount ch) + i) =
          s.mem.read (s.srcAddr.toNat + y * rowStride s.srcW.toNat (channelCount ch) + i) := by
  have hdst := unpaddedSize_pos (Nat.zero_lt_of_lt (three_le_channelCount ch)) hp.1
  obtain ⟨t, ht, hsucc, hbytes⟩ := exec_of_rowImage (checksThen_rowUnpad ch) hsize
    (hdst.trans_le (unpaddedSize_le_paddedSize _ s)) hdst (le_max_of_le_left (rowStride_le_paddedSize _ hp.1)) hp
  refine ⟨t, ht, hsucc, fun y hy i hi => ?_⟩
  rw [Nat.add_assoc, hbytes _ (row_byte_lt hy hi), unpaddedByte_row _ _ _ _ hi, State.srcByte, Nat.add_assoc]

/-! ## The statements -/

/-- Settles O35. -/
theorem rowGeometry : Obligations.RowGeometry := by
  unfold Obligations.RowGeometry
  refine fun w h ch => ⟨rfl, rfl, rfl, rowPadding_le _ _, rowStride_mod_four _ _, ?_, ?_, imageBytes_eq_rows _ _ _, rfl⟩
  · rintro rfl
    exact rowPadding_of_four w
  · rintro rfl
    exact rowPadding_of_three w

/-- Settles O33. The bytes of a row below L are copied, those from L to the stride are its padding. -/
theorem rowPadCommand : Obligations.RowPadCommand := by
  unfold Obligations.RowPadCommand
  refine ⟨rfl, rfl, fun ch => ⟨(checksThen_rowPad ch).checksInOrder, fun s hsize hp => ?_⟩⟩
  obtain ⟨t, ht, hsucc, hbytes⟩ := exec_rowPad ch hsize hp
  refine ⟨t, ht, hsucc, fun y hy => ⟨fun i hi => ?_, fun j hj => ?_⟩⟩
  · exact (hbytes y hy i (Nat.lt_add_right _ hi)).trans (if_pos hi)
  · rw [Nat.add_assoc]
    exact (hbytes y hy _ (Nat.add_lt_add_left hj _)).trans (if_neg (Nat.not_lt.mpr (Nat.le_add_right _ _)))

/-- Settles O34. -/
theorem rowUnpadCommand : Obligations.RowUnpadCommand := by
  unfold Obligations.RowUnpadCommand
  exact ⟨rfl, rfl, fun ch => ⟨(checksThen_rowUnpad ch).checksInOrder, fun _ => exec_rowUnpad ch⟩⟩

end Sys2Proof.Machine
end

section
/-! LZW.ENC (44_lzw_encoder.md R210): the chain holds byte values, and what the command does once its operands have passed
their checks. Settles O44. -/

namespace Sys2Proof.Machine

/-! ## The chain is a string of bytes -/

theorem flagBit_lt_two (b : Bool) : flagBit b < 2 := by cases b <;> decide

theorem bitsValue_lt : ∀ bits : List Bool, bitsValue bits < 2 ^ bits.length
  | [] => Nat.one_pos
  | b :: rest => by
    have hrest := bitsValue_lt rest
    have hb := flagBit_lt_two b
    rw [bitsValue, List.length_cons, Nat.pow_succ]
    omega

theorem packBits_lt {bits : List Bool} {byte : Nat} (h : byte ∈ packBits bits) : byte < 256 := by
  obtain ⟨i, -, rfl⟩ := List.mem_map.mp h
  calc bitsValue ((bits.drop (8 * i)).take 8) < 2 ^ ((bits.drop (8 * i)).take 8).length := bitsValue_lt _
    _ ≤ 2 ^ 8 := Nat.pow_le_pow_right Nat.two_pos (List.length_take_le _ _)

theorem subBlock_lt {payload : List Nat} (h : ∀ byte ∈ payload, byte < 256) (i : Nat) :
    ∀ byte ∈ subBlock payload i, byte < 256 := by
  intro byte hbyte
  obtain rfl | hpart := List.mem_cons.mp hbyte
  · exact Nat.lt_succ_of_le (List.length_take_le _ _)
  · exact h byte (List.mem_of_mem_drop (List.mem_of_mem_take hpart))

theorem frame_lt {payload : List Nat} (h : ∀ byte ∈ payload, byte < 256) : ∀ byte ∈ frame payload, byte < 256 := by
  intro byte hbyte
  obtain hblocks | hend := List.mem_append.mp hbyte
  · obtain ⟨i, -, hi⟩ := List.mem_flatMap.mp hblocks
    exact subBlock_lt h i byte hi
  · rw [List.mem_singleton.mp hend]
    decide

theorem lzwEncode_lt (nexp : Nat) (indices : List Nat) : ∀ byte ∈ lzwEncode nexp indices, byte < 256 :=
  frame_lt fun _ => packBits_lt

/-! ## The source as numbers -/

@[simp] theorem State.length_sourceNumbers (s : State) : s.sourceNumbers.length = s.srcLen.toNat := by
  simp [State.sourceNumbers]

@[simp] theorem State.getElem_sourceNumbers (s : State) {p : Nat} (hp : p < s.sourceNumbers.length) :
    s.sourceNumbers[p] = (s.mem.read (s.srcAddr.toNat + p)).toNat := by
  simp [State.sourceNumbers]

/-- The first source byte that is no index below N (44_lzw_encoder.md R210). -/
def State.badIndex? (nexp : Nat) (s : State) : Option Nat := s.sourceNumbers.findIdx? (fun i => tableSize nexp ≤ i)

theorem State.badIndex?_eq_some {nexp p : Nat} {s : State} (hp : p < s.srcLen.toNat)
    (hbad : tableSize nexp ≤ (s.mem.read (s.srcAddr.toNat + p)).toNat)
    (hgood : ∀ q < p, (s.mem.read (s.srcAddr.toNat + q)).toNat < tableSize nexp) : s.badIndex? nexp = some p := by
  rw [State.badIndex?, List.findIdx?_eq_some_iff_getElem]
  exact ⟨by simpa using hp, by simpa using hbad, fun q hq => by simpa using hgood q hq⟩

theorem State.badIndex?_eq_none {nexp : Nat} {s : State}
    (hgood : ∀ p < s.srcLen.toNat, (s.mem.read (s.srcAddr.toNat + p)).toNat < tableSize nexp) :
    s.badIndex? nexp = none := by
  rw [State.badIndex?, List.findIdx?_eq_none_iff]
  intro i hi
  obtain ⟨p, hp, rfl⟩ := List.getElem_of_mem hi
  simpa using hgood p (by simpa using hp)

/-! ## The work of the command -/

/-- The result of LZW.ENC for a stream of legal indices: Overflow, or the chain, its length and b. -/
def chainResult (nexp : Nat) (s : State) : CmdResult :=
  let out := lzwEncode nexp s.sourceNumbers
  if s.dstCap.toNat < out.length then .err .overflow 0
  else .ok (out.map (BitVec.ofNat 8)) out.length (minCodeSize nexp)

/-- What LZW.ENC does once its checks have passed. -/
def compressedSource (nexp : Nat) (s : State) : CmdResult :=
  match s.badIndex? nexp with
  | some p => .err .index p
  | none => chainResult nexp s

theorem checksThen_lzwEnc (nexp : Nat) :
    ChecksThen (.lzwEnc nexp) (fun s => s.srcLen = 0#32) (·.srcLen.toNat) (·.dstCap.toNat) (compressedSource nexp) :=
  fun _ => ⟨_, decide_eq_true_iff, rfl⟩

theorem encode_lzwEnc (nexp : Nat) : encode (.lzwEnc nexp) = BitVec.ofNat 32 (0x007 + 0x100 * nexp) := by
  rw [encode, assemble]
  congr 1
  omega

section Completion

variable {nexp : Nat} {s : State}

theorem exec_lzwEnc_of_badIndex {p : Nat}
    (hp : s.passesChecks (fun s => s.srcLen = 0#32) (·.srcLen.toNat) (·.dstCap.toNat))
    (hbad : s.badIndex? nexp = some p) : exec (.lzwEnc nexp) s = .next (s.takeError .index p) := by
  rw [(checksThen_lzwEnc nexp).exec_of_passes hp, compressedSource, hbad, State.complete_err]

theorem exec_lzwEnc_of_indices (hp : s.passesChecks (fun s => s.srcLen = 0#32) (·.srcLen.toNat) (·.dstCap.toNat))
    (hgood : s.badIndex? nexp = none) : exec (.lzwEnc nexp) s = .next (s.complete (chainResult nexp s)) := by
  rw [(checksThen_lzwEnc nexp).exec_of_passes hp, compressedSource, hgood]

theorem chainResult_of_lt (h : s.dstCap.toNat < (lzwEncode nexp s.sourceNumbers).length) :
    chainResult nexp s = .err .overflow 0 := if_pos h

theorem chainResult_of_le (h : (lzwEncode nexp s.sourceNumbers).length ≤ s.dstCap.toNat) :
    chainResult nexp s = .ok ((lzwEncode nexp s.sourceNumbers).map (BitVec.ofNat 8))
      (lzwEncode nexp s.sourceNumbers).length (minCodeSize nexp) := if_neg (Nat.not_lt.mpr h)

end Completion

/-- Bytes given as numbers read back as those numbers. -/
theorem read_finish_numbers (s : State) {out : List Nat} {j : Nat} (len aux : Nat) (hout : ∀ byte ∈ out, byte < 256)
    (hj : j < out.length) :
    ((s.finish (out.map (BitVec.ofNat 8)) len aux).mem.read (s.dstAddr.toNat + j)).toNat = out.getD j 0 := by
  have hbyte : out[j] < 2 ^ 8 := hout _ (List.getElem_mem hj)
  rw [State.finish_mem, Memory.read_writeBytes_inside (by simpa using hj), List.getElem_map,
    BitVec.toNat_ofNat, Nat.mod_eq_of_lt hbyte, List.getD_eq_getElem _ _ hj]

/-! ## The statement -/

/-- Settles O44. A chain that fits DST_CAP has a length below 2^32, so RESULT_LEN can hold it. -/
theorem lzwEncCommand : Obligations.LzwEncCommand := by
  unfold Obligations.LzwEncCommand
  refine fun nexp hnexp => ⟨encode_lzwEnc nexp, (checksThen_lzwEnc nexp).checksInOrder, fun s _ hp => ⟨?index, ?chain⟩⟩
  case index =>
    exact fun p hlt hbad hgood => exec_lzwEnc_of_badIndex hp (State.badIndex?_eq_some hlt hbad hgood)
  case chain =>
    intro hgood
    have hexec := exec_lzwEnc_of_indices hp (State.badIndex?_eq_none hgood)
    refine ⟨fun hover => ?_, fun hfits => ?_⟩
    · rw [hexec, chainResult_of_lt hover, State.complete_err]
    · rw [chainResult_of_le hfits] at hexec
      have hlen := hfits.trans_lt s.dstCap.isLt
      have haux : nexp + 2 < 2 ^ 32 := by omega
      exact ⟨_, hexec, succeeds_finish s (List.length_map _) hlen haux,
        fun j hj => read_finish_numbers s _ _ (lzwEncode_lt _ _) hj⟩

end Sys2Proof.Machine
end

section
/-! LZW.DEC (45_lzw_decoder.md R250): what deframing and decoding can answer, so that the two results and every index have
a register and a byte to stand in, and what the command does once its operands have passed their checks. Settles O45. -/

namespace Sys2Proof.Machine

/-! ## Deframing -/

/-- Every way deframing a sub-block can go (45_lzw_decoder.md R241): the terminator, a block cut short, or the rest of the
chain behind a whole block. -/
theorem deframeFrom_cons_cases (used fuel len : Nat) (rest : List Nat) :
    (len = 0 ∧ deframeFrom used (fuel + 1) (len :: rest) = .ok ([], used + 1)) ∨
    (rest.length < len ∧ deframeFrom used (fuel + 1) (len :: rest) = .error (.decodeTrunc, 0)) ∨
    (len ≤ rest.length ∧ deframeFrom used (fuel + 1) (len :: rest) =
      (deframeFrom (used + 1 + len) fuel (rest.drop len)).map fun r => (rest.take len ++ r.1, r.2)) := by
  rw [deframeFrom]
  split_ifs with hend hcut
  · exact .inl ⟨hend, rfl⟩
  · exact .inr (.inl ⟨hcut, rfl⟩)
  · refine .inr (.inr ⟨Nat.le_of_not_lt hcut, ?_⟩)
    cases deframeFrom (used + 1 + len) fuel (rest.drop len) <;> rfl

/-- A deframing either fails with DecodeTrunc(0) or counts no more bytes than there are. -/
theorem deframeFrom_answers (fuel used : Nat) (src : List Nat) :
    deframeFrom used fuel src = .error (.decodeTrunc, 0) ∨
    ∃ payload total, deframeFrom used fuel src = .ok (payload, total) ∧ total ≤ used + src.length := by
  induction fuel generalizing used src with
  | zero => exact .inl rfl
  | succ fuel ih =>
    cases src with
    | nil => exact .inl rfl
    | cons len rest =>
      obtain ⟨-, heq⟩ | ⟨-, heq⟩ | ⟨hle, heq⟩ := deframeFrom_cons_cases used fuel len rest
      · exact .inr ⟨_, _, heq, by simp⟩
      · exact .inl heq
      · obtain hrec | ⟨payload, total, hrec, htotal⟩ := ih (used + 1 + len) (rest.drop len)
        · exact .inl (by rw [heq, hrec]; rfl)
        · rw [List.length_drop] at htotal
          refine .inr ⟨rest.take len ++ payload, total, by rw [heq, hrec]; rfl, ?_⟩
          rw [List.length_cons]
          omega

theorem deframe_error {src : List Nat} {e : DecodeError} (h : deframe src = .error e) : e = (.decodeTrunc, 0) := by
  obtain herr | ⟨_, _, hok, -⟩ := deframeFrom_answers (src.length + 1) 0 src
  · exact Except.error.inj (h.symm.trans herr)
  · cases h.symm.trans hok

theorem deframe_used_le {src payload : List Nat} {used : Nat} (h : deframe src = .ok (payload, used)) :
    used ≤ src.length := by
  obtain herr | ⟨_, _, hok, hle⟩ := deframeFrom_answers (src.length + 1) 0 src
  · cases h.symm.trans herr
  · cases h.symm.trans hok
    simpa using hle

/-! ## The strings of the code table -/

/-- Every number of the list is an index into a colour table of N entries. -/
def AreIndices (nexp : Nat) (str : List Nat) : Prop := ∀ i ∈ str, i < tableSize nexp

theorem AreIndices.append {nexp : Nat} {l r : List Nat} (hl : AreIndices nexp l) (hr : AreIndices nexp r) :
    AreIndices nexp (l ++ r) :=
  fun i hi => (List.mem_append.mp hi).elim (hl i) (hr i)

theorem AreIndices.singleton {nexp c : Nat} (h : c < tableSize nexp) : AreIndices nexp [c] :=
  fun _ hi => List.mem_singleton.mp hi ▸ h

theorem AreIndices.extend {nexp : Nat} {str head : List Nat} (hs : AreIndices nexp str) (hh : AreIndices nexp head) :
    AreIndices nexp (Machine.extend str head) :=
  hs.append fun i hi => hh i (List.mem_of_mem_take hi)

namespace Decoder

/-- The strings of the code table are strings of indices. -/
def TableOfIndices (nexp : Nat) (d : Decoder) : Prop := ∀ entry ∈ d.table, AreIndices nexp entry.2

theorem tableOfIndices_start (nexp : Nat) : (start nexp).TableOfIndices nexp := List.forall_mem_nil _

variable {nexp : Nat} {d : Decoder}

theorem TableOfIndices.string (h : d.TableOfIndices nexp) (c : Nat) : AreIndices nexp (d.string nexp c) := by
  unfold Decoder.string
  split_ifs with hc
  · exact .singleton hc
  · cases hl : d.table.lookup c with
    | none => exact List.forall_mem_nil _
    | some str =>
      obtain ⟨l₁, l₂, heq, -⟩ := List.lookup_eq_some_iff.mp hl
      exact h (c, str) (heq ▸ List.mem_append_cons_self)

theorem TableOfIndices.classify (h : d.TableOfIndices nexp) {c : Nat} {str : List Nat}
    (hc : d.classify nexp c = some str) : AreIndices nexp str := by
  unfold Decoder.classify at hc
  split at hc
  · split_ifs at hc with hlit
    cases hc
    exact .singleton (Nat.lt_of_not_le hlit)
  · split_ifs at hc
    · cases hc
      exact h.string c
    · cases hc
      exact (h.string _).extend (h.string _)

theorem TableOfIndices.grow (h : d.TableOfIndices nexp) {str : List Nat} (hs : AreIndices nexp str) :
    (d.grow nexp str).TableOfIndices nexp := by
  unfold Decoder.grow
  split
  · exact h
  · split_ifs
    · exact List.forall_mem_cons.mpr ⟨(h.string _).extend hs, h⟩
    · exact h

@[simp] theorem widen_table (d : Decoder) : d.widen.table = d.table := by
  unfold Decoder.widen
  split_ifs <;> rfl

theorem TableOfIndices.afterDataCode (h : d.TableOfIndices nexp) (c : Nat) {str : List Nat}
    (hs : AreIndices nexp str) : (d.afterDataCode nexp c str).TableOfIndices nexp := by
  unfold TableOfIndices Decoder.afterDataCode
  rw [widen_table]
  exact h.grow hs

end Decoder

/-! ## Decoding -/

/-- Every way the loop of 45_lzw_decoder.md R244 can come to a list of indices: after a Clear-Code it goes on from the start,
at End-of-Information it ends, after a data code that leaves room it goes on with the code's string appended. -/
theorem decodeLoop_ok_cases {nexp cap fuel ord : Nat} {d : Decoder} {bits : List Bool} {out res : List Nat}
    (h : decodeLoop nexp cap (fuel + 1) d bits out ord = .ok res) :
    decodeLoop nexp cap fuel (Decoder.start nexp) (bits.drop d.width) out (ord + 1) = .ok res ∨
    out = res ∨
    ∃ c str, d.classify nexp c = some str ∧ out.length + str.length ≤ cap ∧
      decodeLoop nexp cap fuel (d.afterDataCode nexp c str) (bits.drop d.width) (out ++ str) (ord + 1) = .ok res := by
  simp only [decodeLoop] at h
  split_ifs at h with hbits hclear hend
  · exact .inl h
  · exact .inr (.inl (Except.ok.inj h))
  · split at h
    · cases h
    · next str hstr =>
      split_ifs at h with hover
      exact .inr (.inr ⟨_, str, hstr, Nat.le_of_not_lt hover, h⟩)

/-- The loop keeps to the destination and produces indices only. -/
theorem decodeLoop_ok {nexp cap fuel ord : Nat} {d : Decoder} {bits : List Bool} {out res : List Nat}
    (h : decodeLoop nexp cap fuel d bits out ord = .ok res) (hd : d.TableOfIndices nexp) (hlen : out.length ≤ cap)
    (hout : AreIndices nexp out) : res.length ≤ cap ∧ AreIndices nexp res := by
  induction fuel generalizing d bits out ord with
  | zero => cases h
  | succ fuel ih =>
    obtain hclear | rfl | ⟨c, str, hstr, hroom, hdata⟩ := decodeLoop_ok_cases h
    · exact ih hclear (Decoder.tableOfIndices_start nexp) hlen hout
    · exact ⟨hlen, hout⟩
    · have hs : AreIndices nexp str := hd.classify hstr
      exact ih hdata (hd.afterDataCode c hs) (by rwa [List.length_append]) (hout.append hs)

theorem decodePayload_ok {nexp cap : Nat} {payload out : List Nat} (h : decodePayload nexp cap payload = .ok out) :
    out.length ≤ cap ∧ AreIndices nexp out :=
  decodeLoop_ok h (Decoder.tableOfIndices_start nexp) (Nat.zero_le cap) (List.forall_mem_nil _)

/-! ## The work of the command -/

/-- What LZW.DEC does once its checks have passed. -/
def expandedSource (nexp : Nat) (s : State) : CmdResult :=
  match lzwDecode nexp s.dstCap.toNat s.sourceNumbers with
  | .error (code, info) => .err code info
  | .ok (out, used) => .ok (out.map (BitVec.ofNat 8)) out.length used

/-- LZW.DEC has no size operand that may not be 0. -/
theorem checksThen_lzwDec (nexp : Nat) :
    ChecksThen (.lzwDec nexp) (fun _ => False) (·.srcLen.toNat) (·.dstCap.toNat) (expandedSource nexp) :=
  fun _ => ⟨false, iff_of_false Bool.false_ne_true not_false, rfl⟩

theorem encode_lzwDec (nexp : Nat) : encode (.lzwDec nexp) = BitVec.ofNat 32 (0x008 + 0x100 * nexp) := by
  rw [encode, assemble]
  congr 1
  omega

section Expansion

variable {nexp : Nat} {s : State} {payload : List Nat} {used : Nat}

theorem expandedSource_of_deframe_error {e : DecodeError} (h : deframe s.sourceNumbers = .error e) :
    expandedSource nexp s = .err .decodeTrunc 0 := by
  rw [expandedSource, lzwDecode, h, deframe_error h]

theorem expandedSource_of_decode_error (h : deframe s.sourceNumbers = .ok (payload, used)) {code : ErrCode} {info : Nat}
    (hd : decodePayload nexp s.dstCap.toNat payload = .error (code, info)) :
    expandedSource nexp s = .err code info := by
  simp only [expandedSource, lzwDecode, h, hd]

theorem expandedSource_of_decode (h : deframe s.sourceNumbers = .ok (payload, used)) {out : List Nat}
    (hd : decodePayload nexp s.dstCap.toNat payload = .ok out) :
    expandedSource nexp s = .ok (out.map (BitVec.ofNat 8)) out.length used := by
  simp only [expandedSource, lzwDecode, h, hd]

end Expansion

/-- An index of a table of at most 256 colours is a byte. -/
theorem AreIndices.lt_256 {nexp : Nat} (hnexp : nexp ≤ 7) {str : List Nat} (h : AreIndices nexp str) :
    ∀ i ∈ str, i < 256 :=
  fun i hi => (h i hi).trans_le (Nat.pow_le_pow_right Nat.two_pos (Nat.succ_le_succ hnexp))

/-! ## The statement -/

/-- Settles O45. The indices number at most DST_CAP and the bytes used at most SRC_LEN, so RESULT_LEN and RESULT_AUX can
hold them. -/
theorem lzwDecCommand : Obligations.LzwDecCommand := by
  unfold Obligations.LzwDecCommand
  refine fun nexp hnexp => ⟨encode_lzwDec nexp, (checksThen_lzwDec nexp).checksInOrder, fun s _ hp => ?_⟩
  have hexec := (checksThen_lzwDec nexp).exec_of_passes hp
  refine ⟨fun e herr => ?deframeError, fun payload used hframe => ⟨fun code info herr => ?decodeError,
    fun out hout => ?decoded⟩⟩
  case deframeError => rw [hexec, expandedSource_of_deframe_error herr, State.complete_err]
  case decodeError => rw [hexec, expandedSource_of_decode_error hframe herr, State.complete_err]
  case decoded =>
    obtain ⟨hfits, hindices⟩ := decodePayload_ok hout
    have hlen : out.length < 2 ^ 32 := hfits.trans_lt s.dstCap.isLt
    have haux : used < 2 ^ 32 :=
      (deframe_used_le hframe).trans_lt (s.length_sourceNumbers.trans_lt s.srcLen.isLt)
    rw [expandedSource_of_decode hframe hout] at hexec
    exact ⟨_, hexec, succeeds_finish s (List.length_map _) hlen haux,
      fun j hj => read_finish_numbers s _ _ (hindices.lt_256 hnexp) hj⟩

end Sys2Proof.Machine
end

section
/-! Error entry (60_exceptions.md R401, R404): the codes and the changes an error completion makes. Settles O16. -/

namespace Sys2Proof.Machine

/-- Error entry changes five fields and no other (60_exceptions.md R404). -/
theorem State.takeError_eq (s : State) (code : ErrCode) (info : Nat) :
    s.takeError code info =
      { s with err := true, errCode := code.code, errInfo := registerValue info, busy := false, done := true } := rfl

/-- Settles O16. ERRINFO gets the register value of the detail; that `irq` is then IE holds of every completion. -/
theorem errorEntryChanges : Obligations.ErrorEntryChanges := by
  unfold Obligations.ErrorEntryChanges
  refine ⟨⟨rfl, rfl, rfl, rfl, rfl, rfl, rfl, rfl⟩, fun s code info => ?entry⟩
  case entry =>
    have hchanges := (s.complete_err code info).trans (s.takeError_eq code info)
    exact ⟨registerValue info, registerValue_toNat, hchanges, s.irq_complete (.err code info)⟩

end Sys2Proof.Machine
end

section
/-! The command word (30_encoding.md R91 to R94, R100): a word is the sum of its fields and a command is known by them, so
decoding and encoding undo each other and the legal words are the 29 of R92. Settles O1, O2, O3 and O4. -/

namespace Sys2Proof

/-! ## A word and its fields -/

theorem nexpField_lt (w : Word) : nexpField w < 8 := field_lt w 10 8

/-- The word has these fields and no bit set outside them (30_encoding.md R91). -/
structure HasFields (w : Word) (op ch4 dropa nexp : Nat) : Prop where
  zeroHi : zeroHiField w = 0
  zeroLo : zeroLoField w = 0
  op : opField w = op
  ch4 : ch4Field w = ch4
  dropa : dropaField w = dropa
  nexp : nexpField w = nexp

theorem hasFields_assemble {op ch4 dropa nexp : Nat} (hop : op < 16) (hch4 : ch4 < 2) (hdropa : dropa < 2)
    (hnexp : nexp < 8) : HasFields (assemble op ch4 dropa nexp) op ch4 dropa nexp := by
  constructor <;>
    simp only [zeroHiField, zeroLoField, opField, ch4Field, dropaField, nexpField, field, assemble,
      BitVec.toNat_ofNat] <;> omega

theorem HasFields.eq_assemble {w : Word} {op ch4 dropa nexp : Nat} (h : HasFields w op ch4 dropa nexp) :
    w = assemble op ch4 dropa nexp := by
  obtain ⟨hhi, hlo, rfl, rfl, rfl, rfl⟩ := h
  have hw := w.isLt
  apply BitVec.eq_of_toNat_eq
  simp only [zeroHiField, zeroLoField, opField, ch4Field, dropaField, nexpField, field, assemble,
    BitVec.toNat_ofNat] at *
  omega

theorem HasFields.not_zeroBitsSet {w : Word} {op ch4 dropa nexp : Nat} (h : HasFields w op ch4 dropa nexp) :
    ¬(zeroHiField w ≠ 0 ∨ zeroLoField w ≠ 0) := by
  simp [h.zeroHi, h.zeroLo]

theorem Channels.ch4_lt (c : Channels) : c.ch4 < 2 := by cases c <;> decide

@[simp] theorem Channels.ofCh4_ch4 (c : Channels) : Channels.ofCh4 c.ch4 = c := by cases c <;> rfl

theorem Channels.ch4_ofCh4 {bit : Nat} (h : bit < 2) : (Channels.ofCh4 bit).ch4 = bit := by
  have hbit : bit = 0 ∨ bit = 1 := by omega
  rcases hbit with rfl | rfl <;> rfl

/-! ## The fields of a command -/

/-- OP of a command (30_encoding.md R92). -/
def Instr.op : Instr → Nat
  | .scaleBl _ => 1
  | .scaleBc _ => 2
  | .rowPad _ => 3
  | .rowUnpad _ => 4
  | .pixToCanon _ => 5
  | .pixFromCanon _ => 6
  | .pixFromCanonDa => 6
  | .lzwEnc _ => 7
  | .lzwDec _ => 8

/-- CH4 of a command (30_encoding.md R92). -/
def Instr.ch4 : Instr → Nat
  | .scaleBl c | .scaleBc c | .rowPad c | .rowUnpad c | .pixToCanon c | .pixFromCanon c => c.ch4
  | .pixFromCanonDa => 1
  | .lzwEnc _ | .lzwDec _ => 0

/-- DROPA of a command (30_encoding.md R92). -/
def Instr.dropa : Instr → Nat
  | .pixFromCanonDa => 1
  | _ => 0

/-- NEXP of a command (30_encoding.md R92). -/
def Instr.nexp : Instr → Nat
  | .lzwEnc nexp | .lzwDec nexp => nexp
  | _ => 0

/-- The word has the fields of this command. -/
def IsWordOf (w : Word) (i : Instr) : Prop := HasFields w i.op i.ch4 i.dropa i.nexp

theorem encode_eq_assemble (i : Instr) : encode i = assemble i.op i.ch4 i.dropa i.nexp := by cases i <;> rfl

theorem Instr.op_lt (i : Instr) : i.op < 16 := by cases i <;> simp [Instr.op]

theorem Instr.ch4_lt (i : Instr) : i.ch4 < 2 := by
  cases i with
  | scaleBl c | scaleBc c | rowPad c | rowUnpad c | pixToCanon c | pixFromCanon c => exact c.ch4_lt
  | pixFromCanonDa | lzwEnc | lzwDec => exact Nat.le_of_ble_eq_true rfl

theorem Instr.dropa_lt (i : Instr) : i.dropa < 2 := by cases i <;> simp [Instr.dropa]

theorem Instr.nexp_lt {i : Instr} (h : i.wellFormed) : i.nexp < 8 := by
  cases i with
  | lzwEnc nexp | lzwDec nexp => exact Nat.lt_succ_of_le h
  | _ => exact Nat.succ_pos 7

theorem isWordOf_encode {i : Instr} (h : i.wellFormed) : IsWordOf (encode i) i := by
  rw [encode_eq_assemble]
  exact hasFields_assemble i.op_lt i.ch4_lt i.dropa_lt (Instr.nexp_lt h)

theorem IsWordOf.eq_encode {w : Word} {i : Instr} (h : IsWordOf w i) : w = encode i := by
  rw [encode_eq_assemble]
  exact HasFields.eq_assemble h

/-! ## What the decoder of each class of OP accepts -/

theorem decodeImage_ok_iff (w : Word) (mk : Channels → Instr) (i : Instr) :
    decodeImage w mk = .ok i ↔ dropaField w = 0 ∧ nexpField w = 0 ∧ mk (.ofCh4 (ch4Field w)) = i := by
  unfold decodeImage
  split_ifs with hdropa hnexp <;> simp_all

theorem decodeFromCanon_ok_iff (w : Word) (i : Instr) :
    decodeFromCanon w = .ok i ↔ nexpField w = 0 ∧
      (dropaField w = 0 ∧ .pixFromCanon (.ofCh4 (ch4Field w)) = i ∨
        dropaField w ≠ 0 ∧ ch4Field w = 1 ∧ .pixFromCanonDa = i) := by
  unfold decodeFromCanon
  split_ifs with hnexp hdropa hch4 <;> simp_all

theorem decodeLzw_ok_iff (w : Word) (mk : Nat → Instr) (i : Instr) :
    decodeLzw w mk = .ok i ↔ dropaField w = 0 ∧ ch4Field w = 0 ∧ mk (nexpField w) = i := by
  unfold decodeLzw
  split_ifs with hdropa hch4 <;> simp_all

/-! ## Decoding is having the fields of the command -/

theorem decode_of_isWordOf {w : Word} {i : Instr} (h : IsWordOf w i) : decode w = .ok i := by
  rw [decode, if_neg h.not_zeroBitsSet, h.op]
  cases i with
  | scaleBl c | scaleBc c | rowPad c | rowUnpad c | pixToCanon c =>
    exact (decodeImage_ok_iff w _ _).mpr ⟨h.dropa, h.nexp, by rw [h.ch4]; exact congrArg _ c.ofCh4_ch4⟩
  | pixFromCanon c =>
    exact (decodeFromCanon_ok_iff w _).mpr
      ⟨h.nexp, .inl ⟨h.dropa, by rw [h.ch4]; exact congrArg _ c.ofCh4_ch4⟩⟩
  | pixFromCanonDa =>
    exact (decodeFromCanon_ok_iff w _).mpr ⟨h.nexp, .inr ⟨by rw [h.dropa]; decide, h.ch4, rfl⟩⟩
  | lzwEnc nexp | lzwDec nexp =>
    exact (decodeLzw_ok_iff w _ _).mpr ⟨h.dropa, h.ch4, by rw [h.nexp]; rfl⟩

theorem isWordOf_of_decode {w : Word} {i : Instr} (h : decode w = .ok i) : i.wellFormed ∧ IsWordOf w i := by
  have hch4 := Channels.ch4_ofCh4 (ch4Field_lt w)
  have hdropa := dropaField_lt w
  have hnexp : nexpFits (nexpField w) := Nat.le_of_lt_succ (nexpField_lt w)
  unfold decode at h
  split_ifs at h with hz
  obtain ⟨hhi, hlo⟩ := not_or.mp hz
  have fields {i : Instr} (hop : opField w = i.op) (hch4 : ch4Field w = i.ch4) (hdropa : dropaField w = i.dropa)
      (hnexp : nexpField w = i.nexp) : IsWordOf w i := ⟨not_not.mp hhi, not_not.mp hlo, hop, hch4, hdropa, hnexp⟩
  split at h
  case h_9 => cases h
  case h_6 hop =>
    obtain ⟨hn, ⟨hd, rfl⟩ | ⟨hd, hc, rfl⟩⟩ := (decodeFromCanon_ok_iff w i).mp h
    · exact ⟨trivial, fields hop hch4.symm hd hn⟩
    · exact ⟨trivial, fields hop hc (by rw [Instr.dropa]; omega) hn⟩
  case h_7 hop | h_8 hop =>
    obtain ⟨hd, hc, rfl⟩ := (decodeLzw_ok_iff w _ i).mp h
    exact ⟨hnexp, fields hop hc hd rfl⟩
  all_goals
    next hop =>
    obtain ⟨hd, hn, rfl⟩ := (decodeImage_ok_iff w _ i).mp h
    exact ⟨trivial, fields hop hch4.symm hd hn⟩

/-! ## The legal words -/

/-- The well-formed commands in the order of their words in 30_encoding.md R92. -/
def commands : List Instr :=
  [.scaleBl .three, .scaleBl .four, .scaleBc .three, .scaleBc .four, .rowPad .three, .rowPad .four, .rowUnpad .three,
    .rowUnpad .four, .pixToCanon .three, .pixToCanon .four, .pixFromCanon .three, .pixFromCanon .four, .pixFromCanonDa] ++
  (List.range 8).map .lzwEnc ++ (List.range 8).map .lzwDec

theorem mem_commands_iff (i : Instr) : i ∈ commands ↔ i.wellFormed := by
  cases i with
  | scaleBl c | scaleBc c | rowPad c | rowUnpad c | pixToCanon c | pixFromCanon c => cases c <;> simp [commands]
  | pixFromCanonDa => simp [commands]
  | lzwEnc nexp | lzwDec nexp => simp [commands, Nat.lt_succ_iff]

/-- The legal words are the words of the well-formed commands. -/
theorem legal_iff (w : Word) : (∃ i, decode w = .ok i) ↔ w ∈ commands.map encode := by
  rw [List.mem_map]
  constructor
  · rintro ⟨i, h⟩
    obtain ⟨hwf, hword⟩ := isWordOf_of_decode h
    exact ⟨i, (mem_commands_iff i).mpr hwf, hword.eq_encode.symm⟩
  · rintro ⟨i, hi, rfl⟩
    exact ⟨i, decode_of_isWordOf (isWordOf_encode ((mem_commands_iff i).mp hi))⟩

/-! ## The statements -/

/-- Settles O1. -/
theorem decodeOfEncode : Obligations.DecodeOfEncode := by
  unfold Obligations.DecodeOfEncode
  exact fun i hi => decode_of_isWordOf (isWordOf_encode hi)

/-- Settles O2. -/
theorem encodeOfDecode : Obligations.EncodeOfDecode := by
  unfold Obligations.EncodeOfDecode
  intro w i h
  obtain ⟨hwf, hword⟩ := isWordOf_of_decode h
  exact ⟨hwf, hword.eq_encode.symm⟩

/-- Settles O3. -/
theorem legalWordsAreTwentyNine : Obligations.LegalWordsAreTwentyNine := by
  unfold Obligations.LegalWordsAreTwentyNine
  exact ⟨rfl, by decide, legal_iff⟩

/-- Settles O4: each word is the word of its command. -/
theorem sampleWordsDecode : Obligations.SampleWordsDecode := by
  unfold Obligations.SampleWordsDecode
  have word {i : Instr} (h : i.wellFormed) : decode (encode i) = .ok i := decode_of_isWordOf (isWordOf_encode h)
  exact ⟨word (i := .scaleBl .three) trivial, word (i := .scaleBc .four) trivial, word (i := .rowPad .three) trivial,
    word (i := .rowUnpad .four) trivial, word (i := .pixToCanon .three) trivial, word (i := .pixFromCanon .four) trivial,
    word (i := .pixFromCanonDa) trivial, word (i := .lzwEnc 1) (by decide), word (i := .lzwDec 7) (by decide)⟩

end Sys2Proof
end

section
/-! Completions (10_state.md R35, R39, R42; 60_exceptions.md R400, R404) and the invariant of the block: the bytes a command
writes fit at DST_ADDR, a command's result depends on MEM and its own registers alone, and every step keeps the invariant.
Settles O17, O18, O19, O26 and O27. -/

namespace Sys2Proof.Machine

/-! ## The destination of a command -/

/-- The bytes of a success lie inside MEM from DST_ADDR on, and RESULT_LEN can hold their number. -/
def FitsDestination (s : State) : CmdResult → Prop
  | .ok dst len _ => dst.length = len ∧ s.dstAddr.toNat + len ≤ s.memSize ∧ len < 2 ^ 32
  | .err _ _ => True

/-- Everything a command with checks can do: an error, or its work in a state that passes them. -/
theorem ChecksThen.result_cases {i : Instr} {zero : State → Prop} {src dst : State → Nat} {work : State → CmdResult}
    (h : ChecksThen i zero src dst work) (s : State) :
    (∃ code info, commandResult i s = .err code info) ∨
    (s.passesChecks zero src dst ∧ commandResult i s = work s) := by
  obtain ⟨b, hb, hr⟩ := h s
  rw [hr]
  obtain ⟨-, e⟩ | ⟨-, -, e⟩ | ⟨-, -, -, -, e⟩ | ⟨hz, hsrc, hdst, hover, e⟩ := checked_cases b s.memSize
    (s.srcRegion (src s)) (s.dstRegion (dst s)) fun _ => work s
  · exact .inl ⟨_, _, e⟩
  · exact .inl ⟨_, _, e⟩
  · exact .inl ⟨_, _, e⟩
  · refine .inr ⟨⟨mt hb.mpr (Bool.eq_false_iff.mp hz), ⟨hsrc, hdst⟩, fun hshare => ?_⟩, e⟩
    exact absurd ((srcRegion_overlaps_dstRegion s _ _).mpr hshare) (Bool.eq_false_iff.mp hover)

theorem ChecksThen.fits {i : Instr} {zero : State → Prop} {src dst : State → Nat} {work : State → CmdResult}
    (h : ChecksThen i zero src dst work) {s : State}
    (hwork : s.passesChecks zero src dst → FitsDestination s (work s)) : FitsDestination s (commandResult i s) := by
  obtain ⟨code, info, e⟩ | ⟨hp, e⟩ := h.result_cases s
  · rw [e]
    trivial
  · rw [e]
    exact hwork hp

/-- A result of at most DST_CAP bytes, the destination region of the LZW commands, fits. -/
theorem fits_of_le_cap {s : State} {zero : State → Prop} {src : State → Nat} (hp : s.passesChecks zero src (·.dstCap.toNat))
    {out : List Nat} (hout : out.length ≤ s.dstCap.toNat) (aux : Nat) :
    FitsDestination s (.ok (out.map (BitVec.ofNat 8)) out.length aux) := by
  obtain ⟨-, ⟨-, hdst⟩, -⟩ := hp
  exact ⟨List.length_map _, (Nat.add_le_add_left hout _).trans hdst, hout.trans_lt s.dstCap.isLt⟩

theorem fits_lzwEnc {s : State} (nexp : Nat) : FitsDestination s (commandResult (.lzwEnc nexp) s) := by
  refine (checksThen_lzwEnc nexp).fits fun hp => ?_
  unfold compressedSource
  split
  · trivial
  · obtain hlt | hle := Nat.lt_or_ge s.dstCap.toNat (lzwEncode nexp s.sourceNumbers).length
    · rw [chainResult_of_lt hlt]
      trivial
    · rw [chainResult_of_le hle]
      exact fits_of_le_cap hp hle _

/-- Every way both phases of LZW.DEC can come to a list of indices. -/
theorem lzwDecode_ok {nexp cap used : Nat} {src out : List Nat} (h : lzwDecode nexp cap src = .ok (out, used)) :
    ∃ payload, deframe src = .ok (payload, used) ∧ decodePayload nexp cap payload = .ok out := by
  unfold lzwDecode at h
  split at h
  · cases h
  · next payload used' hframe =>
    split at h
    · cases h
    · next hdecode =>
      cases h
      exact ⟨payload, hframe, hdecode⟩

theorem fits_lzwDec {s : State} (nexp : Nat) : FitsDestination s (commandResult (.lzwDec nexp) s) := by
  refine (checksThen_lzwDec nexp).fits fun hp => ?_
  unfold expandedSource
  split
  · trivial
  · next out used hdec =>
    obtain ⟨payload, -, hpayload⟩ := lzwDecode_ok hdec
    exact fits_of_le_cap hp (decodePayload_ok hpayload).1 _

/-- With BUSY = 0 the block takes no step (70_reset_and_hazards.md R462). -/
theorem blockStep_of_idle {s : State} (hb : s.busy = false) : blockStep s = .next s := by
  simp [blockStep, hb]

section Fits

variable {s : State} (hsize : s.memSize ≤ 2 ^ 32)
include hsize

/-- An image that was checked beside a non-empty source fits. -/
theorem fits_gather {zero : State → Prop} {src dst : State → Nat} (hp : s.passesChecks zero src dst) (hsrc : 0 < src s)
    (f : Nat → Byte) (aux : Nat) : FitsDestination s (.ok (gather (dst s) f) (dst s) aux) := by
  obtain ⟨-, hfit, hshare⟩ := hp
  exact ⟨length_gather _ _, hfit.2, dst_len_lt_of_disjoint hsize hsrc hfit hshare⟩

theorem fits_scaleImage {i : Instr} {value : Scaling Nat} {c : Nat} (hc : 0 < c)
    (h : ∀ s, commandResult i s = scaleImage value c s) : FitsDestination s (commandResult i s) :=
  (checksThen_of_scaleImage h).fits fun hp =>
    fits_gather hsize hp (Nat.mul_pos (pixels_pos (not_or.mp hp.1).1) hc) _ _

theorem fits_convertPixels {i : Instr} {c d : Nat} (hc : 0 < c) (h : ∀ s, commandResult i s = convertPixels c d s) :
    FitsDestination s (commandResult i s) :=
  (checksThen_of_convertPixels h).fits fun hp => fits_gather hsize hp (Nat.mul_pos (pixels_pos hp.1) hc) _ _

/-- What a command writes fits its destination (10_state.md R39). -/
theorem fits_commandResult (i : Instr) : FitsDestination s (commandResult i s) := by
  have hc (c : Channels) : 0 < channelCount c := Nat.zero_lt_of_lt (three_le_channelCount c)
  cases i with
  | scaleBl c | scaleBc c => exact fits_scaleImage hsize (hc c) fun _ => rfl
  | rowPad c =>
    exact (checksThen_rowPad c).fits fun hp => fits_gather hsize hp (unpaddedSize_pos (hc c) hp.1) _ _
  | rowUnpad c =>
    refine (checksThen_rowUnpad c).fits fun hp => fits_gather hsize hp ?_ _ _
    exact (unpaddedSize_pos (hc c) hp.1).trans_le (unpaddedSize_le_paddedSize _ s)
  | pixToCanon c | pixFromCanon c => exact fits_convertPixels hsize (hc c) fun _ => rfl
  | pixFromCanonDa => exact fits_convertPixels hsize (by decide) fun _ => rfl
  | lzwEnc nexp => exact fits_lzwEnc nexp
  | lzwDec nexp => exact fits_lzwDec nexp

/-- While BUSY = 1 the block's step is a completion whose bytes fit their destination. -/
theorem blockStep_completes (hb : s.busy = true) :
    ∃ r, blockStep s = .next (s.complete r) ∧ FitsDestination s r := by
  obtain ⟨hidle, -⟩ | ⟨-, -, h⟩ | ⟨i, -, -, h⟩ := blockStep_cases s
  · exact absurd (hb.symm.trans hidle) (by decide)
  · exact ⟨.err .illegalCmd 0, h, trivial⟩
  · exact ⟨commandResult i s, h.trans (exec_eq_complete i s), fits_commandResult hsize i⟩

end Fits

/-! ## What a command depends on -/

section Congruence

variable {s s' : State} (hmem : s.mem = s'.mem) (hsize : s.memSize = s'.memSize) (hsrc : s.srcAddr = s'.srcAddr)
  (hdst : s.dstAddr = s'.dstAddr)
include hmem hsrc

theorem State.srcByte_congr : s.srcByte = s'.srcByte := by
  funext i
  rw [State.srcByte, State.srcByte, hmem, hsrc]

theorem State.sample_congr : s.sample = s'.sample := by
  funext w c x y k
  rw [State.sample, State.sample, State.srcByte_congr hmem hsrc]

include hsize hdst

section Image

variable (hw : s.srcW = s'.srcW) (hh : s.srcH = s'.srcH)
include hw hh

theorem scaleImage_congr (hw' : s.dstW = s'.dstW) (hh' : s.dstH = s'.dstH) (value : Scaling Nat) (c : Nat) :
    scaleImage value c s = scaleImage value c s' := by
  simp only [scaleImage, State.srcRegion, State.dstRegion, State.sample_congr hmem hsrc, hsize, hsrc, hdst, hw, hh,
    hw', hh']

theorem convertPixels_congr (c d : Nat) : convertPixels c d s = convertPixels c d s' := by
  simp only [convertPixels, State.srcRegion, State.dstRegion, State.srcByte_congr hmem hsrc, hsize, hsrc, hdst, hw, hh]

theorem padRows_congr (c : Nat) : padRows c s = padRows c s' := by
  simp only [padRows, State.srcRegion, State.dstRegion, State.srcByte_congr hmem hsrc, hsize, hsrc, hdst, hw, hh]

theorem unpadRows_congr (c : Nat) : unpadRows c s = unpadRows c s' := by
  simp only [unpadRows, State.srcRegion, State.dstRegion, State.srcByte_congr hmem hsrc, hsize, hsrc, hdst, hw, hh]

end Image

section Stream

variable (hlen : s.srcLen = s'.srcLen) (hcap : s.dstCap = s'.dstCap)
include hlen hcap

theorem compress_congr (nexp : Nat) : compress nexp s = compress nexp s' := by
  simp only [compress, State.srcRegion, State.dstRegion, hmem, hsize, hsrc, hdst, hlen, hcap]

theorem expand_congr (nexp : Nat) : expand nexp s = expand nexp s' := by
  simp only [expand, State.srcRegion, State.dstRegion, hmem, hsize, hsrc, hdst, hlen, hcap]

end Stream

end Congruence

/-- A command's result depends on MEM and on the registers marked for it (10_state.md R42). -/
theorem commandResult_congr (i : Instr) {s s' : State} (hmem : s.mem = s'.mem) (hsize : s.memSize = s'.memSize)
    (h : ∀ r : Reg, commandReads i r = true → s.readReg r = s'.readReg r) :
    commandResult i s = commandResult i s' := by
  cases i with
  | scaleBl c | scaleBc c =>
    exact scaleImage_congr hmem hsize (h .srcAddr rfl) (h .dstAddr rfl) (h .srcW rfl) (h .srcH rfl) (h .dstW rfl)
      (h .dstH rfl) _ _
  | rowPad c => exact padRows_congr hmem hsize (h .srcAddr rfl) (h .dstAddr rfl) (h .srcW rfl) (h .srcH rfl) _
  | rowUnpad c => exact unpadRows_congr hmem hsize (h .srcAddr rfl) (h .dstAddr rfl) (h .srcW rfl) (h .srcH rfl) _
  | pixToCanon c | pixFromCanon c | pixFromCanonDa =>
    exact convertPixels_congr hmem hsize (h .srcAddr rfl) (h .dstAddr rfl) (h .srcW rfl) (h .srcH rfl) _ _
  | lzwEnc nexp => exact compress_congr hmem hsize (h .srcAddr rfl) (h .dstAddr rfl) (h .srcLen rfl) (h .dstCap rfl) _
  | lzwDec nexp => exact expand_congr hmem hsize (h .srcAddr rfl) (h .dstAddr rfl) (h .srcLen rfl) (h .dstCap rfl) _

/-! ## The invariant, update by update -/

theorem ErrCode.code_ne_zero (code : ErrCode) : code.code ≠ 0#4 := by cases code <;> decide

theorem ErrCode.code_le (code : ErrCode) : code.code.toNat ≤ 8 := by cases code <;> decide

/-- The fields the invariant speaks of. -/
def State.invFields (s : State) : Bool × Bool × Bool × BitVec 4 × Word × Word × Word × Nat × Memory :=
  (s.busy, s.done, s.err, s.errCode, s.errInfo, s.resultLen, s.resultAux, s.memSize, s.mem)

namespace State.Inv

variable {s : State}

theorem of_invFields {t : State} (h : s.Inv) (e : t.invFields = s.invFields) : t.Inv := by
  simp only [State.invFields, Prod.mk.injEq] at e
  obtain ⟨hbusy, hdone, herr, hcode, hinfo, hlen, haux, hsize, hmem⟩ := e
  constructor
  all_goals simp only [hbusy, hdone, herr, hcode, hinfo, hlen, haux, hsize, hmem]
  exacts [h.busy_quiet, h.no_err_no_code, h.err_has_code, h.code_known, h.busy_no_result, h.err_no_result,
    h.mem_canonical, h.mem_inside, h.size_legal]

theorem setInputs (h : s.Inv) (q : List Input) : (s.setInputs q).Inv := h.of_invFields rfl

theorem answer (h : s.Inv) (r : Reply) : (s.answer r).Inv := h.of_invFields rfl

/-- Bytes written inside MEM keep it in canonical form and inside MEM_SIZE. -/
theorem writeBytes_inside (h : s.Inv) {addr : Nat} {bytes : List Byte} (hfit : addr + bytes.length ≤ s.memSize) :
    ∀ cell ∈ s.mem.writeBytes addr bytes, cell.1 < s.memSize := by
  intro cell hcell
  obtain ⟨-, hlt⟩ | hold := Memory.mem_of_mem_writeBytes bytes hcell
  · omega
  · exact h.mem_inside cell hold

theorem store (h : s.Inv) {addr : Nat} {bytes : List Byte} (hfit : addr + bytes.length ≤ s.memSize) :
    (s.store addr bytes).Inv :=
  { h with
    mem_canonical := Memory.wf_writeBytes bytes addr h.mem_canonical
    mem_inside := h.writeBytes_inside hfit }

theorem takeError (h : s.Inv) (hb : s.busy = true) (code : ErrCode) (info : Nat) : (s.takeError code info).Inv where
  busy_quiet hbusy := absurd hbusy Bool.false_ne_true
  no_err_no_code herr := absurd herr.symm Bool.false_ne_true
  err_has_code _ := code.code_ne_zero
  code_known := code.code_le
  busy_no_result hbusy := absurd hbusy Bool.false_ne_true
  err_no_result _ := h.busy_no_result hb
  mem_canonical := h.mem_canonical
  mem_inside := h.mem_inside
  size_legal := h.size_legal

theorem finish (h : s.Inv) (hb : s.busy = true) {dst : List Byte} (hfit : s.dstAddr.toNat + dst.length ≤ s.memSize)
    (len aux : Nat) : (s.finish dst len aux).Inv where
  busy_quiet hbusy := absurd hbusy Bool.false_ne_true
  no_err_no_code := h.no_err_no_code
  err_has_code := h.err_has_code
  code_known := h.code_known
  busy_no_result hbusy := absurd hbusy Bool.false_ne_true
  err_no_result herr := absurd ((h.busy_quiet hb).2.symm.trans herr) Bool.false_ne_true
  mem_canonical := Memory.wf_writeBytes dst _ h.mem_canonical
  mem_inside := h.writeBytes_inside hfit
  size_legal := h.size_legal

theorem complete (h : s.Inv) (hb : s.busy = true) {r : CmdResult} (hr : FitsDestination s r) : (s.complete r).Inv := by
  cases r with
  | ok dst len aux =>
    obtain ⟨rfl, hfit, -⟩ := hr
    exact h.finish hb hfit _ _
  | err code info => exact h.takeError hb code info

theorem blockStep (h : s.Inv) {t : State} (ht : blockStep s = .next t) : t.Inv := by
  cases hb : s.busy with
  | false =>
    cases ht.symm.trans (blockStep_of_idle hb)
    exact h
  | true =>
    obtain ⟨r, hstep, hr⟩ := blockStep_completes h.size_legal.2 hb
    cases ht.symm.trans hstep
    exact h.complete hb hr

theorem accept (h : s.Inv) (ha : s.accepts = true) (v : Word) : (s.accept v).Inv where
  busy_quiet _ := ⟨rfl, (s.accepts_iff.mp ha).2⟩
  no_err_no_code := h.no_err_no_code
  err_has_code := h.err_has_code
  code_known := h.code_known
  busy_no_result _ := ⟨rfl, rfl⟩
  err_no_result _ := ⟨rfl, rfl⟩
  mem_canonical := h.mem_canonical
  mem_inside := h.mem_inside
  size_legal := h.size_legal

theorem clearErr (h : s.Inv) : s.clearErr.Inv where
  busy_quiet hb := ⟨(h.busy_quiet hb).1, rfl⟩
  no_err_no_code _ := ⟨rfl, rfl⟩
  err_has_code herr := absurd herr Bool.false_ne_true
  code_known := Nat.zero_le 8
  busy_no_result := h.busy_no_result
  err_no_result herr := absurd herr Bool.false_ne_true
  mem_canonical := h.mem_canonical
  mem_inside := h.mem_inside
  size_legal := h.size_legal

theorem clearDone (h : s.Inv) : s.clearDone.Inv :=
  { h with busy_quiet := fun hb => ⟨rfl, (h.busy_quiet hb).2⟩ }

theorem writeStatus (h : s.Inv) (v : Word) : (s.writeStatus v).Inv := by
  unfold State.writeStatus
  cases bitOf v 1 <;> cases bitOf v 2
  exacts [h, h.clearErr, h.clearDone, h.clearDone.clearErr]

theorem writeReg (h : s.Inv) (r : Reg) (v : Word) : (s.writeReg r v).Inv := by
  cases r with
  | cmd =>
    unfold State.writeReg
    split_ifs with ha
    exacts [h.accept ha v, h]
  | status => exact h.writeStatus v
  | _ => exact h.of_invFields rfl

theorem writeOffset (h : s.Inv) (o : Nat) (v : Word) : (s.writeOffset o v).Inv := by
  obtain e | ⟨r, -, -, e⟩ := writeOffset_cases s o v
  · rwa [e]
  · rw [e]
    exact h.writeReg r v

theorem hostStep (h : s.Inv) {op : HostOp} {t : State} (ht : hostStep op s = .next t) : t.Inv := by
  obtain ⟨_, o, v, -, -, rfl⟩ | ⟨_, _, -, -, rfl⟩ | ⟨_, _, -, -, hfit, rfl⟩ | ⟨_, _, -, -, -, rfl⟩ := hostStep_next ht
  exacts [h.writeOffset o v, h.answer _, h.store hfit, h.answer _]

theorem resetInput (h : s.Inv) (contents : List Host.Cell) : (s.resetInput contents).Inv where
  busy_quiet hb := absurd hb Bool.false_ne_true
  no_err_no_code _ := ⟨rfl, rfl⟩
  err_has_code herr := absurd herr Bool.false_ne_true
  code_known := Nat.zero_le 8
  busy_no_result _ := ⟨rfl, rfl⟩
  err_no_result _ := ⟨rfl, rfl⟩
  mem_canonical := Memory.wf_ofCells _ _
  mem_inside := Memory.ofCells_inside _ _
  size_legal := h.size_legal

end State.Inv

/-! ## The statements -/

/-- Settles O26: one lemma per kind of input. -/
theorem stepKeepsInvariant : Obligations.StepKeepsInvariant := by
  unfold Obligations.StepKeepsInvariant
  intro s t h ht
  obtain ⟨-, hblock⟩ | ⟨rest, -, hblock⟩ | ⟨op, rest, -, hhost⟩ | ⟨cells, rest, -, rfl⟩ := step_next ht
  · exact h.blockStep hblock
  · exact (h.setInputs rest).blockStep hblock
  · exact (h.setInputs rest).hostStep hhost
  · exact (h.setInputs rest).resetInput cells

/-- Settles O27. -/
theorem resetMeetsInvariant : Obligations.ResetMeetsInvariant := by
  unfold Obligations.ResetMeetsInvariant
  exact
    { busy_quiet := fun hb => absurd hb Bool.false_ne_true
      no_err_no_code := fun _ => ⟨rfl, rfl⟩
      err_has_code := fun herr => absurd herr Bool.false_ne_true
      code_known := Nat.zero_le 8
      busy_no_result := fun _ => ⟨rfl, rfl⟩
      err_no_result := fun _ => ⟨rfl, rfl⟩
      mem_canonical := Memory.wf_nil
      mem_inside := List.forall_mem_nil _
      size_legal := ⟨Nat.one_le_two_pow, le_rfl⟩ }

/-- Settles O17: the completion is a success within MEM or an error with its code. -/
theorem commandsEndInOneOfTwoWays : Obligations.CommandsEndInOneOfTwoWays := by
  unfold Obligations.CommandsEndInOneOfTwoWays
  intro s h hb
  obtain ⟨r, hstep, hr⟩ := blockStep_completes h.size_legal.2 hb
  have hops := complete_keepsOperands s r
  refine ⟨s.complete r, hstep, ?_⟩
  cases r with
  | ok dst len aux =>
    obtain ⟨-, hfit, hlt⟩ := hr
    have herr := (h.busy_quiet hb).2
    obtain ⟨hcode, hinfo⟩ := h.no_err_no_code herr
    refine ⟨rfl, rfl, hops, .inl ⟨herr, hcode, hinfo, ?_⟩⟩
    rw [State.complete_ok, State.finish_resultLen, registerValue_toNat hlt]
    omega
  | err code info =>
    obtain ⟨hlen, haux⟩ := h.busy_no_result hb
    exact ⟨rfl, rfl, hops, .inr ⟨rfl, code.code_ne_zero, rfl, hlen, haux⟩⟩

/-- Settles O18: an idle block and an error leave MEM alone, a success writes RESULT_LEN bytes. -/
theorem blockWritesOnlyItsDestination : Obligations.BlockWritesOnlyItsDestination := by
  unfold Obligations.BlockWritesOnlyItsDestination
  intro s t h ht a hne
  cases hb : s.busy with
  | false =>
    cases ht.symm.trans (blockStep_of_idle hb)
    exact absurd rfl hne
  | true =>
    obtain ⟨r, hstep, hr⟩ := blockStep_completes h.size_legal.2 hb
    cases ht.symm.trans hstep
    cases r with
    | err code info => exact absurd rfl hne
    | ok dst len aux =>
      obtain ⟨rfl, -, hlt⟩ := hr
      have hin : ¬(a < s.dstAddr.toNat ∨ s.dstAddr.toNat + dst.length ≤ a) := fun hout =>
        hne (Memory.read_writeBytes_outside hout)
      rw [State.complete_ok, State.finish_resultLen, registerValue_toNat hlt]
      exact ⟨rfl, (h.busy_quiet hb).2, by omega, by omega⟩

/-- Settles O19. -/
theorem unreadRegistersAreIgnored : Obligations.UnreadRegistersAreIgnored := by
  unfold Obligations.UnreadRegistersAreIgnored
  intro i s s' hmem hsize hreads
  refine ⟨⟨commandResult i s, exec_eq_complete i s, ?_⟩, fun t ht => ?_⟩
  · rw [commandResult_congr i hmem hsize hreads]
    exact exec_eq_complete i s'
  · cases ht.symm.trans (exec_eq_complete i s)
    exact complete_keepsOperands s _

end Sys2Proof.Machine
end

section
/-! Steps of the host, of `rst` and of the block (10_state.md R23 to R36, R40; 20_memory.md R73, R75; 30_encoding.md R99;
70_reset_and_hazards.md R450, R457, R461, R462): what one input does to the state, and what a list of them comes to.
Settles O6, O8, O10, O11, O12, O13, O20, O21, O22, O23, O24, O25, O28 and O58. -/

namespace Sys2Proof.Machine

/-! ## The step that takes one input -/

theorem step_empty {s : State} (h : s.inputs = []) : step s = blockStep s := by simp [step, takeInput, h]

theorem step_block {s : State} {rest : List Input} (h : s.inputs = .block :: rest) :
    step s = blockStep (s.setInputs rest) := by simp [step, takeInput, h]

theorem step_rst {s : State} {cells : List Host.Cell} {rest : List Input} (h : s.inputs = .rst cells :: rest) :
    step s = .next ((s.setInputs rest).resetInput cells) := by simp [step, takeInput, h]

theorem blockStep_of_decode {s : State} {i : Instr} (hb : s.busy = true) (hd : decode s.cmd = .ok i) :
    blockStep s = exec i s := by
  simp [blockStep, hb, hd]

/-- A step that takes a write at a register's offset while BUSY = 0 writes that register. -/
theorem step_writes_register {s : State} {r : Reg} {v : Word} {rest : List Input} (hb : s.busy = false)
    (h : s.inputs = .host (.regWrite 32 r.offset v) :: rest) : step s = .next ((s.setInputs rest).writeReg r v) := by
  have haligned : r.offset % 4 = 0 := by cases r <;> rfl
  rw [step_regWrite haligned h, State.writeOffset_offset (s := s.setInputs rest) hb]

/-! ## STATUS and CTRL -/

theorem decide_flagBit (b : Bool) : decide (flagBit b = 1) = b := by cases b <;> rfl

/-- The flags and the code side by side in one number (10_state.md R23). -/
theorem State.toNat_statusWord (s : State) :
    s.statusWord.toNat = flagBit s.busy + flagBit s.done * 2 + flagBit s.err * 4 + s.errCode.toNat * 16 := by
  have hbusy := flagBit_lt_two s.busy
  have hdone := flagBit_lt_two s.done
  have herr := flagBit_lt_two s.err
  have hcode := s.errCode.isLt
  rw [State.statusWord, BitVec.toNat_ofNat]
  omega

section StatusBits

variable (s : State)

theorem State.statusWord_busy : s.statusWord.getLsbD 0 = s.busy := by
  have hbusy := flagBit_lt_two s.busy
  have hbit : s.statusWord.toNat / 2 ^ 0 % 2 = flagBit s.busy := by rw [s.toNat_statusWord]; omega
  rw [← bitOf_eq_getLsbD, bitOf, hbit, decide_flagBit]

theorem State.statusWord_done : s.statusWord.getLsbD 1 = s.done := by
  have hbusy := flagBit_lt_two s.busy
  have hdone := flagBit_lt_two s.done
  have hbit : s.statusWord.toNat / 2 ^ 1 % 2 = flagBit s.done := by rw [s.toNat_statusWord]; omega
  rw [← bitOf_eq_getLsbD, bitOf, hbit, decide_flagBit]

theorem State.statusWord_err : s.statusWord.getLsbD 2 = s.err := by
  have hbusy := flagBit_lt_two s.busy
  have hdone := flagBit_lt_two s.done
  have herr := flagBit_lt_two s.err
  have hbit : s.statusWord.toNat / 2 ^ 2 % 2 = flagBit s.err := by rw [s.toNat_statusWord]; omega
  rw [← bitOf_eq_getLsbD, bitOf, hbit, decide_flagBit]

theorem State.statusWord_low_lt :
    flagBit s.busy + flagBit s.done * 2 + flagBit s.err * 4 < 8 := by
  have hbusy := flagBit_lt_two s.busy
  have hdone := flagBit_lt_two s.done
  have herr := flagBit_lt_two s.err
  omega

theorem State.statusWord_bit_three : s.statusWord.getLsbD 3 = false := by
  have hlow := s.statusWord_low_lt
  have hbit : s.statusWord.toNat / 2 ^ 3 % 2 = 0 := by rw [s.toNat_statusWord]; omega
  rw [← bitOf_eq_getLsbD, bitOf, hbit]
  rfl

theorem State.statusWord_errCode : s.statusWord.extractLsb' 4 4 = s.errCode := by
  have hlow := s.statusWord_low_lt
  have hcode := s.errCode.isLt
  apply BitVec.eq_of_toNat_eq
  rw [BitVec.extractLsb'_toNat, Nat.shiftRight_eq_div_pow, s.toNat_statusWord]
  omega

theorem State.statusWord_high : s.statusWord.extractLsb' 8 24 = 0#24 := by
  have hlow := s.statusWord_low_lt
  have hcode := s.errCode.isLt
  apply BitVec.eq_of_toNat_eq
  rw [BitVec.extractLsb'_toNat, Nat.shiftRight_eq_div_pow, s.toNat_statusWord, BitVec.toNat_ofNat]
  omega

end StatusBits

/-- Only IE shows in CTRL (10_state.md R24). -/
theorem ctrlWord_of_bit (v : Word) : BitVec.ofNat 32 (flagBit (v.getLsbD 0)) = v &&& 1#32 := by
  have hbit : flagBit (v.getLsbD 0) = v.toNat % 2 := by
    rw [← bitOf_eq_getLsbD, bitOf, pow_zero, Nat.div_one]
    obtain h | h := Nat.mod_two_eq_zero_or_one v.toNat <;> rw [h] <;> rfl
  apply BitVec.eq_of_toNat_eq
  rw [hbit, BitVec.toNat_and, BitVec.toNat_ofNat, BitVec.toNat_ofNat, Nat.mod_eq_of_lt (by omega : 1 < 2 ^ 32),
    Nat.and_one_is_mod]
  omega

/-! ## Parameter and read-only registers -/

/-- The eight parameter registers (10_state.md R25). -/
def parameterRegisters : List Reg := [.srcAddr, .srcLen, .dstAddr, .dstCap, .srcW, .srcH, .dstW, .dstH]

/-- A write to a parameter register changes what that register reads and nothing else. -/
theorem State.readReg_writeReg_parameter (s : State) {r : Reg} (hr : r ∈ parameterRegisters) (v : Word) (q : Reg) :
    (s.writeReg r v).readReg q = if q = r then v else s.readReg q := by
  simp only [parameterRegisters, List.mem_cons, List.not_mem_nil, or_false] at hr
  rcases hr with rfl | rfl | rfl | rfl | rfl | rfl | rfl | rfl <;> cases q <;> rfl

theorem State.mem_writeReg (s : State) (r : Reg) (v : Word) : (s.writeReg r v).mem = s.mem := by
  cases r with
  | cmd => unfold State.writeReg; split_ifs <;> rfl
  | status => rw [State.writeReg, State.writeStatus_eq]
  | _ => rfl

/-- RESULT_LEN, RESULT_AUX, ERRINFO and the reserved offsets ignore writes (10_state.md R26 to R29). -/
theorem State.writeOffset_readOnly (s : State) {o : Nat} (h : 0x2C ≤ o) (v : Word) : s.writeOffset o v = s := by
  obtain e | ⟨r, -, hr, e⟩ := writeOffset_cases s o v
  · exact e
  · rw [e]
    have ho := eq_offset_of_atOffset hr
    cases r with
    | resultLen | resultAux | errInfo => rfl
    | _ => exact absurd (ho ▸ h) (by decide)

/-! ## MEM -/

theorem memAccess_of_busy {s : State} (hb : s.busy = true) (addr n : Nat) (s' : State) :
    s.memAccess addr n s' = .refused .memAccessWhileBusy := if_pos hb

theorem memAccess_inside {s : State} (hb : s.busy = false) {addr n : Nat} (h : addr + n ≤ s.memSize) (s' : State) :
    s.memAccess addr n s' = .next s' := by
  rw [State.memAccess, if_neg (Bool.eq_false_iff.mp hb), if_neg (Nat.not_lt.mpr h)]

theorem memAccess_next_iff (s : State) (addr n : Nat) (s' : State) :
    (∃ t, s.memAccess addr n s' = .next t) ↔ s.busy = false ∧ addr + n ≤ s.memSize := by
  unfold State.memAccess
  split_ifs with hb hsize
  · simp [hb]
  · simpa using fun _ => hsize
  · simp_all

/-- Bytes written read back. -/
theorem Memory.readBytes_writeBytes (m : Memory) (addr : Nat) (bytes : List Byte) :
    (m.writeBytes addr bytes).readBytes addr bytes.length = bytes := by
  apply List.ext_getElem (by simp)
  intro i _ hi
  rw [Memory.getElem_readBytes, Memory.read_writeBytes_inside hi]

/-- A memory made of cells inside it reads as those cells. -/
theorem Memory.read_ofCells {size : Nat} {cells : List Host.Cell} (h : ∀ cell ∈ cells, cell.1 < size) (a : Nat) :
    (Memory.ofCells size cells).read a = Memory.read cells a := by
  induction cells with
  | nil => rfl
  | cons cell rest ih =>
    obtain ⟨hcell, hrest⟩ := List.forall_mem_cons.mp h
    simp only [Memory.ofCells, if_pos hcell, Memory.read_write, Memory.read, ih hrest]

/-- A memory in canonical form is the one its own cells make. -/
theorem Memory.ofCells_self {size : Nat} {m : Memory} (hwf : m.wf) (h : ∀ cell ∈ m, cell.1 < size) :
    Memory.ofCells size m = m :=
  Memory.ext_of_wf (Memory.wf_ofCells size m) hwf (Memory.read_ofCells h)

/-! ## Several steps -/

theorem run_succ_of_step {s t : State} (h : step s = .next t) (k : Nat) :
    Host.Core.run core (k + 1) s = Host.Core.run core k t := by
  have hcore : core.step s = .next t := h
  simp only [Host.Core.run, hcore]

/-! ## Polling -/

/-- A read of STATUS answers the host and changes nothing else. -/
theorem step_readStatus {s : State} {rest : List Input} (h : s.inputs = Input.rd .status :: rest) :
    step s = .next ((s.setInputs rest).answer (.word s.statusWord)) :=
  step_regRead (by decide) h

theorem State.answer_complete (s : State) (w : Reply) (r : CmdResult) :
    (s.answer w).complete r = (s.complete r).answer w := by
  cases r <;> rfl

/-- What the host last read plays no part in a completion. -/
theorem blockStep_answer {s t : State} (h : blockStep s = .next t) (w : Reply) :
    blockStep (s.answer w) = .next (t.answer w) := by
  obtain ⟨hb, e⟩ | ⟨hb, ⟨_, hd⟩, e⟩ | ⟨i, hb, hd, e⟩ := blockStep_cases s
  · cases h.symm.trans e
    exact blockStep_of_idle hb
  · cases h.symm.trans e
    exact blockStep_of_decode_error (s := s.answer w) hb hd
  · rw [e, exec_eq_complete] at h
    cases h
    rw [blockStep_of_decode (s := s.answer w) hb hd, exec_eq_complete, State.answer_complete]
    congr 3
    exact commandResult_congr i rfl rfl fun r _ => by cases r <;> rfl

/-- What the host has read last after some reads of STATUS. -/
def lastReply (s : State) (polls : Nat) : Reply := if polls = 0 then s.reply else .word s.statusWord

/-- The reads of STATUS are taken, then the block's step is made. -/
theorem run_polls {s t : State} {polls : Nat} (hq : s.inputs = List.replicate polls (Input.rd .status))
    (ht : blockStep (s.setInputs []) = .next t) (hreply : t.reply = s.reply) :
    Host.Core.run core (polls + 1) s = .next (t.answer (lastReply s polls)) := by
  induction polls generalizing s t with
  | zero =>
    have hs : s.setInputs [] = s := by rw [State.setInputs, ← show s.inputs = [] from hq]
    have ht' : t.answer (lastReply s 0) = t := by rw [lastReply, if_pos rfl, ← hreply]; rfl
    rw [run_succ_of_step ((step_empty hq).trans (hs ▸ ht)), ht']
    rfl
  | succ polls ih =>
    rw [List.replicate_succ] at hq
    have hrest := ih (s := (s.setInputs (List.replicate polls (.rd .status))).answer (.word s.statusWord)) rfl
      (blockStep_answer ht _) rfl
    rw [run_succ_of_step (step_readStatus hq), hrest]
    cases polls <;> rfl

/-! ## WAIT -/

@[simp] theorem deliver_readStatus (s : State) :
    deliver (.rd .status) s = .next (s.answer (.word s.statusWord)) := rfl

/-- A read of STATUS goes on with the wait exactly while BUSY = 1 (30_encoding.md R99). -/
theorem waits_readStatus (rest : List Input) (s : State) :
    waits (.rd .status :: rest) s =
      if s.busy then waits rest (s.answer (.word s.statusWord)) else rest.isEmpty := by
  have hbit : bitOf (s.readReg .status) 0 = s.busy := (bitOf_eq_getLsbD _ _).trans s.statusWord_busy
  rw [waits, deliver_readStatus]
  simp only [Input.rd, hbit, if_true]

/-- Every way a list of inputs can begin a wait: a read of STATUS, or the block or `rst` acting in between. -/
theorem waits_cons_cases {i : Input} {rest : List Input} {s : State} (h : waits (i :: rest) s = true) :
    (i = .rd .status ∧ s.busy = false ∧ rest = []) ∨
    ∃ t, deliver i s = .next t ∧ t.inputs = s.inputs ∧ waits rest t = true := by
  cases i with
  | host op =>
    by_cases hop : Input.host op = .rd .status
    · rw [hop, waits_readStatus] at h
      split_ifs at h with hb
      · exact .inr ⟨_, (congrArg (deliver · s) hop).trans (deliver_readStatus s), rfl, h⟩
      · exact .inl ⟨hop, Bool.eq_false_iff.mpr hb, List.isEmpty_iff.mp h⟩
    · rw [waits] at h
      split at h
      · simp [hop] at h
      · cases h
  | block =>
    obtain ⟨t, ht⟩ := blockStep_next s
    rw [waits, deliver_block, ht] at h
    refine .inr ⟨t, ht, ?_, h⟩
    cases hb : s.busy with
    | false => cases ht.symm.trans (blockStep_of_idle hb); rfl
    | true =>
      obtain ⟨r, hr⟩ := blockStep_eq_complete hb
      cases ht.symm.trans hr
      exact (complete_keepsOperands s r).inputs
  | rst cells => exact .inr ⟨_, rfl, rfl, h⟩

/-- A wait ends with no command in flight and STATUS read last (30_encoding.md R99). -/
theorem deliverAll_of_waits {script : List Input} {s : State} (h : waits script s = true) :
    ∃ t, deliverAll script s = .next t ∧ t.busy = false ∧ t.reply = .word t.statusWord ∧ t.inputs = s.inputs := by
  induction script generalizing s with
  | nil => cases h
  | cons i rest ih =>
    obtain ⟨rfl, hb, rfl⟩ | ⟨u, hu, hinputs, hrest⟩ := waits_cons_cases h
    · exact ⟨_, rfl, hb, rfl, rfl⟩
    · obtain ⟨t, ht, hb, hreply, hq⟩ := ih hrest
      exact ⟨t, (deliverAll_cons hu rest).trans ht, hb, hreply, hq.trans hinputs⟩

/-- With a command in flight the polls find BUSY = 1, the block completes, and the last read finds BUSY = 0. -/
theorem waits_polls {s : State} (hb : s.busy = true) (polls : Nat) :
    waits (List.replicate polls (.rd .status) ++ [.block, .rd .status]) s = true := by
  induction polls generalizing s with
  | zero =>
    obtain ⟨r, hr⟩ := blockStep_eq_complete hb
    have hidle : (s.complete r).busy = false := by cases r <;> rfl
    rw [List.replicate_zero, List.nil_append, waits, deliver_block, hr]
    simp only [waits_readStatus, hidle]
    rfl
  | succ polls ih =>
    rw [List.replicate_succ, List.cons_append, waits_readStatus, if_pos hb]
    exact ih hb

theorem waits_waitScript (s : State) (polls : Nat) : waits (waitScript s.busy polls) s = true := by
  cases hb : s.busy with
  | false => rw [waitScript, if_neg Bool.false_ne_true, waits_readStatus, hb]; rfl
  | true => exact waits_polls hb polls

/-! ## The statements -/

/-- Settles O6. -/
theorem stepRunsDecodedCommand : Obligations.StepRunsDecodedCommand := by
  unfold Obligations.StepRunsDecodedCommand
  exact fun s i hb hd =>
    ⟨fun rest hq => (step_block hq).trans (blockStep_of_decode (s := s.setInputs rest) hb hd),
      fun hq => (step_empty hq).trans (blockStep_of_decode hb hd)⟩

/-- Settles O8: the invariant leaves STATUS nothing but BUSY. -/
theorem busyIgnoresRegisterWrites : Obligations.BusyIgnoresRegisterWrites := by
  unfold Obligations.BusyIgnoresRegisterWrites
  refine fun s hb => ⟨fun o v rest ho hq => ?_, fun h => ?_⟩
  · rw [step_regWrite ho hq, State.writeOffset_of_busy (s := s.setInputs rest) hb]
    rfl
  · obtain ⟨hdone, herr⟩ := h.busy_quiet hb
    obtain ⟨hcode, hinfo⟩ := h.no_err_no_code herr
    obtain ⟨hlen, haux⟩ := h.busy_no_result hb
    refine ⟨?_, hlen, haux, hinfo⟩
    show s.statusWord = 1#32
    simp [State.statusWord, hb, hdone, herr, hcode, flagBit]

/-- Settles O10. -/
theorem statusReadShowsFlags : Obligations.StatusReadShowsFlags := by
  unfold Obligations.StatusReadShowsFlags
  exact fun s => ⟨s.statusWord_busy, s.statusWord_done, s.statusWord_err, s.statusWord_bit_three, s.statusWord_errCode,
    s.statusWord_high⟩

/-- Settles O11. -/
theorem ctrlKeepsEnableOnly : Obligations.CtrlKeepsEnableOnly := by
  unfold Obligations.CtrlKeepsEnableOnly
  intro s v rest hb hq
  constructor
  · rw [step_regWrite (by decide) hq, State.writeOffset_ctrl (s := s.setInputs rest) hb]
    rfl
  · rw [State.writeOffset_ctrl hb]
    exact ctrlWord_of_bit v

/-- Settles O12. -/
theorem parameterRegistersHoldWrites : Obligations.ParameterRegistersHoldWrites := by
  unfold Obligations.ParameterRegistersHoldWrites
  intro s v rest hb
  refine ⟨step_writes_register (r := .srcAddr) hb, step_writes_register (r := .srcLen) hb,
    step_writes_register (r := .dstAddr) hb, step_writes_register (r := .dstCap) hb, step_writes_register (r := .srcW) hb,
    step_writes_register (r := .srcH) hb, step_writes_register (r := .dstW) hb, step_writes_register (r := .dstH) hb,
    fun r hr => ?_⟩
  rw [State.writeOffset_offset hb]
  have hread := s.readReg_writeReg_parameter hr v
  exact ⟨(hread r).trans (if_pos rfl), fun q hq => (hread q).trans (if_neg hq), s.mem_writeReg r v⟩

/-- Settles O13. -/
theorem readOnlyOffsetsIgnoreWrites : Obligations.ReadOnlyOffsetsIgnoreWrites := by
  unfold Obligations.ReadOnlyOffsetsIgnoreWrites
  intro s o v rest ho hge hq
  refine ⟨?_, s.readOffset_reserved⟩
  rw [step_regWrite ho hq, State.writeOffset_readOnly _ hge]
  rfl

/-- Settles O20. -/
theorem idleBlockTakesNoStep : Obligations.IdleBlockTakesNoStep := by
  unfold Obligations.IdleBlockTakesNoStep
  exact fun s hb => ⟨fun hq => (step_empty hq).trans (blockStep_of_idle hb),
    fun rest hq => (step_block hq).trans (blockStep_of_idle (s := s.setInputs rest) hb)⟩

/-- Settles O21. -/
theorem completionAfterAnyPolling : Obligations.CompletionAfterAnyPolling := by
  unfold Obligations.CompletionAfterAnyPolling
  intro s polls hb hq
  obtain ⟨r, hr⟩ := blockStep_eq_complete (s := s.setInputs []) hb
  have hops := complete_keepsOperands (s.setInputs []) r
  exact ⟨_, hr, by cases r <;> rfl, by cases r <;> rfl, run_polls hq hr hops.reply⟩

/-- Settles O22. -/
theorem resetClearsEveryRegister : Obligations.ResetClearsEveryRegister := by
  unfold Obligations.ResetClearsEveryRegister
  exact ⟨fun r => by cases r <;> rfl, rfl, rfl, rfl, rfl, rfl, rfl⟩

/-- Settles O23: any memory of MEM_SIZE bytes is what its own cells leave after `rst`. -/
theorem resetInputAtAnyMoment : Obligations.ResetInputAtAnyMoment := by
  unfold Obligations.ResetInputAtAnyMoment
  refine fun s rest => ⟨fun cells hq => ?_, fun m hwf hinside => ⟨m, ?_⟩⟩
  · exact ⟨_, step_rst hq, fun r => by cases r <;> rfl, rfl, rfl, rfl, rfl, rfl, rfl, rfl⟩
  · rintro u rfl
    exact ⟨_, step_rst rfl, Memory.ofCells_self hwf hinside⟩

/-- Settles O24. -/
theorem hostLoadReturnsStoredBytes : Obligations.HostLoadReturnsStoredBytes := by
  unfold Obligations.HostLoadReturnsStoredBytes
  intro s addr bytes rest hb hfit hq
  have hstore := (step_host hq).trans (memAccess_inside (s := s.setInputs _) hb hfit _)
  have hload := (step_host (s := (s.setInputs (.ld addr bytes.length :: rest)).store addr bytes) rfl).trans
    (memAccess_inside hb hfit _)
  refine ⟨_, (run_succ_of_step hstore 1).trans (run_succ_of_step hload 0), ?_, rfl, fun a ha => ?_⟩
  · exact congrArg Reply.bytes (Memory.readBytes_writeBytes _ _ _)
  · exact Memory.read_writeBytes_outside ha

/-- Settles O25. -/
theorem noHostMemoryStepWhileBusy : Obligations.NoHostMemoryStepWhileBusy := by
  unfold Obligations.NoHostMemoryStepWhileBusy
  exact fun s addr n bytes rest hb =>
    ⟨fun hq => (step_host hq).trans (memAccess_of_busy (s := s.setInputs rest) hb _ _ _),
      fun hq => (step_host hq).trans (memAccess_of_busy (s := s.setInputs rest) hb _ _ _)⟩

/-- Settles O28: the block and `rst` always step on, a host operation exactly where it keeps to the interface. -/
theorem stepsGoOnInsideTheInterface : Obligations.StepsGoOnInsideTheInterface := by
  unfold Obligations.StepsGoOnInsideTheInterface State.stepsOn
  intro s
  unfold State.hostKeepsInterface
  cases hq : s.inputs with
  | nil => simp [step_empty hq, blockStep_next s]
  | cons i rest =>
    cases i with
    | block => simp [step_block hq, blockStep_next (s.setInputs rest)]
    | rst cells => simp [step_rst hq]
    | host op =>
      rw [step_host hq]
      cases op with
      | regWrite width o v | regRead width o => cases h : registerShapeOk width o <;> simp [hostStep, h]
      | memStore addr bytes | memLoad addr n => simp [hostStep, memAccess_next_iff]

/-- Settles O58. -/
theorem waitReadsStatusUntilIdle : Obligations.WaitReadsStatusUntilIdle := by
  unfold Obligations.WaitReadsStatusUntilIdle
  refine fun s => ⟨waits_waitScript s, fun script h => ?_⟩
  obtain ⟨t, ht, hb, hreply, hq⟩ := deliverAll_of_waits h
  exact ⟨t, ht, hb, hreply, t.statusWord_busy.trans hb, hq⟩

end Sys2Proof.Machine
end

section
/-! What a pair of commands leaves of an image: the pixel conversions undo each other (41_pixel_format.md R126), and so do
padding and unpadding of rows, up to the padding itself (43_row_padder.md R185). Settles O32 and O36. -/

namespace Sys2Proof.Machine

/-- A command that ended without an error passed its checks and did its work. -/
theorem ChecksThen.of_success {i : Instr} {zero : State → Prop} {src dst : State → Nat} {work : State → CmdResult}
    (h : ChecksThen i zero src dst work) {s t : State} (he : exec i s = .next t) (ht : t.err = false) :
    s.passesChecks zero src dst ∧ t = s.complete (work s) := by
  cases he.symm.trans (exec_eq_complete i s)
  obtain ⟨code, info, e⟩ | ⟨hp, e⟩ := h.result_cases s
  · rw [e] at ht
    cases ht
  · exact ⟨hp, by rw [e]⟩

/-! ## Pixel conversions -/

theorem swapChannel_swapChannel : ∀ k : Nat, swapChannel (swapChannel k) = k
  | 0 => rfl
  | 1 => rfl
  | 2 => rfl
  | _ + 3 => rfl

theorem swapChannel_lt {c : Nat} (hc : 3 ≤ c) : ∀ {k : Nat}, k < c → swapChannel k < c
  | 0, _ => hc
  | 1, h => h
  | 2, _ => Nat.zero_lt_of_lt hc
  | _ + 3, h => h

theorem pixelsExchanged_of_success {i : Instr} {c d : Nat} (h : ∀ s, commandResult i s = convertPixels c d s)
    {s t : State} (he : exec i s = .next t) (ht : t.err = false) : PixelsExchanged c d s t := by
  obtain ⟨-, rfl⟩ := (checksThen_of_convertPixels h).of_success he ht
  exact pixelsExchanged_convertedImage c d s

/-- A command keeps the size of the source image. -/
theorem exec_keepsOperands {i : Instr} {s t : State} (he : exec i s = .next t) : KeepsOperands s t := by
  cases he.symm.trans (exec_eq_complete i s)
  exact complete_keepsOperands s _

/-- Two exchanges in a row give every byte back. -/
theorem pixelsExchanged_twice {c : Nat} (hc : 3 ≤ c) {s t u : State} {e : Word} (hpixels : t.pixels = s.pixels)
    (ht : PixelsExchanged c c s t) (hu : PixelsExchanged c c (t.thenAt s.dstAddr e) u) {i : Nat}
    (hi : i < s.pixels * c) : u.mem.read (e.toNat + i) = s.mem.read (s.srcAddr.toNat + i) := by
  have hk : i % c < c := Nat.mod_lt _ (by omega)
  have hp : i / c < s.pixels := Nat.div_lt_of_lt_mul (by rwa [Nat.mul_comm])
  calc u.mem.read (e.toNat + i)
    _ = u.mem.read (e.toNat + c * (i / c) + i % c) := by rw [Nat.add_assoc, Nat.div_add_mod]
    _ = t.mem.read (s.dstAddr.toNat + c * (i / c) + swapChannel (i % c)) := hu _ (hpixels ▸ hp) _ hk
    _ = s.mem.read (s.srcAddr.toNat + c * (i / c) + swapChannel (swapChannel (i % c))) :=
      ht _ hp _ (swapChannel_lt hc hk)
    _ = s.mem.read (s.srcAddr.toNat + i) := by rw [swapChannel_swapChannel, Nat.add_assoc, Nat.div_add_mod]

/-- A conversion after a conversion of the same channel count gives every byte back (41_pixel_format.md R126). -/
theorem convertPixels_twice {i j : Instr} {c : Channels}
    (hi : ∀ s, commandResult i s = convertPixels (channelCount c) (channelCount c) s)
    (hj : ∀ s, commandResult j s = convertPixels (channelCount c) (channelCount c) s) {s t u : State} {e : Word}
    (hst : exec i s = .next t) (ht : t.err = false) (htu : exec j (t.thenAt s.dstAddr e) = .next u) (hu : u.err = false) :
    ∀ q < s.pixels * channelCount c, u.mem.read (e.toNat + q) = s.mem.read (s.srcAddr.toNat + q) := by
  obtain hops := exec_keepsOperands hst
  have hpixels : t.pixels = s.pixels := by rw [State.pixels, hops.srcW, hops.srcH, State.pixels]
  exact fun q hq => pixelsExchanged_twice (three_le_channelCount c) hpixels (pixelsExchanged_of_success hi hst ht)
    (pixelsExchanged_of_success hj htu hu) hq

/-! ## Row padding -/

section Rows

variable {ch : Channels} {s t : State} (hsize : s.memSize ≤ 2 ^ 32)
include hsize

theorem rowPad_of_success (he : exec (.rowPad ch) s = .next t) (ht : t.err = false) :
    ∀ y < s.srcH.toNat, ∀ i < rowStride s.srcW.toNat (channelCount ch),
      t.mem.read (s.dstAddr.toNat + y * rowStride s.srcW.toNat (channelCount ch) + i) =
        if i < rowBytes s.srcW.toNat (channelCount ch) then
          s.mem.read (s.srcAddr.toNat + y * rowBytes s.srcW.toNat (channelCount ch) + i)
        else 0x00#8 := by
  obtain ⟨hp, -⟩ := (checksThen_rowPad ch).of_success he ht
  obtain ⟨t', ht', -, hbytes⟩ := exec_rowPad ch hsize hp
  cases he.symm.trans ht'
  exact hbytes

theorem rowUnpad_of_success (he : exec (.rowUnpad ch) s = .next t) (ht : t.err = false) :
    ∀ y < s.srcH.toNat, ∀ i < rowBytes s.srcW.toNat (channelCount ch),
      t.mem.read (s.dstAddr.toNat + y * rowBytes s.srcW.toNat (channelCount ch) + i) =
        s.mem.read (s.srcAddr.toNat + y * rowStride s.srcW.toNat (channelCount ch) + i) := by
  obtain ⟨hp, -⟩ := (checksThen_rowUnpad ch).of_success he ht
  obtain ⟨t', ht', -, hbytes⟩ := exec_rowUnpad ch hsize hp
  cases he.symm.trans ht'
  exact hbytes

variable {u : State} {e : Word}

/-- ROW.UNPAD takes the padding away again (43_row_padder.md R185). -/
theorem rowUnpad_after_rowPad (hst : exec (.rowPad ch) s = .next t) (ht : t.err = false)
    (htu : exec (.rowUnpad ch) (t.thenAt s.dstAddr e) = .next u) (hu : u.err = false) :
    ∀ i < s.srcH.toNat * rowBytes s.srcW.toNat (channelCount ch),
      u.mem.read (e.toNat + i) = s.mem.read (s.srcAddr.toNat + i) := by
  intro i hi
  have hops := exec_keepsOperands hst
  have hpad := rowPad_of_success hsize hst ht
  have hunpad := rowUnpad_of_success (s := t.thenAt s.dstAddr e) (hops.memSize.trans_le hsize) htu hu
  simp only [State.thenAt, hops.srcW, hops.srcH] at hunpad
  generalize hlen : rowBytes s.srcW.toNat (channelCount ch) = len at *
  have hy : i / len < s.srcH.toNat := Nat.div_lt_of_lt_mul (by rwa [Nat.mul_comm])
  have hx : i % len < len := Nat.mod_lt _ (Nat.pos_of_ne_zero fun h0 => by simp [h0] at hi)
  have hx' : i % len < rowStride s.srcW.toNat (channelCount ch) :=
    hx.trans_le (hlen ▸ rowBytes_le_rowStride _ _)
  have hrow : i / len * len + i % len = i := by rw [Nat.mul_comm, Nat.div_add_mod]
  calc u.mem.read (e.toNat + i)
    _ = u.mem.read (e.toNat + i / len * len + i % len) := by rw [Nat.add_assoc, hrow]
    _ = s.mem.read (s.srcAddr.toNat + i / len * len + i % len) := by
      rw [hunpad _ hy _ hx, hpad _ hy _ hx', if_pos hx]
    _ = s.mem.read (s.srcAddr.toNat + i) := by rw [Nat.add_assoc, hrow]

/-- ROW.PAD puts zeros where ROW.UNPAD left the padding out (43_row_padder.md R185). -/
theorem rowPad_after_rowUnpad (hst : exec (.rowUnpad ch) s = .next t) (ht : t.err = false)
    (htu : exec (.rowPad ch) (t.thenAt s.dstAddr e) = .next u) (hu : u.err = false) :
    ∀ y < s.srcH.toNat, ∀ i < rowStride s.srcW.toNat (channelCount ch),
      u.mem.read (e.toNat + y * rowStride s.srcW.toNat (channelCount ch) + i) =
        if i < rowBytes s.srcW.toNat (channelCount ch) then
          s.mem.read (s.srcAddr.toNat + y * rowStride s.srcW.toNat (channelCount ch) + i)
        else 0x00#8 := by
  intro y hy i hi
  have hops := exec_keepsOperands hst
  have hunpad := rowUnpad_of_success hsize hst ht
  have hpad := rowPad_of_success (s := t.thenAt s.dstAddr e) (hops.memSize.trans_le hsize) htu hu
  simp only [State.thenAt, hops.srcW, hops.srcH] at hpad
  rw [hpad y hy i hi]
  split_ifs with hlt
  · exact hunpad y hy i hlt
  · rfl

end Rows

/-! ## The statements -/

/-- Settles O32. -/
theorem pixelConversionLaws : Obligations.PixelConversionLaws := by
  unfold Obligations.PixelConversionLaws
  refine ⟨fun c s t u e _ _ hst ht htu hu => ?_, fun c s t u e _ _ hst ht htu hu => ?_,
    fun s t u _ _ hst ht hsu hu p hp k hk => ?_⟩
  · exact convertPixels_twice (fun _ => rfl) (fun _ => rfl) hst ht htu hu
  · exact convertPixels_twice (fun _ => rfl) (fun _ => rfl) hst ht htu hu
  · have hkeep : PixelsExchanged 4 4 s t := pixelsExchanged_of_success (fun _ => rfl) hst ht
    have hdrop : PixelsExchanged 4 3 s u := pixelsExchanged_of_success (fun _ => rfl) hsu hu
    exact (hdrop p hp k hk).trans (hkeep p hp k (by omega)).symm

/-- Settles O36. -/
theorem rowPaddingLaws : Obligations.RowPaddingLaws := by
  unfold Obligations.RowPaddingLaws
  exact ⟨fun _ _ _ _ _ hsize _ hst ht htu hu => rowUnpad_after_rowPad hsize hst ht htu hu,
    fun _ _ _ _ _ hsize _ hst ht htu hu => rowPad_after_rowUnpad hsize hst ht htu hu⟩

end Sys2Proof.Machine
end

section
/-! The scalers' values (42_scalers.md R150 to R153, R160 to R163): both integer forms are exact, where the taps of SCALE.BL
lie and what bounds its blend, the cubic kernel's weights, and SCALE.BC as subsampling. Settles O39 to O43. -/

namespace Sys2Proof.Machine

/-! ## The taps of SCALE.BL -/

/-- The source column or row of a destination one lies at least one before the last, if there are two
(42_scalers.md R152). -/
theorem bilinearTap_lt {old new d : Nat} (h : 2 ≤ old) (hd : d < new) : (old - 1) * d / new < old - 1 :=
  Nat.div_lt_of_lt_mul (by rw [Nat.mul_comm]; exact Nat.mul_lt_mul_of_pos_right hd (by omega))

theorem bilinearTap_of_one (new d : Nat) : (1 - 1) * d / new = 0 := by simp

theorem bilinearTap_inside {old new d : Nat} (h : 0 < old) (hd : d < new) : (old - 1) * d / new < old := by
  obtain h2 | rfl : 2 ≤ old ∨ old = 1 := by omega
  · exact (bilinearTap_lt h2 hd).trans_le (Nat.sub_le _ _)
  · rw [bilinearTap_of_one]
    exact Nat.one_pos

/-- With two columns or rows or more the second tap is the next one; with one it is the only one (42_scalers.md R152). -/
theorem bilinearTap_next {old new d : Nat} (hd : d < new) :
    (2 ≤ old → (old - 1) * d / new + 1 ≤ old - 1 ∧
      min ((old - 1) * d / new + 1) (old - 1) = (old - 1) * d / new + 1) ∧
    (old = 1 → (old - 1) * d / new = 0 ∧ min ((old - 1) * d / new + 1) (old - 1) = 0) := by
  refine ⟨fun h => ?_, ?_⟩
  · have hlt := bilinearTap_lt h hd
    exact ⟨hlt, Nat.min_eq_left hlt⟩
  · rintro rfl
    exact ⟨bilinearTap_of_one new d, Nat.min_zero _⟩

/-! ## Bounds of the blend -/

/-- The weights of a blend sum to w*h, so it is at least that many times any lower bound of the taps. -/
theorem le_blendSum {a b c d m w h r v : Nat} (ha : m ≤ a) (hb : m ≤ b) (hc : m ≤ c) (hd : m ≤ d) (hr : r ≤ w)
    (hv : v ≤ h) : m * (w * h) ≤ blendSum a b c d (w - r) r (h - v) v :=
  calc m * (w * h) = m * ((w - r + r) * (h - v + v)) := by rw [Nat.sub_add_cancel hr, Nat.sub_add_cancel hv]
    _ = blendSum m m m m (w - r) r (h - v) v := by unfold blendSum; ring
    _ ≤ blendSum a b c d (w - r) r (h - v) v := by unfold blendSum; gcongr

/-- `m` bounds the four taps of a destination byte from below, `M` from above. -/
structure BoundsTaps (sample : Sampler) (oldW oldH newW newH dx dy k m M : Nat) : Prop where
  least : ∀ x ∈ [(oldW - 1) * dx / newW, min ((oldW - 1) * dx / newW + 1) (oldW - 1)],
    ∀ y ∈ [(oldH - 1) * dy / newH, min ((oldH - 1) * dy / newH + 1) (oldH - 1)], m ≤ sample x y k
  greatest : ∀ x ∈ [(oldW - 1) * dx / newW, min ((oldW - 1) * dx / newW + 1) (oldW - 1)],
    ∀ y ∈ [(oldH - 1) * dy / newH, min ((oldH - 1) * dy / newH + 1) (oldH - 1)], sample x y k ≤ M

namespace BoundsTaps

variable {sample : Sampler} {oldW oldH newW newH dx dy k m M : Nat}
  (h : BoundsTaps sample oldW oldH newW newH dx dy k m M) (hw : 0 < newW) (hh : 0 < newH)
include h hw hh

theorem sum : m * (newW * newH) ≤ bilinearSum sample oldW oldH newW newH dx dy k ∧
    bilinearSum sample oldW oldH newW newH dx dy k ≤ M * (newW * newH) := by
  have hrx := (Nat.mod_lt ((oldW - 1) * dx) hw).le
  have hry := (Nat.mod_lt ((oldH - 1) * dy) hh).le
  have hl := h.least
  have hg := h.greatest
  simp only [List.forall_mem_cons, List.not_mem_nil, false_implies, implies_true, and_true] at hl hg
  exact ⟨le_blendSum hl.1.1 hl.2.1 hl.1.2 hl.2.2 hrx hry, blendSum_le hg.1.1 hg.2.1 hg.1.2 hg.2.2 hrx hry⟩

/-- The byte lies between the bounds of its taps (42_scalers.md R153). -/
theorem value : m ≤ bilinearValue sample oldW oldH newW newH dx dy k ∧
    bilinearValue sample oldW oldH newW newH dx dy k ≤ M := by
  obtain ⟨hl, hg⟩ := h.sum hw hh
  rw [bilinearValue_eq_div]
  exact ⟨(Nat.le_div_iff_mul_le (Nat.mul_pos hw hh)).mpr hl, Nat.div_le_of_le_mul (hg.trans_eq (Nat.mul_comm _ _))⟩

/-- The exact blend lies between the bounds of its taps (42_scalers.md R153). -/
theorem blend (how : 0 < oldW) (hoh : 0 < oldH) : (m : ℚ) ≤ bilinearExact sample oldW oldH newW newH dx dy k ∧
    bilinearExact sample oldW oldH newW newH dx dy k ≤ (M : ℚ) := by
  obtain ⟨hl, hg⟩ := h.sum hw hh
  have hpos : (0 : ℚ) < (newW * newH : Nat) := Nat.cast_pos.mpr (Nat.mul_pos hw hh)
  rw [bilinearExact_eq_div sample how hoh hw hh, le_div_iff₀ hpos, div_le_iff₀ hpos]
  exact ⟨by exact_mod_cast hl, by exact_mod_cast hg⟩

end BoundsTaps

/-- The least and the greatest of the four taps bound them. -/
theorem boundsTaps_of_four {sample : Sampler} {oldW oldH newW newH dx dy k x y x1 y1 : Nat}
    (hx : (oldW - 1) * dx / newW = x) (hy : (oldH - 1) * dy / newH = y) (hx1 : min (x + 1) (oldW - 1) = x1)
    (hy1 : min (y + 1) (oldH - 1) = y1) :
    BoundsTaps sample oldW oldH newW newH dx dy k
      (min (min (sample x y k) (sample x1 y k)) (min (sample x y1 k) (sample x1 y1 k)))
      (max (max (sample x y k) (sample x1 y k)) (max (sample x y1 k) (sample x1 y1 k))) := by
  subst hx hy hx1 hy1
  constructor <;> simp

/-- Bounds of the samples of an image bound the taps, which lie inside it (42_scalers.md R152). -/
theorem boundsTaps_of_samples {sample : Sampler} {oldW oldH newW newH dx dy k lo hi : Nat} (how : 0 < oldW)
    (hoh : 0 < oldH) (hdx : dx < newW) (hdy : dy < newH)
    (h : ∀ x < oldW, ∀ y < oldH, lo ≤ sample x y k ∧ sample x y k ≤ hi) :
    BoundsTaps sample oldW oldH newW newH dx dy k lo hi := by
  have inside {old new d : Nat} (ho : 0 < old) (hd : d < new) :
      ∀ x ∈ [(old - 1) * d / new, min ((old - 1) * d / new + 1) (old - 1)], x < old := by
    have hx := bilinearTap_inside ho hd
    simp only [List.forall_mem_cons, List.not_mem_nil, false_implies, implies_true, and_true]
    exact ⟨hx, (min_le_right _ _).trans_lt (by omega)⟩
  exact ⟨fun x hx y hy => (h x (inside how hdx x hx) y (inside hoh hdy y hy)).1,
    fun x hx y hy => (h x (inside how hdx x hx) y (inside hoh hdy y hy)).2⟩

/-- The first byte is the first sample (42_scalers.md R153). -/
theorem bilinearValue_zero (sample : Sampler) (oldW oldH k : Nat) {newW newH : Nat} (hw : 0 < newW) (hh : 0 < newH) :
    bilinearValue sample oldW oldH newW newH 0 0 k = sample 0 0 k := by
  rw [bilinearValue_eq_div]
  apply Nat.div_eq_of_eq_mul_left (Nat.mul_pos hw hh)
  simp [bilinearSum, blendSum, Nat.mul_assoc]

/-! ## SCALE.BC at a source coordinate without a fraction -/

/-- At a fraction of 0 only tap 1 has a weight (42_scalers.md R161, R162). -/
theorem weightedTaps_zero (w h : ℤ) (tap : Nat → Nat → Nat) :
    weightedTaps 0 w 0 h tap = 4 * w ^ 3 * h ^ 3 * tap 1 1 := by
  simp only [weightedTaps, sumTaps, cubicWeight]
  ring

/-- Tap 1 of a coordinate inside the image is that coordinate (42_scalers.md R160). -/
theorem cubicTap_one {base size : Nat} (h : base < size) : cubicTap base size 1 = base := by
  unfold cubicTap clamp
  omega

theorem bicubicSum_subsampling (sample : Sampler) {a b newW newH dx dy : Nat} (k : Nat) (ha : 0 < a) (hb : 0 < b)
    (hdx : dx < newW) (hdy : dy < newH) :
    bicubicSum sample (a * newW) (b * newH) newW newH dx dy k =
      bicubicDen newW newH * sample (dx * a) (dy * b) k := by
  have inside {f d new : Nat} (hf : 0 < f) (hd : d < new) : d * f < f * new := by
    rw [Nat.mul_comm f]
    exact Nat.mul_lt_mul_of_pos_right hd hf
  rw [bicubicSum, ← Nat.mul_assoc, ← Nat.mul_assoc, Nat.mul_mod_left, Nat.mul_mod_left, Nat.cast_zero,
    weightedTaps_zero, bicubicTap, ← Nat.mul_assoc, ← Nat.mul_assoc, Nat.mul_div_cancel _ (Nat.zero_lt_of_lt hdx),
    Nat.mul_div_cancel _ (Nat.zero_lt_of_lt hdy), cubicTap_one (inside ha hdx), cubicTap_one (inside hb hdy), bicubicDen]

/-- A multiple of the denominator rounds to its factor. -/
theorem round_mul {d : ℤ} (hd : 0 < d) (v : ℤ) : (2 * (d * v) + d) / (2 * d) = v := by
  rw [show 2 * (d * v) + d = d + v * (2 * d) by ring, Int.add_mul_ediv_right _ _ (by omega),
    Int.ediv_eq_zero_of_lt hd.le (by omega), zero_add]

/-! ## The statements -/

/-- Settles O39. -/
theorem bilinearIntegerFormIsExact : Obligations.BilinearIntegerFormIsExact := by
  unfold Obligations.BilinearIntegerFormIsExact
  exact fun sample _ _ _ _ dx dy k how hoh hdx hdy =>
    bilinearValue_eq_floor sample how hoh (Nat.zero_lt_of_lt hdx) (Nat.zero_lt_of_lt hdy) dx dy k

/-- Settles O40. -/
theorem bicubicIntegerFormIsExact : Obligations.BicubicIntegerFormIsExact := by
  unfold Obligations.BicubicIntegerFormIsExact
  intro sample oldW oldH newW newH dx dy k _ _ hdx hdy
  have hvalue := bicubicValue_eq_clamp sample oldW oldH (Nat.zero_lt_of_lt hdx) (Nat.zero_lt_of_lt hdy) dx dy k
  exact (Int.toNat_natCast _).symm.trans (congrArg Int.toNat hvalue)

/-- Settles O41. -/
theorem bilinearTapsAndBounds : Obligations.BilinearTapsAndBounds := by
  unfold Obligations.BilinearTapsAndBounds
  intro sample oldW oldH newW newH dx dy k how hoh hdx hdy
  have hw := Nat.zero_lt_of_lt hdx
  have hh := Nat.zero_lt_of_lt hdy
  have hfour : BoundsTaps sample oldW oldH newW newH dx dy k _ _ := boundsTaps_of_four rfl rfl rfl rfl
  obtain ⟨hcols, hcol⟩ := bilinearTap_next (old := oldW) hdx
  obtain ⟨hrows, hrow⟩ := bilinearTap_next (old := oldH) hdy
  refine ⟨⟨bilinearTap_inside how hdx, ?_, bilinearTap_inside hoh hdy, ?_⟩, hcols, hcol, hrows, hrow,
    hfour.blend hw hh how hoh, hfour.value hw hh,
    fun lo hi h => (boundsTaps_of_samples how hoh hdx hdy h).value hw hh, bilinearValue_zero sample oldW oldH k hw hh⟩
  · exact (min_le_right _ _).trans_lt (Nat.sub_lt how Nat.one_pos)
  · exact (min_le_right _ _).trans_lt (Nat.sub_lt hoh Nat.one_pos)

/-- Settles O42. -/
theorem bicubicSubsampling : Obligations.BicubicSubsampling := by
  unfold Obligations.BicubicSubsampling
  intro sample a b newW newH dx dy k ha hb hdx hdy hle
  rw [bicubicValue_eq_clamp_div, bicubicSum_subsampling sample k ha hb hdx hdy,
    round_mul (bicubicDen_pos (Nat.zero_lt_of_lt hdx) (Nat.zero_lt_of_lt hdy))]
  unfold clamp
  omega

/-- Settles O43: w0 is -t(1-t)²/2 and w3 is -t²(1-t)/2. -/
theorem cubicKernelWeights : Obligations.CubicKernelWeights := by
  unfold Obligations.CubicKernelWeights
  refine fun t q0 q1 q2 q3 => ⟨rfl, ?_, by ring, ?_, ?_, fun h0 h1 => ⟨?_, ?_⟩⟩
  · unfold cubicKernel; ring
  · unfold cubicKernel; ring
  · unfold cubicKernel; ring
  · have hw : 0 ≤ t * (1 - t) ^ 2 := by positivity
    linarith
  · have hw : 0 ≤ t ^ 2 * (1 - t) := mul_nonneg (by positivity) (by linarith)
    linarith

end Sys2Proof.Machine
end

section
/-! LZW bits and sub-blocks: the minimum code size (44_lzw_encoder.md R202), packing and reading bits (R207,
45_lzw_decoder.md R242), framing and deframing (44_lzw_encoder.md R208, 45_lzw_decoder.md R241), what decoding can end in
(R244) and how long packed codes can be (44_lzw_encoder.md R211). Settles O47, O49, O50, O51, O52 and O53. -/

namespace Sys2Proof.Machine

/-! ## The bits of a number -/

@[simp] theorem length_codeBits (c w : Nat) : (codeBits c w).length = w := by simp [codeBits]

theorem getElem?_codeBits (c : Nat) {w j : Nat} (h : j < w) : (codeBits c w)[j]? = some (c.testBit j) := by
  simp [codeBits, h]

/-- Bit j of the number is bit j of the string (44_lzw_encoder.md R207). -/
theorem testBit_bitsValue : ∀ (bits : List Bool) (j : Nat), (bitsValue bits).testBit j = bits.getD j false
  | [], j => by simp [bitsValue]
  | b :: rest, 0 => by cases b <;> simp [bitsValue, flagBit]
  | b :: rest, j + 1 => by
    have hb := flagBit_lt_two b
    have hhalf : bitsValue (b :: rest) / 2 = bitsValue rest := by rw [bitsValue]; omega
    rw [Nat.testBit_succ, hhalf, testBit_bitsValue rest j, List.getD_cons_succ]

/-- The bits of a code that fits its width read as that code (45_lzw_decoder.md R242). -/
theorem bitsValue_codeBits {c w : Nat} (h : c < 2 ^ w) : bitsValue (codeBits c w) = c := by
  apply Nat.eq_of_testBit_eq
  intro j
  rw [testBit_bitsValue, List.getD_eq_getElem?_getD]
  obtain hlt | hge := Nat.lt_or_ge j w
  · rw [getElem?_codeBits c hlt, Option.getD_some]
  · rw [List.getElem?_eq_none (by simpa using hge), Option.getD_none]
    exact (Nat.testBit_eq_false_of_lt (h.trans_le (Nat.pow_le_pow_right Nat.two_pos hge))).symm

@[simp] theorem take_codeBits_append (c w : Nat) (rest : List Bool) : (codeBits c w ++ rest).take w = codeBits c w :=
  List.take_left' (length_codeBits c w)

@[simp] theorem drop_codeBits_append (c w : Nat) (rest : List Bool) : (codeBits c w ++ rest).drop w = rest :=
  List.drop_left' (length_codeBits c w)

/-! ## Packing and reading back -/

@[simp] theorem length_payloadBits (payload : List Nat) : (payloadBits payload).length = 8 * payload.length := by
  induction payload with
  | nil => rfl
  | cons byte rest ih =>
    rw [payloadBits, List.flatMap_cons, List.length_append, length_codeBits, List.length_cons, ← payloadBits, ih]
    omega

/-- String bit q is bit `q mod 8` of byte `q div 8` (44_lzw_encoder.md R207). -/
theorem getElem?_payloadBits {payload : List Nat} {q : Nat} (h : q < 8 * payload.length) :
    (payloadBits payload)[q]? = some ((payload.getD (q / 8) 0).testBit (q % 8)) := by
  induction payload generalizing q with
  | nil => simp at h
  | cons byte rest ih =>
    rw [payloadBits, List.flatMap_cons, ← payloadBits]
    rw [List.length_cons] at h
    obtain hlt | hge := Nat.lt_or_ge q 8
    · rw [List.getElem?_append_left (by simpa using hlt), getElem?_codeBits _ hlt, Nat.div_eq_of_lt hlt,
        Nat.mod_eq_of_lt hlt, List.getD_cons_zero]
    · have hdiv : q / 8 = (q - 8) / 8 + 1 := by omega
      have hmod : q % 8 = (q - 8) % 8 := by omega
      rw [List.getElem?_append_right (by simpa using hge), length_codeBits, ih (by omega), hdiv, hmod,
        List.getD_cons_succ]

theorem length_packBits (bits : List Bool) : (packBits bits).length = (bits.length + 7) / 8 := by simp [packBits]

theorem getD_packBits {bits : List Bool} {i : Nat} (h : i < (bits.length + 7) / 8) :
    (packBits bits).getD i 0 = bitsValue ((bits.drop (8 * i)).take 8) := by
  rw [packBits, List.getD_eq_getElem _ _ (by simpa using h), List.getElem_map, List.getElem_range]

/-- The zero bits that fill the last byte. -/
def fillBits (bits : List Bool) : Nat := 8 * ((bits.length + 7) / 8) - bits.length

theorem fillBits_lt (bits : List Bool) : fillBits bits < 8 := by
  unfold fillBits
  omega

/-- Packed bits read back, with zeros to the end of the last byte (44_lzw_encoder.md R207, 45_lzw_decoder.md R242). -/
theorem payloadBits_packBits (bits : List Bool) :
    payloadBits (packBits bits) = bits ++ List.replicate (fillBits bits) false := by
  apply List.ext_getElem?
  intro q
  obtain hlt | hge := Nat.lt_or_ge q (8 * ((bits.length + 7) / 8))
  · have hmod : q % 8 < 8 := Nat.mod_lt _ (by decide)
    have hright : (bits ++ List.replicate (fillBits bits) false)[q]? = some (bits.getD q false) := by
      obtain hin | hout := Nat.lt_or_ge q bits.length
      · rw [List.getElem?_append_left hin, List.getD_eq_getElem _ _ hin, List.getElem?_eq_getElem hin]
      · rw [List.getElem?_append_right hout, List.getElem?_replicate, if_pos (by unfold fillBits; omega),
          List.getD_eq_default _ _ hout]
    rw [hright, getElem?_payloadBits (by rwa [length_packBits]), getD_packBits (by omega), testBit_bitsValue,
      List.getD_eq_getElem?_getD, List.getElem?_take_of_lt hmod, List.getElem?_drop, Nat.div_add_mod,
      List.getD_eq_getElem?_getD]
  · rw [List.getElem?_eq_none, List.getElem?_eq_none]
    · rw [List.length_append, List.length_replicate, fillBits]
      omega
    · rwa [length_payloadBits, length_packBits]

/-! ## Any split into sub-blocks -/

/-- The sub-blocks of the given payloads (44_lzw_encoder.md R208). -/
def blockChain (blocks : List (List Nat)) : List Nat := blocks.flatMap fun b => b.length :: b

theorem blockChain_cons (b : List Nat) (rest : List (List Nat)) :
    blockChain (b :: rest) = b.length :: (b ++ blockChain rest) := rfl

theorem length_blockChain (blocks : List (List Nat)) :
    (blockChain blocks).length = blocks.flatten.length + blocks.length := by
  induction blocks with
  | nil => rfl
  | cons b rest ih =>
    simp only [blockChain_cons, List.length_cons, List.length_append, ih, List.flatten_cons]
    omega

@[simp] theorem deframeFrom_nil (used fuel : Nat) : deframeFrom used fuel [] = .error (.decodeTrunc, 0) := by
  cases fuel <;> rfl

/-- A whole sub-block's payload comes before that of the chain behind it (45_lzw_decoder.md R241). -/
theorem deframeFrom_block (used fuel : Nat) {b : List Nat} (hb : 1 ≤ b.length) (rest : List Nat) :
    deframeFrom used (fuel + 1) (b.length :: (b ++ rest)) =
      (deframeFrom (used + 1 + b.length) fuel rest).map fun r => (b ++ r.1, r.2) := by
  obtain ⟨h, -⟩ | ⟨h, -⟩ | ⟨-, h⟩ := deframeFrom_cons_cases used fuel b.length (b ++ rest)
  · omega
  · rw [List.length_append] at h
    omega
  · rw [h, List.drop_left, List.take_left]

/-- The terminator ends a chain, whatever bytes follow it (45_lzw_decoder.md R241). -/
theorem deframeFrom_blockChain {blocks : List (List Nat)} (hb : ∀ b ∈ blocks, 1 ≤ b.length) (after : List Nat)
    {used fuel : Nat} (hfuel : blocks.length < fuel) :
    deframeFrom used fuel (blockChain blocks ++ 0 :: after) =
      .ok (blocks.flatten, used + (blockChain blocks).length + 1) := by
  induction blocks generalizing used fuel with
  | nil =>
    obtain ⟨f, rfl⟩ := Nat.exists_eq_succ_of_ne_zero (Nat.ne_zero_of_lt hfuel)
    rfl
  | cons b rest ih =>
    obtain ⟨f, rfl⟩ := Nat.exists_eq_succ_of_ne_zero (Nat.ne_zero_of_lt hfuel)
    obtain ⟨hhead, hrest⟩ := List.forall_mem_cons.mp hb
    rw [blockChain_cons, List.cons_append, List.append_assoc, deframeFrom_block used f hhead,
      ih hrest (Nat.lt_of_succ_lt_succ hfuel)]
    simp only [Except.map, List.flatten_cons, List.length_cons, List.length_append]
    congr 2
    omega

/-- A chain cut short anywhere is DecodeTrunc(0) (45_lzw_decoder.md R241). -/
theorem deframeFrom_take_blockChain {blocks : List (List Nat)} (hb : ∀ b ∈ blocks, 1 ≤ b.length) {n : Nat}
    (hn : n < (blockChain blocks).length + 1) (used fuel : Nat) :
    deframeFrom used fuel ((blockChain blocks ++ [0]).take n) = .error (.decodeTrunc, 0) := by
  induction blocks generalizing used fuel n with
  | nil =>
    obtain rfl : n = 0 := by simpa [blockChain] using hn
    exact deframeFrom_nil used fuel
  | cons b rest ih =>
    obtain ⟨hhead, hrest⟩ := List.forall_mem_cons.mp hb
    cases n with
    | zero => exact deframeFrom_nil used fuel
    | succ n =>
      rw [blockChain_cons, List.length_cons, List.length_append] at hn
      rw [blockChain_cons, List.cons_append, List.append_assoc, List.take_succ_cons]
      cases fuel with
      | zero => rfl
      | succ fuel =>
        obtain hcut | hwhole := Nat.lt_or_ge n b.length
        · obtain ⟨h, -⟩ | ⟨-, h⟩ | ⟨h, -⟩ := deframeFrom_cons_cases used fuel b.length
            ((b ++ (blockChain rest ++ [0])).take n)
          · omega
          · exact h
          · exact absurd (h.trans (List.length_take_le _ _)) (by omega)
        · rw [List.take_append, List.take_of_length_le hwhole, deframeFrom_block used fuel hhead, ih hrest (by omega)]
          rfl

/-- Deframing a whole chain and whatever follows it. -/
theorem deframe_blockChain {blocks : List (List Nat)} (hb : ∀ b ∈ blocks, 1 ≤ b.length) (after : List Nat) :
    deframe (blockChain blocks ++ [0] ++ after) = .ok (blocks.flatten, (blockChain blocks ++ [0]).length) := by
  rw [List.append_assoc, deframe]
  rw [show [0] ++ after = 0 :: after from rfl, deframeFrom_blockChain hb after]
  · simp
  · rw [List.length_append, length_blockChain, List.length_cons]
    omega

/-! ## The frame of a payload -/

/-- Consecutive pieces of k make up the list they are cut from. -/
theorem flatMap_pieces {α : Type} (l : List α) (k n : Nat) :
    (List.range n).flatMap (fun i => (l.drop (k * i)).take k) = l.take (k * n) := by
  induction n with
  | zero => simp
  | succ n ih => rw [List.range_succ, List.flatMap_append, ih, Nat.mul_succ, List.take_add, List.flatMap_singleton]

/-- The number of sub-blocks of a payload, `ceil(P/255)` (44_lzw_encoder.md R208). -/
def blockCount (payload : List Nat) : Nat := (payload.length + 254) / 255

/-- The payload bytes of sub-block i. -/
def blockPart (payload : List Nat) (i : Nat) : List Nat := (payload.drop (255 * i)).take 255

theorem length_blockPart (payload : List Nat) (i : Nat) :
    (blockPart payload i).length = min 255 (payload.length - 255 * i) := by
  rw [blockPart, List.length_take, List.length_drop]

/-- The payloads of the sub-blocks. -/
def frameBlocks (payload : List Nat) : List (List Nat) := (List.range (blockCount payload)).map (blockPart payload)

theorem frame_eq_blockChain (payload : List Nat) : frame payload = blockChain (frameBlocks payload) ++ [0] := by
  rw [blockChain, frameBlocks, List.flatMap_map]
  rfl

theorem flatten_frameBlocks (payload : List Nat) : (frameBlocks payload).flatten = payload := by
  have hall : payload.length ≤ 255 * blockCount payload := by unfold blockCount; omega
  rw [frameBlocks, ← List.flatMap_def]
  exact (flatMap_pieces payload 255 _).trans (List.take_of_length_le hall)

theorem one_le_length_blockPart {payload : List Nat} {i : Nat} (h : i < blockCount payload) :
    1 ≤ (blockPart payload i).length := by
  rw [length_blockPart]
  unfold blockCount at h
  omega

theorem one_le_length_of_mem_frameBlocks (payload : List Nat) : ∀ b ∈ frameBlocks payload, 1 ≤ b.length := by
  intro b hb
  obtain ⟨i, hi, rfl⟩ := List.mem_map.mp hb
  exact one_le_length_blockPart (List.mem_range.mp hi)

/-- A frame deframes to its payload, whatever bytes follow it (45_lzw_decoder.md R241). -/
theorem deframe_frame (payload after : List Nat) :
    deframe (frame payload ++ after) = .ok (payload, (frame payload).length) := by
  rw [frame_eq_blockChain, deframe_blockChain (one_le_length_of_mem_frameBlocks payload), flatten_frameBlocks]

/-! ## The errors of decoding -/

/-- The errors of decoding (45_lzw_decoder.md R244). -/
def IsDecodeError (e : DecodeError) : Prop :=
  (e.1 = .decodeTrunc ∧ e.2 = 1) ∨ e.1 = .decodeCode ∨ (e.1 = .overflow ∧ e.2 = 0)

theorem decodeLoop_error {nexp cap fuel ord : Nat} {d : Decoder} {bits : List Bool} {out : List Nat} {e : DecodeError}
    (h : decodeLoop nexp cap fuel d bits out ord = .error e) : IsDecodeError e := by
  induction fuel generalizing d bits out ord with
  | zero => cases h; exact .inl ⟨rfl, rfl⟩
  | succ fuel ih =>
    simp only [decodeLoop] at h
    split_ifs at h with hbits hclear hend
    · cases h; exact .inl ⟨rfl, rfl⟩
    · exact ih h
    · split at h
      · cases h; exact .inr (.inl rfl)
      · split_ifs at h with hover
        · cases h; exact .inr (.inr ⟨rfl, rfl⟩)
        · exact ih h

/-! ## The length of the packed codes -/

theorem length_streamBits_cons (p : Nat × Nat) (codes : List (Nat × Nat)) :
    (streamBits (p :: codes)).length = p.2 + (streamBits codes).length := by
  rw [streamBits, List.flatMap_cons, List.length_append, length_codeBits, ← streamBits]

theorem length_streamBits_singleton (p : Nat × Nat) : (streamBits [p]).length = p.2 := by
  rw [length_streamBits_cons]
  rfl

/-- No code is wider than 12 bits (44_lzw_encoder.md R206). -/
theorem width_afterDataCode_le {e : Encoder} (h : e.width ≤ 12) (insert : Option (List Nat)) :
    (e.afterDataCode insert).width ≤ 12 := by
  have grown : ∀ g : Encoder, g.width = e.width →
      (if e.next = 2 ^ e.width ∧ e.width < Config.lzwMaxBits then { g with width := e.width + 1 } else g).width ≤ 12 := by
    intro g hg
    split_ifs with hgrow
    · exact hgrow.2
    · exact hg.trans_le h
  unfold Encoder.afterDataCode
  cases insert with
  | none => exact grown e rfl
  | some str =>
    apply grown
    dsimp only
    split_ifs <;> rfl

/-- At most one code for every index to come, one for the string buffer and End-of-Information, of 12 bits each. -/
theorem length_streamBits_encodeRest_le (eoi : Nat) (rest : List Nat) {e : Encoder} (he : e.width ≤ 12)
    (buf : List Nat) : (streamBits (encodeRest eoi e buf rest)).length ≤ 12 * (rest.length + 2) := by
  induction rest generalizing e buf with
  | nil =>
    have hend := width_afterDataCode_le he none
    rw [encodeRest, length_streamBits_cons, length_streamBits_singleton, Encoder.emit]
    simp only [List.length_nil]
    omega
  | cons k rest ih =>
    rw [encodeRest, List.length_cons]
    split
    · exact (ih he _).trans (by omega)
    · have hrest := ih (width_afterDataCode_le he (some (buf ++ [k]))) [k]
      rw [length_streamBits_cons, Encoder.emit]
      omega

/-! ## The statements -/

/-- Settles O47: 2^(NEXP+1) + 2 lies strictly above the power below 2^b. -/
theorem minimumCodeSizeIsLeast : Obligations.MinimumCodeSizeIsLeast := by
  unfold Obligations.MinimumCodeSizeIsLeast
  intro nexp _
  have hdouble : 2 ^ (nexp + 2) = 2 * 2 ^ (nexp + 1) := by ring
  have htwo : 2 ≤ 2 ^ (nexp + 1) := Nat.le_self_pow (Nat.succ_ne_zero _) 2
  refine ⟨rfl, ?_, fun b hb => ?_⟩
  · rw [tableSize, minCodeSize]
    omega
  · have hlt : 2 ^ (nexp + 1) < 2 ^ b := by rw [tableSize] at hb; omega
    exact (Nat.pow_lt_pow_iff_right (by decide)).mp hlt

/-- Settles O49. -/
theorem packedBitsReadBack : Obligations.PackedBitsReadBack := by
  unfold Obligations.PackedBitsReadBack
  refine ⟨fun c w j => ⟨length_codeBits c w, getElem?_codeBits c⟩, fun _ _ => getElem?_payloadBits, fun codes => ?packed,
    fun c w rest hc => ⟨?_, drop_codeBits_append c w rest⟩⟩
  case packed =>
    exact ⟨rfl, fun _ => packBits_lt, fillBits (streamBits codes), fillBits_lt _, payloadBits_packBits _⟩
  · rw [take_codeBits_append, bitsValue_codeBits hc]

/-- Settles O50: the sub-blocks of a payload are one of the splits that deframing accepts. -/
theorem framedPayloadDeframes : Obligations.FramedPayloadDeframes := by
  unfold Obligations.FramedPayloadDeframes
  intro payload after
  refine ⟨rfl, fun i hi => ?_, fun i hi => ⟨rfl, one_le_length_blockPart hi, List.length_take_le _ _⟩, ?_, ?_,
    deframe_frame payload after⟩
  · have hlen := length_blockPart payload i
    have hfull : min 255 (payload.length - 255 * i) = 255 := by omega
    exact hlen.trans hfull
  · exact List.flatMap_def.trans (flatten_frameBlocks payload)
  · rw [frame_eq_blockChain, List.length_append, length_blockChain, flatten_frameBlocks, frameBlocks, List.length_map,
      List.length_range, blockCount]
    rfl

/-- Settles O51. -/
theorem deframeAcceptsAnySplit : Obligations.DeframeAcceptsAnySplit := by
  unfold Obligations.DeframeAcceptsAnySplit
  refine fun blocks after hb => ⟨deframe_blockChain hb after, fun n hn => ?_⟩
  rw [List.length_append] at hn
  exact deframeFrom_take_blockChain hb hn 0 _

/-- Settles O52. -/
theorem decoderOutputsAreIndices : Obligations.DecoderOutputsAreIndices := by
  unfold Obligations.DecoderOutputsAreIndices
  exact fun nexp cap payload => ⟨fun out h => decodePayload_ok h, fun code info h => decodeLoop_error h⟩

/-- Settles O53. -/
theorem encodedLengthBound : Obligations.EncodedLengthBound := by
  unfold Obligations.EncodedLengthBound
  intro nexp indices hnexp hne
  cases indices with
  | nil => exact absurd rfl hne
  | cons first rest =>
    have hstart : (Encoder.start nexp).width ≤ 12 := show nexp + 2 ≤ 12 by omega
    have hrest := length_streamBits_encodeRest_le (endCode nexp) rest hstart [first]
    rw [pack, length_packBits, encodeCodes, length_streamBits_cons, minCodeSize, List.length_cons]
    apply Nat.div_le_div_right
    omega

end Sys2Proof.Machine
end

section
/-! The decoding loop, code by code (45_lzw_decoder.md R244 to R247, R251): what each kind of code makes of the decoder, the
indices and the count of codes. Settles O56. -/

namespace Sys2Proof.Machine

/-! ## One code -/

section OneCode

variable {nexp cap : Nat} {d : Decoder} {bits : List Bool} {out : List Nat} {ord : Nat}

/-- Fewer bits than a code has are DecodeTrunc(1). -/
theorem decodeFrom_of_short (h : bits.length < d.width) : decodeFrom nexp cap d bits out ord = .error (.decodeTrunc, 1) := by
  rw [decodeFrom, decodeLoop, if_pos h]

variable {c : Nat} (hw : 1 ≤ d.width) (hc : c < 2 ^ d.width)
include hw hc

/-- A code that is there is read from its bits, and the loop goes on with fuel for the bits behind it. -/
theorem decodeFrom_code :
    decodeFrom nexp cap d (codeBits c d.width ++ bits) out ord =
      if c = clearCode nexp then decodeFrom nexp cap (Decoder.start nexp) bits out (ord + 1)
      else if c = endCode nexp then .ok out
      else
        (d.classify nexp c).elim (.error (.decodeCode, ord)) fun str =>
          if cap < out.length + str.length then .error (.overflow, 0)
          else decodeFrom nexp cap (d.afterDataCode nexp c str) bits (out ++ str) (ord + 1) := by
  have hlen : ¬(codeBits c d.width ++ bits).length < d.width := by simp
  have hfuel : bits.length < (codeBits c d.width ++ bits).length := by
    rw [List.length_append, length_codeBits]
    omega
  have hstart : 1 ≤ (Decoder.start nexp).width := Nat.succ_pos _
  rw [decodeFrom, decodeLoop, if_neg hlen]
  simp only [take_codeBits_append, drop_codeBits_append, bitsValue_codeBits hc]
  rw [decodeLoop_fuel nexp cap _ _ _ _ _ hstart hfuel]
  split_ifs
  · rfl
  · rfl
  · cases d.classify nexp c with
    | none => rfl
    | some str => simp only [Option.elim, decodeLoop_fuel nexp cap _ bits _ _ _
        (Decoder.one_le_width_afterDataCode hw nexp c str) hfuel]

/-- A Clear-Code starts the decoder again and keeps the indices (45_lzw_decoder.md R251 b). -/
theorem decodeFrom_clear (h : c = clearCode nexp) :
    decodeFrom nexp cap d (codeBits c d.width ++ bits) out ord =
      decodeFrom nexp cap (Decoder.start nexp) bits out (ord + 1) := by
  rw [decodeFrom_code hw hc, if_pos h]

/-- End-of-Information gives the indices, whatever bits follow (45_lzw_decoder.md R251 c). -/
theorem decodeFrom_end (h : c = endCode nexp) :
    decodeFrom nexp cap d (codeBits c d.width ++ bits) out ord = .ok out := by
  have hne : c ≠ clearCode nexp := h ▸ Nat.succ_ne_self _
  rw [decodeFrom_code hw hc, if_neg hne, if_pos h]

variable (hclear : c ≠ clearCode nexp) (hend : c ≠ endCode nexp)
include hclear hend

/-- An unknown code is DecodeCode at its position. -/
theorem decodeFrom_unknown (h : d.classify nexp c = none) :
    decodeFrom nexp cap d (codeBits c d.width ++ bits) out ord = .error (.decodeCode, ord) := by
  rw [decodeFrom_code hw hc, if_neg hclear, if_neg hend, h]
  rfl

/-- A data code's string goes to the indices, unless it does not fit. -/
theorem decodeFrom_data {str : List Nat} (h : d.classify nexp c = some str) :
    decodeFrom nexp cap d (codeBits c d.width ++ bits) out ord =
      if cap < out.length + str.length then .error (.overflow, 0)
      else decodeFrom nexp cap (d.afterDataCode nexp c str) bits (out ++ str) (ord + 1) := by
  rw [decodeFrom_code hw hc, if_neg hclear, if_neg hend, h]
  rfl

end OneCode

/-! ## The string of a code -/

namespace Decoder

variable {nexp c p : Nat} {d : Decoder}

theorem classify_first_literal (hp : d.prev = none) (h : c < tableSize nexp) : d.classify nexp c = some [c] := by
  simp [classify, hp, h]

theorem classify_first_unknown (hp : d.prev = none) (h : tableSize nexp ≤ c) : d.classify nexp c = none := by
  simp [classify, hp, h]

section AfterACode

variable (hp : d.prev = some p)
include hp

/-- A literal or a code of the table (45_lzw_decoder.md R244). -/
theorem classify_known (h : c < tableSize nexp ∨ (firstFreeCode nexp ≤ c ∧ c < d.next)) :
    d.classify nexp c = some (d.string nexp c) := by
  simp only [classify, hp, if_pos h]

/-- The next free code is the previous string with its own first index (45_lzw_decoder.md R246). -/
theorem classify_next (hN : tableSize nexp ≤ c) (hc : c = d.next) (hfull : d.next < 4096) :
    d.classify nexp c = some (extend (d.string nexp p) (d.string nexp p)) := by
  have hknown : ¬(c < tableSize nexp ∨ (firstFreeCode nexp ≤ c ∧ c < d.next)) := by omega
  have hnext : c = d.next ∧ d.next < Config.lzwCodes := ⟨hc, hfull⟩
  simp only [classify, hp, if_neg hknown, if_pos hnext]

/-- A code beyond the next free one, or the next free one of a full table, is unknown. -/
theorem classify_unknown (hN : tableSize nexp ≤ c) (hc : d.next < c ∨ (c = d.next ∧ 4096 ≤ d.next)) :
    d.classify nexp c = none := by
  have hknown : ¬(c < tableSize nexp ∨ (firstFreeCode nexp ≤ c ∧ c < d.next)) := by omega
  have hnext : ¬(c = d.next ∧ d.next < Config.lzwCodes) := by
    rintro ⟨heq, hlt⟩
    have hlt' : d.next < 4096 := hlt
    omega
  simp only [classify, hp, if_neg hknown, if_neg hnext]

end AfterACode

/-! ## The decoder after a data code -/

/-- The width a next free code calls for (45_lzw_decoder.md R247). -/
def widthFor (width next : Nat) : Nat := if next = 2 ^ width ∧ width < 12 then width + 1 else width

/-- The decoder after the data code c that left this table and this next free code. -/
def afterCode (width : Nat) (table : List (Nat × List Nat)) (next c : Nat) : Decoder where
  table := table
  next := next
  width := widthFor width next
  prev := some c

theorem widen_with_prev (g : Decoder) (c : Nat) :
    widen { g with prev := some c } = afterCode g.width g.table g.next c := by
  unfold widen afterCode widthFor Config.lzwMaxBits
  dsimp only
  split_ifs <;> rfl

theorem grow_of_first (hp : d.prev = none) (str : List Nat) : d.grow nexp str = d := by
  simp only [grow, hp]

/-- The first data code adds no entry (45_lzw_decoder.md R244). -/
theorem afterDataCode_first (hp : d.prev = none) (c : Nat) (str : List Nat) :
    d.afterDataCode nexp c str = afterCode d.width d.table d.next c := by
  rw [afterDataCode, grow_of_first hp, widen_with_prev]

/-- A later data code adds the previous string with its first index (45_lzw_decoder.md R245). -/
theorem afterDataCode_grows (hp : d.prev = some p) (hfull : d.next < 4096) (c : Nat) (str : List Nat) :
    d.afterDataCode nexp c str =
      afterCode d.width ((d.next, extend (d.string nexp p) str) :: d.table) (d.next + 1) c := by
  have hgrow : d.grow nexp str =
      { d with table := (d.next, extend (d.string nexp p) str) :: d.table, next := d.next + 1 } := by
    have hlt : d.next < Config.lzwCodes := hfull
    simp only [grow, hp, if_pos hlt]
  rw [afterDataCode, hgrow, widen_with_prev]

/-- A full table gets no entry (45_lzw_decoder.md R245). -/
theorem afterDataCode_full (hp : d.prev = some p) (hfull : 4096 ≤ d.next) (c : Nat) (str : List Nat) :
    d.afterDataCode nexp c str = afterCode d.width d.table d.next c := by
  have hgrow : d.grow nexp str = d := by
    have hge : ¬d.next < Config.lzwCodes := Nat.not_lt.mpr hfull
    simp only [grow, hp, if_neg hge]
  rw [afterDataCode, hgrow, widen_with_prev]

end Decoder

/-- The loop goes on after the data code c with string `str`, with this table and this next free code, unless the indices
then are more than `cap`. -/
def goOn (nexp cap width c : Nat) (bits : List Bool) (out : List Nat) (ord : Nat) (table : List (Nat × List Nat))
    (next : Nat) (str : List Nat) : Except DecodeError (List Nat) :=
  if cap < out.length + str.length then .error (.overflow, 0)
  else decodeFrom nexp cap (Decoder.afterCode width table next c) bits (out ++ str) (ord + 1)

section DataCode

variable {nexp cap : Nat} {d : Decoder} {bits : List Bool} {out : List Nat} {ord c : Nat} (hw : 1 ≤ d.width)
  (hc : c < 2 ^ d.width) (hclear : c ≠ clearCode nexp) (hend : c ≠ endCode nexp)
include hw hc hclear hend

/-- The first data code adds its string to the indices and nothing to the table. -/
theorem decodeFrom_first (hp : d.prev = none) {str : List Nat} (h : d.classify nexp c = some str) :
    decodeFrom nexp cap d (codeBits c d.width ++ bits) out ord =
      goOn nexp cap d.width c bits out ord d.table d.next str := by
  rw [decodeFrom_data hw hc hclear hend h, Decoder.afterDataCode_first hp, goOn]

/-- A later data code also adds the previous string with its first index to a table that is not full
(45_lzw_decoder.md R245). -/
theorem decodeFrom_later {p : Nat} (hp : d.prev = some p) {str : List Nat} (h : d.classify nexp c = some str) :
    decodeFrom nexp cap d (codeBits c d.width ++ bits) out ord =
      if d.next < 4096 then
        goOn nexp cap d.width c bits out ord ((d.next, extend (d.string nexp p) str) :: d.table) (d.next + 1) str
      else goOn nexp cap d.width c bits out ord d.table d.next str := by
  rw [decodeFrom_data hw hc hclear hend h]
  obtain hfull | hfull := Nat.lt_or_ge d.next 4096
  · rw [if_pos hfull, Decoder.afterDataCode_grows hp hfull, goOn]
  · rw [if_neg (Nat.not_lt.mpr hfull), Decoder.afterDataCode_full hp hfull, goOn]

end DataCode

/-! ## The statement -/

theorem endCode_lt (nexp : Nat) : endCode nexp < 2 ^ minCodeSize nexp := by
  have htwo : 2 ≤ 2 ^ (nexp + 1) := Nat.le_self_pow (Nat.succ_ne_zero _) 2
  have hdouble : 2 ^ (nexp + 2) = 2 * 2 ^ (nexp + 1) := by ring
  rw [endCode, tableSize, minCodeSize]
  omega

theorem clearCode_lt (nexp : Nat) : clearCode nexp < 2 ^ minCodeSize nexp :=
  (Nat.lt_succ_self _).trans (endCode_lt nexp)

/-- Clear-Code and End-of-Information alone are the empty stream (45_lzw_decoder.md R251 c). -/
theorem decodePayload_clear_end (nexp cap : Nat) :
    decodePayload nexp cap (pack [(clearCode nexp, minCodeSize nexp), (endCode nexp, minCodeSize nexp)]) = .ok [] := by
  have hstart : 1 ≤ (Decoder.start nexp).width := Nat.succ_pos _
  rw [decodePayload, pack, payloadBits_packBits, streamBits, List.flatMap_cons, List.flatMap_singleton,
    List.append_assoc]
  exact (decodeFrom_clear hstart (clearCode_lt nexp) rfl).trans (decodeFrom_end hstart (endCode_lt nexp) rfl)

/-- Settles O56: the kinds of codes, each by its own lemma. -/
theorem decoderFollowsItsCodes : Obligations.DecoderFollowsItsCodes := by
  unfold Obligations.DecoderFollowsItsCodes
  refine fun nexp cap => ⟨fun _ => rfl, decodePayload_clear_end nexp cap, fun d bits out ord hw =>
    ⟨decodeFrom_of_short, fun c hc => ⟨decodeFrom_clear hw hc, decodeFrom_end hw hc, fun hp hlit => ?literal,
      fun hp hgt => ?unknown, fun p hp hclear hend => ⟨fun hknown => ?known, fun hgt heq hfull => ?next,
        fun hgt hbeyond => ?beyond⟩⟩⟩⟩
  case literal =>
    have hclear : c ≠ clearCode nexp := Nat.ne_of_lt hlit
    have hend : c ≠ endCode nexp := Nat.ne_of_lt (Nat.lt_succ_of_lt hlit)
    exact decodeFrom_first hw hc hclear hend hp (Decoder.classify_first_literal hp hlit)
  case unknown =>
    have hclear : c ≠ clearCode nexp := Nat.ne_of_gt (Nat.lt_of_succ_lt hgt)
    have hend : c ≠ endCode nexp := Nat.ne_of_gt hgt
    exact decodeFrom_unknown hw hc hclear hend (Decoder.classify_first_unknown hp (Nat.le_of_lt (Nat.lt_of_succ_lt hgt)))
  case known =>
    have hknown' : c < tableSize nexp ∨ (firstFreeCode nexp ≤ c ∧ c < d.next) := by
      unfold firstFreeCode tableSize
      omega
    exact decodeFrom_later hw hc hclear hend hp (Decoder.classify_known hp hknown')
  case next => exact decodeFrom_later hw hc hclear hend hp (Decoder.classify_next hp hgt.le heq hfull)
  case beyond => exact decodeFrom_unknown hw hc hclear hend (Decoder.classify_unknown hp hgt.le hbeyond)

end Sys2Proof.Machine
end

section
/-! The encoder's codes (44_lzw_encoder.md R203 to R206): the stream is cut into the longest known strings, the table holds
one entry a code until it is full, and every code fits its width. Settles O48 and O57. -/

namespace Sys2Proof.Machine

/-! ## Widths -/

/-- The bit length of N+1+j, less one. -/
def codeLog (nexp j : Nat) : Nat := Nat.log2 (2 ^ (nexp + 1) + 1 + j)

/-- The width of data code j: the bit length of N+1+j, at most 12 (44_lzw_encoder.md R205, R206). -/
def codeWidth (nexp j : Nat) : Nat := min 12 (codeLog nexp j + 1)

/-- The next free code when data code j is emitted, of a table that is full at 4096. -/
def nextAt (nexp j : Nat) : Nat := min 4096 (2 ^ (nexp + 1) + 2 + j)

theorem codeLog_eq_iff (nexp j L : Nat) :
    codeLog nexp j = L ↔ 2 ^ L ≤ 2 ^ (nexp + 1) + 1 + j ∧ 2 ^ (nexp + 1) + 1 + j < 2 ^ (L + 1) := by
  have hpos := Nat.two_pow_pos (nexp + 1)
  exact Nat.log2_eq_iff (by omega)

theorem codeWidth_le (nexp j : Nat) : codeWidth nexp j ≤ 12 := min_le_left _ _

theorem one_le_codeWidth (nexp j : Nat) : 1 ≤ codeWidth nexp j := le_min (by decide) (Nat.succ_pos _)

theorem minCodeSize_le_codeWidth {nexp : Nat} (h : nexp ≤ 7) (j : Nat) : nexp + 2 ≤ codeWidth nexp j := by
  obtain ⟨-, hlt⟩ := (codeLog_eq_iff nexp j _).mp rfl
  have hpow : 2 ^ (nexp + 1) < 2 ^ (codeLog nexp j + 1) := by omega
  exact le_min (by omega) ((Nat.pow_lt_pow_iff_right (by decide)).mp hpow)

theorem codeWidth_zero {nexp : Nat} (h : nexp ≤ 7) : codeWidth nexp 0 = nexp + 2 := by
  have htwo : 2 ≤ 2 ^ (nexp + 1) := Nat.le_self_pow (Nat.succ_ne_zero _) 2
  have hdouble : 2 ^ (nexp + 1 + 1) = 2 * 2 ^ (nexp + 1) := by ring
  rw [codeWidth, (codeLog_eq_iff nexp 0 (nexp + 1)).mpr (by omega)]
  omega

/-- A code of at most 12 bits that lies below the next free one fits the width. -/
theorem lt_two_pow_codeWidth {nexp j c : Nat} (hfull : c < 4096) (h : c ≤ 2 ^ (nexp + 1) + 1 + j) :
    c < 2 ^ codeWidth nexp j := by
  obtain ⟨-, hlt⟩ := (codeLog_eq_iff nexp j _).mp rfl
  unfold codeWidth
  obtain hwide | hnarrow := le_total 12 (codeLog nexp j + 1)
  · rwa [min_eq_left hwide]
  · rw [min_eq_right hnarrow]
    omega

/-- The width grows where the next free code needs one more bit (44_lzw_encoder.md R205, 45_lzw_decoder.md R247). -/
theorem widthFor_codeWidth (nexp j : Nat) :
    Decoder.widthFor (codeWidth nexp j) (nextAt nexp j) = codeWidth nexp (j + 1) := by
  obtain ⟨hle, hlt⟩ := (codeLog_eq_iff nexp j _).mp rfl
  have hmore := codeLog_eq_iff nexp (j + 1)
  unfold Decoder.widthFor codeWidth nextAt
  generalize codeLog nexp j = L at *
  obtain hwide | hnarrow := Nat.lt_or_ge 11 (L + 1)
  · obtain ⟨-, hlt'⟩ := (hmore _).mp rfl
    have hpow : 2 ^ L < 2 ^ (codeLog nexp (j + 1) + 1) := by omega
    have hlog := (Nat.pow_lt_pow_iff_right (by decide)).mp hpow
    rw [if_neg (by omega)]
    omega
  · have hfree : 2 ^ (L + 1) ≤ 2 ^ 11 := Nat.pow_le_pow_right Nat.two_pos hnarrow
    have hdouble : 2 ^ (L + 1 + 1) = 2 * 2 ^ (L + 1) := by ring
    have hnext : min 4096 (2 ^ (nexp + 1) + 2 + j) = 2 ^ (nexp + 1) + 2 + j := by omega
    have hwidth : min 12 (L + 1) = L + 1 := by omega
    rw [hnext, hwidth]
    obtain hgrow | hstay : 2 ^ (nexp + 1) + 2 + j = 2 ^ (L + 1) ∨ 2 ^ (nexp + 1) + 2 + j < 2 ^ (L + 1) := by omega
    · rw [if_pos ⟨hgrow, by omega⟩, (hmore (L + 1)).mpr (by omega)]
      omega
    · rw [if_neg (by omega), (hmore L).mpr (by omega), hwidth]

/-! ## The encoder after a data code -/

/-- The encoder has the next free code and the width of data code j. -/
structure AtCode (nexp j : Nat) (e : Encoder) : Prop where
  next : e.next = nextAt nexp j
  width : e.width = codeWidth nexp j

theorem atCode_start {nexp : Nat} (h : nexp ≤ 7) : AtCode nexp 0 (Encoder.start nexp) where
  next := by
    have hpow : 2 ^ (nexp + 1) ≤ 2 ^ 8 := Nat.pow_le_pow_right Nat.two_pos (Nat.succ_le_succ h)
    exact (min_eq_right (show 2 ^ (nexp + 1) + 2 ≤ 4096 by omega)).symm
  width := (codeWidth_zero h).symm

theorem width_afterDataCode (e : Encoder) (insert : Option (List Nat)) :
    (e.afterDataCode insert).width = Decoder.widthFor e.width e.next := by
  have grown (g : Encoder) (hg : g.width = e.width) :
      (if e.next = 2 ^ e.width ∧ e.width < Config.lzwMaxBits then { g with width := e.width + 1 } else g).width =
        Decoder.widthFor e.width e.next := by
    unfold Decoder.widthFor Config.lzwMaxBits
    split_ifs
    · rfl
    · exact hg
  unfold Encoder.afterDataCode
  cases insert with
  | none => exact grown e rfl
  | some str =>
    apply grown
    dsimp only
    split_ifs <;> rfl

theorem next_afterDataCode (e : Encoder) (str : List Nat) :
    (e.afterDataCode (some str)).next = if e.next < 4096 then e.next + 1 else e.next := by
  have hfull : (e.next < Config.lzwCodes) = (e.next < 4096) := rfl
  simp only [Encoder.afterDataCode, hfull]
  split_ifs <;> rfl

theorem table_afterDataCode (e : Encoder) (str : List Nat) :
    (e.afterDataCode (some str)).table = if e.next < 4096 then (str, e.next) :: e.table else e.table := by
  have hfull : (e.next < Config.lzwCodes) = (e.next < 4096) := rfl
  simp only [Encoder.afterDataCode, hfull]
  split_ifs <;> rfl

theorem AtCode.afterDataCode {nexp j : Nat} {e : Encoder} (h : AtCode nexp j e) (str : List Nat) :
    AtCode nexp (j + 1) (e.afterDataCode (some str)) where
  next := by
    rw [next_afterDataCode, h.next]
    unfold nextAt
    split_ifs <;> omega
  width := by rw [width_afterDataCode, h.next, h.width, widthFor_codeWidth]

/-- What was known stays known. -/
theorem code?_afterDataCode {e : Encoder} {str : List Nat} (h : ∃ c, e.code? str = some c) (new : List Nat) :
    ∃ c, (e.afterDataCode (some new)).code? str = some c := by
  rw [Encoder.code?, table_afterDataCode]
  split_ifs
  · rw [List.lookup_cons]
    split
    · exact ⟨_, rfl⟩
    · exact h
  · exact h

/-! ## The emissions of a run -/

/-- The data codes of the loop of 44_lzw_encoder.md R204, each as the encoder and the string buffer it is emitted from. -/
def emissions (e : Encoder) (buf : List Nat) : List Nat → List (Encoder × List Nat)
  | [] => [(e, buf)]
  | k :: rest =>
    match e.code? (buf ++ [k]) with
    | some _ => emissions e (buf ++ [k]) rest
    | none => (e, buf) :: emissions (e.afterDataCode (some (buf ++ [k]))) [k] rest

theorem emissions_nil (e : Encoder) (buf : List Nat) : emissions e buf [] = [(e, buf)] := rfl

theorem emissions_of_known {e : Encoder} {buf : List Nat} {k c : Nat} (h : e.code? (buf ++ [k]) = some c)
    (rest : List Nat) : emissions e buf (k :: rest) = emissions e (buf ++ [k]) rest := by simp only [emissions, h]

theorem emissions_of_unknown {e : Encoder} {buf : List Nat} {k : Nat} (h : e.code? (buf ++ [k]) = none)
    (rest : List Nat) :
    emissions e buf (k :: rest) = (e, buf) :: emissions (e.afterDataCode (some (buf ++ [k]))) [k] rest := by
  simp only [emissions, h]

theorem encodeRest_of_known {e : Encoder} {buf : List Nat} {k c : Nat} (h : e.code? (buf ++ [k]) = some c)
    (eoi : Nat) (rest : List Nat) : encodeRest eoi e buf (k :: rest) = encodeRest eoi e (buf ++ [k]) rest := by
  simp only [encodeRest, h]

theorem encodeRest_of_unknown {e : Encoder} {buf : List Nat} {k : Nat} (h : e.code? (buf ++ [k]) = none) (eoi : Nat)
    (rest : List Nat) :
    encodeRest eoi e buf (k :: rest) =
      e.emit buf :: encodeRest eoi (e.afterDataCode (some (buf ++ [k]))) [k] rest := by
  simp only [encodeRest, h]

/-- The codes are those of the emissions and End-of-Information at the width of the next code (44_lzw_encoder.md R204). -/
theorem encodeRest_eq_emissions (eoi : Nat) (rest : List Nat) {nexp j : Nat} {e : Encoder} (h : AtCode nexp j e)
    (buf : List Nat) :
    encodeRest eoi e buf rest =
      (emissions e buf rest).map (fun p => p.1.emit p.2) ++
        [(eoi, codeWidth nexp (j + (emissions e buf rest).length))] := by
  induction rest generalizing j e buf with
  | nil =>
    have hend : (e.afterDataCode none).width = codeWidth nexp (j + 1) := by
      rw [width_afterDataCode, h.next, h.width, widthFor_codeWidth]
    rw [encodeRest, hend]
    rfl
  | cons k rest ih =>
    cases hk : e.code? (buf ++ [k]) with
    | some c => rw [encodeRest_of_known hk, emissions_of_known hk, ih h]
    | none =>
      rw [encodeRest_of_unknown hk, emissions_of_unknown hk, ih (h.afterDataCode _), List.map_cons, List.cons_append,
        List.length_cons, Nat.add_right_comm, Nat.add_assoc]

theorem atCode_emissions (rest : List Nat) {nexp j : Nat} {e : Encoder} (h : AtCode nexp j e) (buf : List Nat) (i : Nat)
    (hi : i < (emissions e buf rest).length) : AtCode nexp (j + i) (emissions e buf rest)[i].1 := by
  induction rest generalizing j e buf i with
  | nil =>
    obtain rfl : i = 0 := Nat.lt_one_iff.mp hi
    exact h
  | cons k rest ih =>
    cases hk : e.code? (buf ++ [k]) with
    | some c =>
      simp only [emissions_of_known hk] at hi ⊢
      exact ih h _ i hi
    | none =>
      simp only [emissions_of_unknown hk] at hi ⊢
      cases i with
      | zero => exact h
      | succ i =>
        rw [show j + (i + 1) = j + 1 + i by omega]
        exact ih (h.afterDataCode _) _ i (Nat.lt_of_succ_lt_succ hi)

/-- The strings emitted are the indices (44_lzw_encoder.md R204). -/
theorem flatMap_emissions (rest : List Nat) (e : Encoder) (buf : List Nat) :
    (emissions e buf rest).flatMap Prod.snd = buf ++ rest := by
  induction rest generalizing e buf with
  | nil => simp [emissions_nil]
  | cons k rest ih =>
    cases hk : e.code? (buf ++ [k]) with
    | some c => rw [emissions_of_known hk, ih, List.append_assoc, List.singleton_append]
    | none => rw [emissions_of_unknown hk, List.flatMap_cons, ih, List.singleton_append]

/-- The first emission is the string buffer and indices after it. -/
theorem emissions_head (rest : List Nat) (e : Encoder) (buf : List Nat) :
    ∃ more tail, emissions e buf rest = (e, buf ++ more) :: tail := by
  induction rest generalizing e buf with
  | nil => exact ⟨[], [], by rw [List.append_nil]; rfl⟩
  | cons k rest ih =>
    cases hk : e.code? (buf ++ [k]) with
    | some c =>
      obtain ⟨more, tail, h⟩ := ih e (buf ++ [k])
      exact ⟨k :: more, tail, by rw [emissions_of_known hk, h, List.append_assoc, List.singleton_append]⟩
    | none => exact ⟨[], _, by rw [emissions_of_unknown hk, List.append_nil]⟩

/-- An emission and the next one: the string with the next one's first index was unknown and is what the table gets. -/
def Follows (p q : Encoder × List Nat) : Prop :=
  p.1.code? (p.2 ++ q.2.take 1) = none ∧ q.1 = p.1.afterDataCode (some (p.2 ++ q.2.take 1))

theorem isChain_emissions (rest : List Nat) (e : Encoder) (buf : List Nat) : (emissions e buf rest).IsChain Follows := by
  induction rest generalizing e buf with
  | nil => exact List.isChain_singleton _
  | cons k rest ih =>
    cases hk : e.code? (buf ++ [k]) with
    | some c =>
      rw [emissions_of_known hk]
      exact ih e _
    | none =>
      obtain ⟨more, tail, h⟩ := emissions_head rest (e.afterDataCode (some (buf ++ [k]))) [k]
      have hrest := ih (e.afterDataCode (some (buf ++ [k]))) [k]
      rw [emissions_of_unknown hk]
      rw [h] at hrest ⊢
      exact List.isChain_cons_cons.mpr ⟨⟨hk, rfl⟩, hrest⟩

/-- The encoder knows every beginning of the string. -/
def KnowsBeginnings (e : Encoder) (str : List Nat) : Prop :=
  ∀ n, 1 ≤ n → n ≤ str.length → ∃ c, e.code? (str.take n) = some c

theorem knowsBeginnings_singleton {e : Encoder} {k : Nat} (h : ∃ c, e.code? [k] = some c) : KnowsBeginnings e [k] := by
  intro n h1 hn
  obtain rfl : n = 1 := Nat.le_antisymm hn h1
  exact h

theorem KnowsBeginnings.snoc {e : Encoder} {str : List Nat} (h : KnowsBeginnings e str) {k : Nat}
    (hk : ∃ c, e.code? (str ++ [k]) = some c) : KnowsBeginnings e (str ++ [k]) := by
  intro n h1 hn
  obtain hle | heq : n ≤ str.length ∨ n = (str ++ [k]).length := by
    rw [List.length_append, List.length_singleton] at hn ⊢
    omega
  · rw [List.take_append_of_le_length hle]
    exact h n h1 hle
  · rwa [heq, List.take_length]

/-- Every string emitted is known with all its beginnings, if the single indices are. -/
theorem knows_of_mem_emissions (rest : List Nat) {e : Encoder} {buf : List Nat} (hbuf : buf ≠ [])
    (hknows : KnowsBeginnings e buf) (hsingle : ∀ k ∈ rest, ∃ c, e.code? [k] = some c) :
    ∀ p ∈ emissions e buf rest, p.2 ≠ [] ∧ KnowsBeginnings p.1 p.2 := by
  induction rest generalizing e buf with
  | nil =>
    intro p hp
    obtain rfl := List.mem_singleton.mp hp
    exact ⟨hbuf, hknows⟩
  | cons k rest ih =>
    obtain ⟨hk1, hrest⟩ := List.forall_mem_cons.mp hsingle
    cases hk : e.code? (buf ++ [k]) with
    | some c =>
      rw [emissions_of_known hk]
      exact ih (List.append_ne_nil_of_right_ne_nil _ (List.cons_ne_nil _ _)) (hknows.snoc ⟨c, hk⟩) hrest
    | none =>
      rw [emissions_of_unknown hk]
      refine List.forall_mem_cons.mpr ⟨⟨hbuf, hknows⟩, ?_⟩
      exact ih (List.cons_ne_nil _ _) (knowsBeginnings_singleton (code?_afterDataCode hk1 _))
        fun i hi => code?_afterDataCode (hrest i hi) _

/-! ## The parts of a stream -/

/-- The string `str` has the code c when data code j is emitted: a single index, or an entry that a code before j made
(44_lzw_encoder.md R203, R205). -/
def KnownString (nexp : Nat) (part : Nat → List Nat) (j : Nat) (str : List Nat) (c : Nat) : Prop :=
  (c < 2 ^ (nexp + 1) ∧ str = [c]) ∨
    ∃ i < j, c = 2 ^ (nexp + 1) + 2 + i ∧ c < 4096 ∧ str = part i ++ (part (i + 1)).take 1

theorem knownString_succ_iff (nexp : Nat) (part : Nat → List Nat) (j : Nat) (str : List Nat) (c : Nat) :
    KnownString nexp part (j + 1) str c ↔ KnownString nexp part j str c ∨
      (c = 2 ^ (nexp + 1) + 2 + j ∧ c < 4096 ∧ str = part j ++ (part (j + 1)).take 1) := by
  constructor
  · rintro (hsingle | ⟨i, hi, hentry⟩)
    · exact .inl (.inl hsingle)
    · obtain hlt | rfl := Nat.lt_succ_iff_lt_or_eq.mp hi
      exacts [.inl (.inr ⟨i, hlt, hentry⟩), .inr hentry]
  · rintro ((hsingle | ⟨i, hi, hentry⟩) | hentry)
    exacts [.inl hsingle, .inr ⟨i, Nat.lt_succ_of_lt hi, hentry⟩, .inr ⟨j, Nat.lt_succ_self j, hentry⟩]

/-- The stream cut into m parts, each the longest string that is known when its code is emitted (44_lzw_encoder.md R204). -/
structure LongestParts (nexp m : Nat) (part : Nat → List Nat) (code : Nat → Nat) : Prop where
  pos : 1 ≤ m
  nonempty : ∀ j < m, part j ≠ []
  known : ∀ j < m, KnownString nexp part j (part j) (code j)
  beginnings : ∀ j < m, ∀ n, 1 ≤ n → n ≤ (part j).length → ∃ c, KnownString nexp part j ((part j).take n) c
  longest : ∀ j, j + 1 < m → ∀ c, ¬KnownString nexp part j (part j ++ (part (j + 1)).take 1) c

/-- The data codes of a cut stream with their widths. -/
def dataCodes (nexp m : Nat) (code : Nat → Nat) : List (Nat × Nat) :=
  (List.range m).map fun j => (code j, codeWidth nexp j)

theorem mem_table_of_code? {e : Encoder} {str : List Nat} {c : Nat} (h : e.code? str = some c) : (str, c) ∈ e.table := by
  obtain ⟨l₁, l₂, heq, -⟩ := List.lookup_eq_some_iff.mp h
  rw [heq]
  exact List.mem_append_cons_self

theorem not_mem_table_of_code? {e : Encoder} {str : List Nat} (h : e.code? str = none) (c : Nat) :
    (str, c) ∉ e.table := fun hmem => by
  simpa using List.lookup_eq_none_iff.mp h _ hmem

/-- The string of emission j. -/
def partAt (ems : List (Encoder × List Nat)) (j : Nat) : List Nat := (ems[j]?).elim [] Prod.snd

/-- The code of emission j. -/
def codeAt (ems : List (Encoder × List Nat)) (j : Nat) : Nat := (ems[j]?).elim 0 fun p => (p.1.emit p.2).1

section Emissions

variable {ems : List (Encoder × List Nat)} {j : Nat}

theorem partAt_eq (h : j < ems.length) : partAt ems j = ems[j].2 := by simp [partAt, h]

theorem codeAt_eq (h : j < ems.length) : codeAt ems j = (ems[j].1.emit ems[j].2).1 := by simp [codeAt, h]

theorem flatMap_partAt (ems : List (Encoder × List Nat)) :
    (List.range ems.length).flatMap (partAt ems) = ems.flatMap Prod.snd := by
  rw [List.flatMap_def, List.flatMap_def]
  congr 1
  apply List.ext_getElem (by simp)
  intro j hj _
  rw [List.getElem_map, List.getElem_map, List.getElem_range, partAt_eq]

variable {nexp : Nat} (hat : ∀ j (h : j < ems.length), AtCode nexp j ems[j].1)
include hat

theorem map_emit_eq : ems.map (fun p => p.1.emit p.2) = dataCodes nexp ems.length (codeAt ems) := by
  apply List.ext_getElem (by simp [dataCodes])
  intro j hj _
  have hlt : j < ems.length := by simpa using hj
  simp only [dataCodes, List.getElem_map, List.getElem_range, codeAt_eq hlt, ← (hat j hlt).width]
  rfl

variable (hchain : ems.IsChain Follows) (hstart : ∀ h : 0 < ems.length, ems[0].1 = Encoder.start nexp)
include hchain hstart

/-- The table at data code j: the single indices and an entry for every code before j, as far as there are codes
(44_lzw_encoder.md R203, R205). -/
theorem mem_table_iff (h : j < ems.length) (str : List Nat) (c : Nat) :
    (str, c) ∈ ems[j].1.table ↔ KnownString nexp (partAt ems) j str c := by
  induction j with
  | zero =>
    rw [hstart h, Encoder.start, KnownString]
    simp only [List.mem_map, List.mem_range, tableSize, Prod.mk.injEq, Nat.not_lt_zero, false_and, exists_false, or_false]
    constructor
    · rintro ⟨i, hi, rfl, rfl⟩
      exact ⟨hi, rfl⟩
    · rintro ⟨hc, rfl⟩
      exact ⟨c, hc, rfl, rfl⟩
  | succ j ih =>
    have hj : j < ems.length := Nat.lt_of_succ_lt h
    obtain ⟨-, hnext⟩ := hchain.getElem j h
    have hfree := (hat j hj).next
    rw [hnext, table_afterDataCode, ← partAt_eq hj, ← partAt_eq h, hfree]
    rw [knownString_succ_iff, ← ih hj]
    unfold nextAt
    split_ifs with hfull
    · have hcode : min 4096 (2 ^ (nexp + 1) + 2 + j) = 2 ^ (nexp + 1) + 2 + j := by omega
      rw [List.mem_cons, Prod.mk.injEq, hcode]
      constructor
      · rintro (⟨rfl, rfl⟩ | hold)
        exacts [.inr ⟨rfl, by omega, rfl⟩, .inl hold]
      · rintro (hold | ⟨rfl, -, rfl⟩)
        exacts [.inr hold, .inl ⟨rfl, rfl⟩]
    · refine ⟨.inl, ?_⟩
      rintro (hold | ⟨rfl, hlt, -⟩)
      exacts [hold, absurd hlt (by omega)]

/-- The emissions cut the stream into its longest known strings. -/
theorem longestParts_of_emissions (hpos : 1 ≤ ems.length)
    (hknows : ∀ p ∈ ems, p.2 ≠ [] ∧ KnowsBeginnings p.1 p.2) :
    LongestParts nexp ems.length (partAt ems) (codeAt ems) := by
  have known {j : Nat} (h : j < ems.length) {str : List Nat} {c : Nat} (hc : ems[j].1.code? str = some c) :
      KnownString nexp (partAt ems) j str c := (mem_table_iff hat hchain hstart h str c).mp (mem_table_of_code? hc)
  refine ⟨hpos, fun j h => ?_, fun j h => ?_, fun j h n h1 hn => ?_, fun j h c hc => ?_⟩
  · rw [partAt_eq h]
    exact (hknows _ (List.getElem_mem h)).1
  · obtain ⟨hne, hbeg⟩ := hknows _ (List.getElem_mem h)
    obtain ⟨c, hc⟩ := hbeg _ (List.length_pos_of_ne_nil hne) le_rfl
    rw [List.take_length] at hc
    rw [partAt_eq h, codeAt_eq h, Encoder.emit, hc]
    exact known h hc
  · rw [partAt_eq h] at hn ⊢
    obtain ⟨c, hc⟩ := (hknows _ (List.getElem_mem h)).2 n h1 hn
    exact ⟨c, known h hc⟩
  · have hj : j < ems.length := Nat.lt_of_succ_lt h
    obtain ⟨hnew, -⟩ := hchain.getElem j h
    rw [partAt_eq hj, partAt_eq h, ← mem_table_iff hat hchain hstart hj] at hc
    exact not_mem_table_of_code? hnew c hc

end Emissions

theorem code?_start {nexp k : Nat} (h : k < tableSize nexp) : ∃ c, (Encoder.start nexp).code? [k] = some c := by
  cases hc : (Encoder.start nexp).code? [k] with
  | some c => exact ⟨c, rfl⟩
  | none =>
    refine absurd ?_ (not_mem_table_of_code? hc k)
    exact List.mem_map.mpr ⟨k, List.mem_range.mpr h, rfl⟩

/-- The encoder cuts an index stream into its longest known strings (44_lzw_encoder.md R203 to R206). -/
theorem exists_longestParts {nexp : Nat} (hnexp : nexp ≤ 7) {indices : List Nat} (hne : indices ≠ [])
    (hindices : AreIndices nexp indices) :
    ∃ m part code, LongestParts nexp m part code ∧ (List.range m).flatMap part = indices ∧
      encodeCodes nexp indices =
        (clearCode nexp, minCodeSize nexp) :: (dataCodes nexp m code ++ [(endCode nexp, codeWidth nexp m)]) := by
  obtain ⟨first, rest, rfl⟩ := List.exists_cons_of_ne_nil hne
  obtain ⟨hfirst, hrest⟩ := List.forall_mem_cons.mp hindices
  have hstart := atCode_start hnexp
  have hat (j : Nat) (h : j < (emissions (Encoder.start nexp) [first] rest).length) :
      AtCode nexp j (emissions (Encoder.start nexp) [first] rest)[j].1 := by
    simpa only [Nat.zero_add] using atCode_emissions rest hstart [first] j h
  have hknows := knows_of_mem_emissions rest (List.cons_ne_nil first [])
    (knowsBeginnings_singleton (code?_start hfirst)) fun k hk => code?_start (hrest k hk)
  have hcodes := encodeRest_eq_emissions (endCode nexp) rest hstart [first]
  have hflat := flatMap_emissions rest (Encoder.start nexp) [first]
  have hchain := isChain_emissions rest (Encoder.start nexp) [first]
  obtain ⟨more, tail, hhead⟩ := emissions_head rest (Encoder.start nexp) [first]
  generalize emissions (Encoder.start nexp) [first] rest = ems at *
  refine ⟨ems.length, partAt ems, codeAt ems, longestParts_of_emissions hat hchain ?_ ?_ hknows, ?_, ?_⟩
  · intro h
    simp [hhead]
  · simp [hhead]
  · rw [flatMap_partAt, hflat, List.singleton_append]
  · rw [encodeCodes, hcodes, map_emit_eq hat, Nat.zero_add]

/-! ## Codes and widths -/

/-- The code of a known string is no Clear-Code and no End-of-Information and fits its width (44_lzw_encoder.md R206). -/
theorem KnownString.code_bounds {nexp : Nat} (hnexp : nexp ≤ 7) {part : Nat → List Nat} {j c : Nat} {str : List Nat}
    (h : KnownString nexp part j str c) : c ≠ clearCode nexp ∧ c ≠ endCode nexp ∧ c < 2 ^ codeWidth nexp j := by
  have hpow : 2 ^ (nexp + 1) ≤ 2 ^ 8 := Nat.pow_le_pow_right Nat.two_pos (Nat.succ_le_succ hnexp)
  rw [endCode, clearCode, tableSize]
  obtain ⟨hlit, -⟩ | ⟨i, hi, rfl, hfull, -⟩ := h
  · exact ⟨by omega, by omega, lt_two_pow_codeWidth (by omega) (by omega)⟩
  · exact ⟨by omega, by omega, lt_two_pow_codeWidth hfull (by omega)⟩

theorem endCode_lt_codeWidth {nexp : Nat} (hnexp : nexp ≤ 7) (j : Nat) : endCode nexp < 2 ^ codeWidth nexp j :=
  (endCode_lt nexp).trans_le (Nat.pow_le_pow_right Nat.two_pos (minCodeSize_le_codeWidth hnexp j))

/-! ## The statements -/

/-- Settles O57. -/
theorem encoderEmitsLongestKnownStrings : Obligations.EncoderEmitsLongestKnownStrings := by
  unfold Obligations.EncoderEmitsLongestKnownStrings
  intro nexp indices hnexp hne hindices
  obtain ⟨m, part, code, h, hflat, hcodes⟩ := exists_longestParts hnexp hne hindices
  exact ⟨m, part, code, h.pos, hflat, fun j hj => ⟨h.nonempty j hj, h.known j hj, h.beginnings j hj⟩, h.longest, hcodes⟩

/-- Settles O48: every data code is the code of a known string. -/
theorem encoderCodesFitTheirWidths : Obligations.EncoderCodesFitTheirWidths := by
  unfold Obligations.EncoderCodesFitTheirWidths
  intro nexp first rest hnexp hindices
  obtain ⟨m, part, code, h, -, hcodes⟩ := exists_longestParts hnexp (List.cons_ne_nil first rest) hindices
  refine ⟨_, hcodes, fun p hp => ?_⟩
  obtain hdata | hend := List.mem_append.mp hp
  · obtain ⟨j, hj, rfl⟩ := List.mem_map.mp hdata
    obtain ⟨hclear, -, hlt⟩ := (h.known j (List.mem_range.mp hj)).code_bounds hnexp
    exact ⟨hlt, minCodeSize_le_codeWidth hnexp j, codeWidth_le nexp j, hclear⟩
  · obtain rfl := List.mem_singleton.mp hend
    exact ⟨endCode_lt_codeWidth hnexp m, minCodeSize_le_codeWidth hnexp m, codeWidth_le nexp m, Nat.succ_ne_self _⟩

end Sys2Proof.Machine
end

section
/-! The LZW round trip (45_lzw_decoder.md R252): reading the codes of a stream cut into its longest known strings, the decoder
stays one table entry behind the encoder and gives the parts back one by one. Settles O46. -/

namespace Sys2Proof.Machine

/-! ## The decoder after data code j -/

/-- The decoder that has read data codes 0 to j of a cut stream: its table lacks only the entry of code j
(45_lzw_decoder.md R245). -/
structure DecoderAfter (nexp : Nat) (part : Nat → List Nat) (code : Nat → Nat) (j : Nat) (d : Decoder) : Prop where
  next : d.next = nextAt nexp j
  width : d.width = codeWidth nexp (j + 1)
  prev : d.prev = some (code j)
  string : d.string nexp (code j) = part j
  table : ∀ i < j, 2 ^ (nexp + 1) + 2 + i < 4096 →
    d.table.lookup (2 ^ (nexp + 1) + 2 + i) = some (part i ++ (part (i + 1)).take 1)

theorem Decoder.string_literal {nexp c : Nat} (d : Decoder) (h : c < 2 ^ (nexp + 1)) : d.string nexp c = [c] := if_pos h

theorem Decoder.string_entry {nexp c : Nat} {d : Decoder} (h : 2 ^ (nexp + 1) ≤ c) {str : List Nat}
    (hl : d.table.lookup c = some str) : d.string nexp c = str := by
  rw [Decoder.string, tableSize, if_neg (Nat.not_lt.mpr h), hl, Option.getD_some]

/-- A known string is the string of its code, if the table holds the entries it may be among. -/
theorem string_of_known {nexp j c : Nat} {part : Nat → List Nat} {d : Decoder} {str : List Nat}
    (htable : ∀ i < j, 2 ^ (nexp + 1) + 2 + i < 4096 →
      d.table.lookup (2 ^ (nexp + 1) + 2 + i) = some (part i ++ (part (i + 1)).take 1))
    (h : KnownString nexp part j str c) : d.string nexp c = str := by
  obtain ⟨hc, rfl⟩ | ⟨i, hi, rfl, hfull, rfl⟩ := h
  · exact d.string_literal hc
  · exact Decoder.string_entry (by omega) (htable i hi hfull)

/-- The first index of a string stays the first when the string is longer. -/
theorem take_one_append {l : List Nat} (h : l ≠ []) (r : List Nat) : (l ++ r).take 1 = l.take 1 :=
  List.take_append_of_le_length (List.length_pos_of_ne_nil h)

section Simulation

variable {nexp m : Nat} {part : Nat → List Nat} {code : Nat → Nat} (h : LongestParts nexp m part code)
include h

/-- The first code is a literal. -/
theorem LongestParts.first : code 0 < 2 ^ (nexp + 1) ∧ part 0 = [code 0] := by
  obtain hlit | ⟨i, hi, -⟩ := h.known 0 h.pos
  · exact hlit
  · exact absurd hi (Nat.not_lt_zero i)

theorem decoderAfter_first (hnexp : nexp ≤ 7) :
    DecoderAfter nexp part code 0
      (Decoder.afterCode (Decoder.start nexp).width (Decoder.start nexp).table (Decoder.start nexp).next (code 0)) := by
  obtain ⟨hlit, hpart⟩ := h.first
  have hstart := atCode_start hnexp
  refine ⟨hstart.next, ?_, rfl, (Decoder.string_literal _ hlit).trans hpart.symm, fun i hi => absurd hi (Nat.not_lt_zero i)⟩
  rw [← widthFor_codeWidth, ← hstart.next, ← hstart.width]
  rfl

variable {d : Decoder} {j : Nat} (hd : DecoderAfter nexp part code j d) (hj : j + 1 < m)
include hd hj

/-- The decoder finds the next part: in its table, or as the string of the next free code (45_lzw_decoder.md R246). -/
theorem classify_next_part : d.classify nexp (code (j + 1)) = some (part (j + 1)) := by
  obtain hknown | ⟨hcode, hfull, hpart⟩ := (knownString_succ_iff ..).mp (h.known (j + 1) hj)
  · have hbound : code (j + 1) < tableSize nexp ∨ (firstFreeCode nexp ≤ code (j + 1) ∧ code (j + 1) < d.next) := by
      obtain ⟨hlit, -⟩ | ⟨i, hi, hcode, hfull, -⟩ := hknown
      · exact .inl hlit
      · rw [hd.next, nextAt, firstFreeCode, tableSize]
        omega
    rw [Decoder.classify_known hd.prev hbound, string_of_known hd.table hknown]
  · have hnext : code (j + 1) = d.next := by rw [hd.next, nextAt]; omega
    have hpart' : part (j + 1) = part j ++ (part j).take 1 := by
      conv_lhs => rw [hpart]
      rw [hpart, take_one_append (h.nonempty j (Nat.lt_of_succ_lt hj))]
    rw [Decoder.classify_next hd.prev (by rw [tableSize]; omega) hnext (hnext ▸ hfull), hd.string, hpart', extend]

/-- The decoder after one more data code, with the entry it then has for the code before (45_lzw_decoder.md R245). -/
theorem decoderAfter_grown (hfull : d.next < 4096) :
    DecoderAfter nexp part code (j + 1)
      (Decoder.afterCode d.width ((d.next, extend (d.string nexp (code j)) (part (j + 1))) :: d.table) (d.next + 1)
        (code (j + 1))) := by
  have hnext : d.next = 2 ^ (nexp + 1) + 2 + j := by
    have heq := hd.next
    rw [nextAt] at heq
    omega
  have hsucc : d.next + 1 = nextAt nexp (j + 1) := by rw [nextAt]; omega
  have htable : ∀ i < j + 1, 2 ^ (nexp + 1) + 2 + i < 4096 →
      List.lookup (2 ^ (nexp + 1) + 2 + i) ((d.next, extend (d.string nexp (code j)) (part (j + 1))) :: d.table) =
        some (part i ++ (part (i + 1)).take 1) := by
    intro i hi hlt
    obtain hold | rfl := Nat.lt_succ_iff_lt_or_eq.mp hi
    · have hne : (2 ^ (nexp + 1) + 2 + i == d.next) = false := by rw [beq_eq_false_iff_ne]; omega
      rw [List.lookup_cons, hne]
      exact hd.table i hold hlt
    · rw [hnext, List.lookup_cons_self, hd.string, extend]
  refine ⟨hsucc, ?_, rfl, string_of_known htable (h.known (j + 1) hj), htable⟩
  rw [← widthFor_codeWidth, ← hsucc, ← hd.width]
  rfl

/-- The decoder after one more data code with a full table. -/
theorem decoderAfter_full (hfull : ¬d.next < 4096) :
    DecoderAfter nexp part code (j + 1) (Decoder.afterCode d.width d.table d.next (code (j + 1))) := by
  have hge : 4096 ≤ 2 ^ (nexp + 1) + 2 + j := by
    have heq := hd.next
    rw [nextAt] at heq
    omega
  have hsame : d.next = nextAt nexp (j + 1) := by rw [hd.next, nextAt, nextAt]; omega
  have htable : ∀ i < j + 1, 2 ^ (nexp + 1) + 2 + i < 4096 →
      d.table.lookup (2 ^ (nexp + 1) + 2 + i) = some (part i ++ (part (i + 1)).take 1) :=
    fun i _ hlt => hd.table i (by omega) hlt
  refine ⟨hsame, ?_, rfl, string_of_known htable (h.known (j + 1) hj), htable⟩
  rw [← widthFor_codeWidth, ← hsame, ← hd.width]
  rfl

end Simulation

/-! ## Reading the whole stream -/

section Reading

variable {nexp m cap : Nat} {part : Nat → List Nat} {code : Nat → Nat} (hnexp : nexp ≤ 7)
  (h : LongestParts nexp m part code)
include hnexp h

/-- One data code is read as its part. -/
theorem decodeFrom_part {d : Decoder} {j ord : Nat} {out : List Nat} (hd : DecoderAfter nexp part code j d)
    (hj : j + 1 < m) (hcap : out.length + (part (j + 1)).length ≤ cap) (bits : List Bool) :
    ∃ d', DecoderAfter nexp part code (j + 1) d' ∧
      decodeFrom nexp cap d (codeBits (code (j + 1)) (codeWidth nexp (j + 1)) ++ bits) out ord =
        decodeFrom nexp cap d' bits (out ++ part (j + 1)) (ord + 1) := by
  obtain ⟨hclear, hend, hlt⟩ := (h.known (j + 1) hj).code_bounds hnexp
  have hw : 1 ≤ d.width := hd.width ▸ one_le_codeWidth nexp (j + 1)
  rw [← hd.width] at hlt ⊢
  rw [decodeFrom_later hw hlt hclear hend hd.prev (classify_next_part h hd hj)]
  unfold goOn
  rw [if_neg (Nat.not_lt.mpr hcap), if_neg (Nat.not_lt.mpr hcap)]
  split_ifs with hfull
  exacts [⟨_, decoderAfter_grown h hd hj hfull, rfl⟩, ⟨_, decoderAfter_full h hd hj hfull, rfl⟩]

/-- The codes behind data code j are read as the parts behind part j, up to End-of-Information. -/
theorem decodeFrom_parts (tail : List Bool) (n : Nat) : ∀ {d : Decoder} {j ord : Nat} {out : List Nat},
    DecoderAfter nexp part code j d → j + 1 + n = m →
    out.length + ((List.range' (j + 1) n).flatMap part).length ≤ cap →
    decodeFrom nexp cap d
        (streamBits ((List.range' (j + 1) n).map fun i => (code i, codeWidth nexp i)) ++
          (codeBits (endCode nexp) (codeWidth nexp m) ++ tail)) out ord =
      .ok (out ++ (List.range' (j + 1) n).flatMap part) := by
  induction n with
  | zero =>
    intro d j ord out hd hm hcap
    have hend := endCode_lt_codeWidth hnexp m
    have hw : 1 ≤ d.width := hd.width ▸ one_le_codeWidth nexp (j + 1)
    rw [← hm, Nat.add_zero, ← hd.width] at hend ⊢
    simp only [List.range'_zero, List.map_nil, List.flatMap_nil, List.append_nil, streamBits, List.nil_append]
    exact decodeFrom_end hw hend rfl
  | succ n ih =>
    intro d j ord out hd hm hcap
    rw [List.range'_succ, List.flatMap_cons, List.length_append] at hcap
    obtain ⟨d', hd', hread⟩ := decodeFrom_part (cap := cap) (ord := ord) (out := out) hnexp h hd (by omega) (by omega)
      (streamBits ((List.range' (j + 1 + 1) n).map fun i => (code i, codeWidth nexp i)) ++
        (codeBits (endCode nexp) (codeWidth nexp m) ++ tail))
    rw [List.range'_succ, List.map_cons, streamBits, List.flatMap_cons, ← streamBits, List.append_assoc, hread,
      ih hd' (by omega) (by rw [List.length_append]; omega), List.flatMap_cons, List.append_assoc]

/-- The codes of a cut stream, behind a Clear-Code, are read as its parts. -/
theorem decodeFrom_longestParts (tail : List Bool) (hcap : ((List.range m).flatMap part).length ≤ cap) :
    decodeFrom nexp cap (Decoder.start nexp)
        (streamBits ((clearCode nexp, minCodeSize nexp) ::
          (dataCodes nexp m code ++ [(endCode nexp, codeWidth nexp m)])) ++ tail) [] 0 =
      .ok ((List.range m).flatMap part) := by
  obtain ⟨n, rfl⟩ := Nat.exists_eq_add_of_le' h.pos
  obtain ⟨hlit, hpart⟩ := h.first
  obtain ⟨hclear, hend, hlt⟩ := (h.known 0 h.pos).code_bounds hnexp
  have hstart : 1 ≤ (Decoder.start nexp).width := Nat.succ_pos _
  have hrange : List.range (n + 1) = 0 :: List.range' (0 + 1) n := by rw [List.range_eq_range', List.range'_succ]
  rw [codeWidth_zero hnexp] at hlt
  rw [hrange, List.flatMap_cons, hpart, List.length_append] at hcap
  simp only [dataCodes, hrange, List.map_cons, List.cons_append, streamBits, List.flatMap_cons, List.flatMap_append,
    List.append_assoc, List.flatMap_nil, List.nil_append, codeWidth_zero hnexp]
  rw [← streamBits]
  have hread := (decodeFrom_clear (cap := cap) (out := []) (ord := 0) hstart (clearCode_lt nexp) rfl).trans
    (decodeFrom_first (bits := streamBits ((List.range' (0 + 1) n).map fun i => (code i, codeWidth nexp i)) ++
      (codeBits (endCode nexp) (codeWidth nexp (n + 1)) ++ tail)) hstart hlt hclear hend rfl
      (Decoder.classify_first_literal rfl hlit))
  refine hread.trans ?_
  rw [goOn, if_neg (Nat.not_lt.mpr (by simpa using Nat.le_of_add_right_le hcap)),
    decodeFrom_parts hnexp h tail n (decoderAfter_first h hnexp) (by omega) (by simpa using hcap), hpart]
  rfl

end Reading

/-- LZW.DEC undoes LZW.ENC, whatever follows the chain (45_lzw_decoder.md R252). -/
theorem lzwDecode_lzwEncode {nexp cap : Nat} (hnexp : nexp ≤ 7) {indices : List Nat} (hne : indices ≠ [])
    (hindices : AreIndices nexp indices) (hcap : indices.length ≤ cap) (after : List Nat) :
    lzwDecode nexp cap (lzwEncode nexp indices ++ after) = .ok (indices, (lzwEncode nexp indices).length) := by
  obtain ⟨m, part, code, h, hflat, hcodes⟩ := exists_longestParts hnexp hne hindices
  have hread : decodePayload nexp cap (pack (encodeCodes nexp indices)) = .ok indices := by
    rw [decodePayload, pack, payloadBits_packBits, hcodes,
      decodeFrom_longestParts hnexp h _ (hflat.symm ▸ hcap), hflat]
  rw [lzwDecode, lzwEncode, deframe_frame]
  simp only [hread]

/-! ## The two commands -/

/-- LZW.ENC ends without an error on indices whose chain fits DST_CAP, and stores that chain (44_lzw_encoder.md R210). -/
theorem lzwEnc_of_success {nexp : Nat} {s t : State} (he : exec (.lzwEnc nexp) s = .next t) (ht : t.err = false) :
    s.passesChecks (fun s => s.srcLen = 0#32) (·.srcLen.toNat) (·.dstCap.toNat) ∧ AreIndices nexp s.sourceNumbers ∧
      (lzwEncode nexp s.sourceNumbers).length ≤ s.dstCap.toNat ∧
      t = s.finish ((lzwEncode nexp s.sourceNumbers).map (BitVec.ofNat 8)) (lzwEncode nexp s.sourceNumbers).length
        (minCodeSize nexp) := by
  obtain ⟨hp, rfl⟩ := (checksThen_lzwEnc nexp).of_success he ht
  cases hbad : s.badIndex? nexp with
  | some p =>
    rw [compressedSource, hbad] at ht
    cases ht
  | none =>
    rw [compressedSource, hbad] at ht ⊢
    obtain hlt | hle := Nat.lt_or_ge s.dstCap.toNat (lzwEncode nexp s.sourceNumbers).length
    · simp only [chainResult_of_lt hlt] at ht
      cases ht
    · refine ⟨hp, fun i hi => ?_, hle, by rw [chainResult_of_le hle, State.complete_ok]⟩
      simpa using List.findIdx?_eq_none_iff.mp hbad i hi

/-- Byte values written as bytes read back as those numbers. -/
theorem map_toNat_readBytes_writeBytes (m : Memory) (addr : Nat) {out : List Nat} (h : ∀ byte ∈ out, byte < 256) :
    ((m.writeBytes addr (out.map (BitVec.ofNat 8))).readBytes addr out.length).map (·.toNat) = out := by
  have hread := Memory.readBytes_writeBytes m addr (out.map (BitVec.ofNat 8))
  rw [List.length_map] at hread
  rw [hread, List.map_map]
  exact (List.map_congr_left fun byte hbyte => (BitVec.toNat_ofNat byte 8).trans
    (Nat.mod_eq_of_lt (h byte hbyte))).trans (List.map_id' out)

/-- LZW.DEC in a state that passes its checks and holds a chain of LZW.ENC completes with the indices
(45_lzw_decoder.md R250, R252). -/
theorem exec_lzwDec_of_chain {nexp : Nat} (hnexp : nexp ≤ 7) {indices : List Nat} (hne : indices ≠ [])
    (hindices : AreIndices nexp indices) {s : State}
    (hp : s.passesChecks (fun _ => False) (·.srcLen.toNat) (·.dstCap.toNat))
    (hsource : s.sourceNumbers = lzwEncode nexp indices) (hcap : indices.length ≤ s.dstCap.toNat) :
    exec (.lzwDec nexp) s =
      .next (s.finish (indices.map (BitVec.ofNat 8)) indices.length (lzwEncode nexp indices).length) := by
  have hdecode := lzwDecode_lzwEncode hnexp hne hindices hcap []
  rw [List.append_nil, ← hsource] at hdecode
  rw [(checksThen_lzwDec nexp).exec_of_passes hp, expandedSource, hdecode, hsource]
  rfl

theorem registerValue_of_toNat {n : Nat} {w : Word} (h : n = w.toNat) : registerValue n = w :=
  BitVec.eq_of_toNat_eq ((registerValue_toNat (h ▸ w.isLt)).trans h)

/-- The state in which a second command reads the chain that `s` wrote at `src`, with `cap` bytes for its own result at `e`. -/
def State.atChain (s : State) (src e cap : Word) : State :=
  { s with srcAddr := src, srcLen := s.resultLen, dstAddr := e, dstCap := cap }

theorem sourceNumbers_atChain (s : State) {out : List Nat} (hbytes : ∀ byte ∈ out, byte < 256)
    (hlen : out.length < 2 ^ 32) (aux : Nat) (e cap : Word) :
    ((s.finish (out.map (BitVec.ofNat 8)) out.length aux).atChain s.dstAddr e cap).sourceNumbers = out := by
  have hread := map_toNat_readBytes_writeBytes s.mem s.dstAddr.toNat hbytes
  rw [← registerValue_toNat hlen] at hread
  exact hread

/-- Settles O46. The second command finds the chain where the first one wrote it. -/
theorem lzwRoundTrip : Obligations.LzwRoundTrip := by
  unfold Obligations.LzwRoundTrip
  intro nexp s t e cap hnexp hsize _ hst ht hroom hfit hdisj
  obtain ⟨⟨hlen, ⟨-, hdst⟩, -⟩, hindices, hchain, rfl⟩ := lzwEnc_of_success hst ht
  have hlength := s.length_sourceNumbers
  have hne : s.sourceNumbers ≠ [] := fun h0 => by
    rw [h0] at hlength
    exact hlen (BitVec.eq_of_toNat_eq hlength.symm)
  have hshort := hchain.trans_lt s.dstCap.isLt
  have hsource := sourceNumbers_atChain s (lzwEncode_lt nexp s.sourceNumbers) hshort (minCodeSize nexp) e cap
  have hresult := registerValue_toNat hshort
  have hinside := (Nat.add_le_add_left hchain s.dstAddr.toNat).trans hdst
  generalize hout : lzwEncode nexp s.sourceNumbers = out at *
  rw [State.finish_resultLen, hresult] at hdisj
  have hp : ((s.finish (out.map (BitVec.ofNat 8)) out.length (minCodeSize nexp)).atChain s.dstAddr e cap).passesChecks
      (fun _ => False) (·.srcLen.toNat) (·.dstCap.toNat) := by
    have hlen' : (registerValue out.length).toNat = out.length := hresult
    refine ⟨not_false, ⟨?_, hfit⟩, fun hshare => ?_⟩
    · exact (congrArg (s.dstAddr.toNat + ·) hlen').trans_le hinside
    · obtain ⟨-, -, hlt, hlt'⟩ : 0 < (registerValue out.length).toNat ∧ 0 < cap.toNat ∧
        s.dstAddr.toNat < e.toNat + cap.toNat ∧ e.toNat < s.dstAddr.toNat + (registerValue out.length).toNat := hshare
      omega
  have hexec := exec_lzwDec_of_chain hnexp hne hindices hp (hsource.trans hout.symm) (hlength.trans_le hroom)
  rw [hout] at hexec
  refine ⟨_, hexec, ht, registerValue_of_toNat hlength, rfl, fun p hpos => BitVec.eq_of_toNat_eq ?_⟩
  have hlt : p < s.sourceNumbers.length := hlength ▸ hpos
  calc _ = s.sourceNumbers.getD p 0 := read_finish_numbers (State.atChain _ s.dstAddr e cap) _ _ (hindices.lt_256 hnexp) hlt
    _ = (s.mem.read (s.srcAddr.toNat + p)).toNat := by rw [List.getD_eq_getElem _ _ hlt, State.getElem_sourceNumbers]

end Sys2Proof.Machine
end

section
/-! Host images and BMP files (46_host_software.md R301, R312 to R315, R320 to R323): images are known by their bytes, the
transforms are maps of pixels, and the fields of a file header read back. Settles O54 and O55. -/

namespace Sys2Proof.Machine

/-! ## Images by their bytes -/

namespace PixelImage

theorem byteAt_of_lt {img : PixelImage} {i : Nat} (h : i < img.data.length) : img.byteAt i = img.data[i] :=
  List.getD_eq_getElem _ _ h

/-- Two filled images of the same size and channels with the same bytes are the same. -/
theorem ext_of_bytes {a b : PixelImage} (ha : a.filled) (hb : b.filled) (hw : a.width = b.width)
    (hh : a.height = b.height) (hc : a.channels = b.channels)
    (h : ∀ i < imageBytes b.width b.height (channelCount b.channels), a.byteAt i = b.byteAt i) : a = b := by
  have hlen : a.data.length = b.data.length := by rw [ha, hb, hw, hh, hc]
  have hdata : a.data = b.data := by
    apply List.ext_getElem hlen
    intro i hia hib
    rw [← byteAt_of_lt hia, ← byteAt_of_lt hib]
    exact h i (hb ▸ hib)
  obtain ⟨_, _, _, _⟩ := a
  obtain ⟨_, _, _, _⟩ := b
  simp_all

/-- The same, pixel by pixel and channel by channel. -/
theorem ext_of_pixels {a b : PixelImage} (ha : a.filled) (hb : b.filled) (hw : a.width = b.width)
    (hh : a.height = b.height) (hc : a.channels = b.channels)
    (h : ∀ x < b.width, ∀ y < b.height, ∀ k < channelCount b.channels,
      a.byteAt (a.offset x y k) = b.byteAt (b.offset x y k)) : a = b := by
  refine ext_of_bytes ha hb hw hh hc fun i hi => ?_
  have hpixel : i / channelCount b.channels < b.width * b.height :=
    Nat.div_lt_of_lt_mul (by rwa [Nat.mul_comm])
  have hwpos : 0 < b.width := Nat.pos_of_ne_zero fun h0 => by simp [h0] at hpixel
  have hbyte := h _ (Nat.mod_lt (i / channelCount b.channels) hwpos) _ (Nat.div_lt_of_lt_mul hpixel) _
    (Nat.mod_lt i (Nat.zero_lt_of_lt (three_le_channelCount b.channels)))
  simpa only [offset, pixelOffset, hw, hc, Nat.div_add_mod', Nat.div_add_mod] using hbyte

/-- The byte of an offset inside an image lies inside its buffer (20_memory.md R66). -/
theorem pixelOffset_lt {w h c x y k : Nat} (hx : x < w) (hy : y < h) (hk : k < c) :
    pixelOffset w c x y k < imageBytes w h c := by
  have hpixel : y * w + x < w * h := (row_byte_lt hy hx).trans_eq (Nat.mul_comm h w)
  exact pixel_byte_lt hpixel hk

theorem filled_rearrange (img : PixelImage) (w h : Nat) (source : Nat → Nat → Nat × Nat) :
    (img.rearrange w h source).filled := length_gather _ _

theorem filled_recolour (img : PixelImage) (value : Nat → Nat → Byte) : (img.recolour value).filled := length_gather _ _

theorem byteAt_replaceBuffer_gather (img : PixelImage) {n : Nat} (f : Nat → Byte) (w h : Nat) {i : Nat} (hi : i < n) :
    (img.replaceBuffer (gather n f) w h).byteAt i = f i := by
  have hlen : i < (gather n f).length := (length_gather n f).symm ▸ hi
  exact (List.getD_eq_getElem _ _ hlen).trans (getElem_gather n f i hlen)

/-- A pixel of a rearranged image is its source pixel. -/
theorem byteAt_rearrange (img : PixelImage) {w h : Nat} (source : Nat → Nat → Nat × Nat) {x y k : Nat} (hx : x < w)
    (hy : y < h) (hk : k < channelCount img.channels) :
    (img.rearrange w h source).byteAt ((img.rearrange w h source).offset x y k) =
      img.byteAt (img.offset (source x y).1 (source x y).2 k) := by
  have hpixel : (channelCount img.channels * (y * w + x) + k) / channelCount img.channels = y * w + x := by
    rw [Nat.mul_add_div (Nat.zero_lt_of_lt hk), Nat.div_eq_of_lt hk, Nat.add_zero]
  have hchannel : (channelCount img.channels * (y * w + x) + k) % channelCount img.channels = k := by
    rw [Nat.mul_add_mod, Nat.mod_eq_of_lt hk]
  obtain ⟨hrow, hcol⟩ := row_div_mod y hx
  refine (byteAt_replaceBuffer_gather img _ w h (pixelOffset_lt hx hy hk)).trans ?_
  simp only [pixelOffset, hpixel, hchannel, hrow, hcol]

/-- A byte of a recoloured image is the value of its pixel and channel. -/
theorem byteAt_recolour (img : PixelImage) (value : Nat → Nat → Byte) {i : Nat}
    (hi : i < imageBytes img.width img.height (channelCount img.channels)) :
    (img.recolour value).byteAt i =
      value (i / channelCount img.channels * channelCount img.channels) (i % channelCount img.channels) :=
  byteAt_replaceBuffer_gather img _ _ _ hi

/-! ## The transforms -/

/-- A pixel of the flipped image (46_host_software.md R312). -/
theorem byteAt_flip (img : PixelImage) {x y k : Nat} (hx : x < img.width) (hy : y < img.height)
    (hk : k < channelCount img.channels) :
    img.flip.byteAt (img.flip.offset x y k) = img.byteAt (img.offset x (img.height - 1 - y) k) :=
  byteAt_rearrange img _ hx hy hk

theorem flip_flip {img : PixelImage} (hf : img.filled) : img.flip.flip = img := by
  refine ext_of_pixels (filled_rearrange ..) hf rfl rfl rfl fun x hx y hy k hk => ?_
  have hy' : img.height - 1 - y < img.height := by omega
  have hback : img.height - 1 - (img.height - 1 - y) = y := by omega
  calc img.flip.flip.byteAt (img.flip.flip.offset x y k)
    _ = img.flip.byteAt (img.flip.offset x (img.height - 1 - y) k) := byteAt_flip img.flip hx hy hk
    _ = img.byteAt (img.offset x (img.height - 1 - (img.height - 1 - y)) k) := byteAt_flip img hx hy' hk
    _ = img.byteAt (img.offset x y k) := by rw [hback]

/-- A pixel of the image turned clockwise (46_host_software.md R313). -/
theorem byteAt_rotateClockwise (img : PixelImage) {x y k : Nat} (hx : x < img.height) (hy : y < img.width)
    (hk : k < channelCount img.channels) :
    img.rotateClockwise.byteAt (img.rotateClockwise.offset x y k) =
      img.byteAt (img.offset y (img.height - 1 - x) k) := byteAt_rearrange img _ hx hy hk

/-- Two clockwise rotations turn the image upside down. -/
theorem byteAt_rotateClockwise_twice (img : PixelImage) {x y k : Nat} (hx : x < img.width) (hy : y < img.height)
    (hk : k < channelCount img.channels) :
    img.rotateClockwise.rotateClockwise.byteAt (img.rotateClockwise.rotateClockwise.offset x y k) =
      img.byteAt (img.offset (img.width - 1 - x) (img.height - 1 - y) k) := by
  have hx' : img.width - 1 - x < img.width := by omega
  exact (byteAt_rotateClockwise img.rotateClockwise hx hy hk).trans (byteAt_rotateClockwise img hy hx' hk)

theorem rotateClockwise_four {img : PixelImage} (hf : img.filled) :
    img.rotateClockwise.rotateClockwise.rotateClockwise.rotateClockwise = img := by
  refine ext_of_pixels (filled_rearrange ..) hf rfl rfl rfl fun x hx y hy k hk => ?_
  have hx' : img.width - 1 - x < img.width := by omega
  have hy' : img.height - 1 - y < img.height := by omega
  have hbackx : img.width - 1 - (img.width - 1 - x) = x := by omega
  have hbacky : img.height - 1 - (img.height - 1 - y) = y := by omega
  refine (byteAt_rotateClockwise_twice img.rotateClockwise.rotateClockwise hx hy hk).trans ?_
  refine (byteAt_rotateClockwise_twice img hx' hy' hk).trans ?_
  rw [hbackx, hbacky]

/-- Clockwise, then counterclockwise, is a vertical flip (90_conflicts.md C5). -/
theorem rotateCounterclockwise_rotateClockwise (img : PixelImage) :
    img.rotateClockwise.rotateCounterclockwise = img.flip := by
  refine ext_of_pixels (filled_rearrange ..) (filled_rearrange ..) rfl rfl rfl fun x hx y hy k hk => ?_
  calc img.rotateClockwise.rotateCounterclockwise.byteAt (img.rotateClockwise.rotateCounterclockwise.offset x y k)
    _ = img.rotateClockwise.byteAt (img.rotateClockwise.offset y x k) := byteAt_rearrange img.rotateClockwise _ hx hy hk
    _ = img.byteAt (img.offset x (img.height - 1 - y) k) := byteAt_rotateClockwise img hy hx hk
    _ = img.flip.byteAt (img.flip.offset x y k) := (byteAt_flip img hx hy hk).symm

/-- A colour byte of the inverse is 255 minus the byte, alpha stays (46_host_software.md R315). -/
theorem byteAt_inverse (img : PixelImage) {i : Nat}
    (hi : i < imageBytes img.width img.height (channelCount img.channels)) :
    img.inverse.byteAt i =
      if i % channelCount img.channels < 3 then BitVec.ofNat 8 (255 - (img.byteAt i).toNat) else img.byteAt i := by
  refine (byteAt_recolour img _ hi).trans ?_
  simp only [Nat.div_add_mod']

theorem inverse_inverse {img : PixelImage} (hf : img.filled) : img.inverse.inverse = img := by
  refine ext_of_bytes (filled_recolour ..) hf rfl rfl rfl fun i hi => ?_
  refine (byteAt_inverse img.inverse hi).trans ?_
  rw [byteAt_inverse img hi]
  show (if i % channelCount img.channels < 3 then _ else _) = _
  split_ifs
  · have hlt := (img.byteAt i).isLt
    apply BitVec.eq_of_toNat_eq
    simp only [BitVec.toNat_ofNat]
    omega
  · rfl

end PixelImage

/-! ## Fields of a file -/

@[simp] theorem length_littleEndian (n value : Nat) : (littleEndian n value).length = n := by simp [littleEndian]

theorem getD_littleEndian {n value i : Nat} (h : i < n) :
    ((littleEndian n value).getD i 0x00#8).toNat = value / 256 ^ i % 256 := by
  rw [List.getD_eq_getElem _ _ (by simpa using h)]
  simp [littleEndian]

/-- The digits of a number below 256^n make it up (46_host_software.md R320). -/
theorem sum_digits (value n : Nat) :
    ((List.range n).map fun i => value / 256 ^ i % 256 * 256 ^ i).sum = value % 256 ^ n := by
  induction n with
  | zero => simp [Nat.mod_one]
  | succ n ih =>
    rw [List.range_succ, List.map_append, List.sum_append, ih, Nat.pow_succ, Nat.mod_mul]
    simp [Nat.mul_comm]

/-- A read looks at the n bytes from the offset on. -/
theorem readLittleEndian_congr {bytes bytes' : List Byte} {o o' n : Nat}
    (h : ∀ i < n, bytes.getD (o + i) 0x00#8 = bytes'.getD (o' + i) 0x00#8) :
    readLittleEndian bytes o n = readLittleEndian bytes' o' n := by
  unfold readLittleEndian
  congr 1
  exact List.map_congr_left fun i hi => by rw [h i (List.mem_range.mp hi)]

/-- A number that fits its field reads back (46_host_software.md R320). -/
theorem readLittleEndian_littleEndian {n value : Nat} (h : value < 256 ^ n) :
    readLittleEndian (littleEndian n value) 0 n = value := by
  refine Eq.trans ?_ ((sum_digits value n).trans (Nat.mod_eq_of_lt h))
  unfold readLittleEndian
  congr 1
  refine List.map_congr_left fun i hi => ?_
  rw [Nat.zero_add, getD_littleEndian (List.mem_range.mp hi)]

theorem readLittleEndian_append_right (l r : List Byte) (o n : Nat) :
    readLittleEndian (l ++ r) (l.length + o) n = readLittleEndian r o n :=
  readLittleEndian_congr fun i _ => by
    rw [List.getD_append_right _ _ _ _ (by omega)]
    congr 1
    omega

theorem readLittleEndian_append_left {l : List Byte} {o n : Nat} (h : o + n ≤ l.length) (r : List Byte) :
    readLittleEndian (l ++ r) o n = readLittleEndian l o n :=
  readLittleEndian_congr fun i hi => List.getD_append _ _ _ _ (by omega)

/-- The bytes of numbers in fields of given widths, one after another. -/
def fieldBytes (fields : List (Nat × Nat)) : List Byte := fields.flatMap fun f => littleEndian f.1 f.2

/-- The offset of field k. -/
def fieldOffset (fields : List (Nat × Nat)) (k : Nat) : Nat := ((fields.take k).map Prod.fst).sum

theorem length_fieldBytes (fields : List (Nat × Nat)) : (fieldBytes fields).length = (fields.map Prod.fst).sum := by
  simp [fieldBytes, List.length_flatMap]

/-- Field k reads back, if its number fits. -/
theorem readLittleEndian_field (sig : List Byte) {fields : List (Nat × Nat)} (after : List Byte) {k n value : Nat}
    (hk : fields[k]? = some (n, value)) (h : value < 256 ^ n) :
    readLittleEndian (sig ++ (fieldBytes fields ++ after)) (sig.length + fieldOffset fields k) n = value := by
  rw [readLittleEndian_append_right]
  induction fields generalizing k with
  | nil => simp at hk
  | cons f rest ih =>
    rw [fieldBytes, List.flatMap_cons, ← fieldBytes, List.append_assoc]
    cases k with
    | zero =>
      obtain rfl : f = (n, value) := by simpa using hk
      exact (readLittleEndian_append_left (by simp [fieldOffset]) _).trans (readLittleEndian_littleEndian h)
    | succ k =>
      have hoffset : fieldOffset (f :: rest) (k + 1) = (littleEndian f.1 f.2).length + fieldOffset rest k := by
        simp [fieldOffset]
      rw [hoffset, readLittleEndian_append_right]
      exact ih (by simpa using hk)

/-! ## BMP files -/

/-- The signature of a BMP file (46_host_software.md R320). -/
def bmpSignature : List Byte := [0x42#8, 0x4D#8]

/-- The widths and numbers of the header fields behind the signature (46_host_software.md R320). -/
def bmpFields (o : BmpOpenFields) (img : PixelImage) (n : Nat) : List (Nat × Nat) :=
  [(4, bmpHeaderBytes + n), (4, o.reserved), (4, bmpHeaderBytes), (4, 40), (4, img.width), (4, img.height), (2, 1),
    (2, 8 * channelCount img.channels), (4, 0), (4, o.imageSize), (4, o.xPpm), (4, o.yPpm), (4, o.colorsUsed),
    (4, o.colorsImportant)]

theorem bmpHeader_eq_fields (o : BmpOpenFields) (img : PixelImage) (n : Nat) :
    bmpHeader o img n = bmpSignature ++ fieldBytes (bmpFields o img n) := by
  simp [bmpHeader, bmpSignature, fieldBytes, bmpFields]

theorem length_bmpHeader (o : BmpOpenFields) (img : PixelImage) (n : Nat) : (bmpHeader o img n).length = 54 := by
  simp [bmpHeader_eq_fields, length_fieldBytes, bmpSignature, bmpFields]

section Bmp

variable (o : BmpOpenFields) {img : PixelImage} (pixels : List Byte)

theorem readLittleEndian_bmpFile {k n value : Nat} (hk : (bmpFields o img pixels.length)[k]? = some (n, value))
    (h : value < 256 ^ n) :
    readLittleEndian (bmpFile o img pixels) (2 + fieldOffset (bmpFields o img pixels.length) k) n = value := by
  rw [bmpFile, bmpHeader_eq_fields, List.append_assoc]
  exact readLittleEndian_field bmpSignature pixels hk h

theorem getD_bmpFile (i : Nat) : (bmpFile o img pixels).getD (54 + i) 0x00#8 = pixels.getD i 0x00#8 := by
  rw [bmpFile, ← length_bmpHeader o img pixels.length, List.getD_append_right _ _ _ _ (Nat.le_add_right _ _),
    Nat.add_sub_cancel_left]

theorem length_bmpFile : (bmpFile o img pixels).length = 54 + pixels.length := by
  rw [bmpFile, List.length_append, length_bmpHeader]

/-- The layout an image's file has. -/
def fileLayout (img : PixelImage) : BmpLayout where
  first := 54
  width := img.width
  height := img.height
  channels := img.channels

theorem bmpChannels_channelCount (c : Channels) : bmpChannels (8 * channelCount c) = some c := by cases c <;> rfl

/-- The headers of a file say where its pixels are and what they are (46_host_software.md R321). -/
theorem bmpLayout_bmpFile {start : Nat → Nat} (hstart : start 54 = 54) (hw : img.width < 2 ^ 31)
    (hh : img.height < 2 ^ 31)
    (hlen : pixels.length = paddedBytes img.width img.height (channelCount img.channels)) :
    bmpLayout start (bmpFile o img pixels) = .ok (fileLayout img) := by
  have hoffset : readLittleEndian (bmpFile o img pixels) 10 4 = 54 :=
    readLittleEndian_bmpFile o pixels (k := 2) rfl (by decide)
  have hheader : readLittleEndian (bmpFile o img pixels) 14 4 = 40 :=
    readLittleEndian_bmpFile o pixels (k := 3) rfl (by decide)
  have hwidth : readLittleEndian (bmpFile o img pixels) 18 4 = img.width :=
    readLittleEndian_bmpFile o pixels (k := 4) rfl (by omega)
  have hheight : readLittleEndian (bmpFile o img pixels) 22 4 = img.height :=
    readLittleEndian_bmpFile o pixels (k := 5) rfl (by omega)
  have hplanes : readLittleEndian (bmpFile o img pixels) 26 2 = 1 :=
    readLittleEndian_bmpFile o pixels (k := 6) rfl (by decide)
  have hbits : readLittleEndian (bmpFile o img pixels) 28 2 = 8 * channelCount img.channels :=
    readLittleEndian_bmpFile o pixels (k := 7) rfl (by cases img.channels <;> decide)
  have hcompression : readLittleEndian (bmpFile o img pixels) 30 4 = 0 :=
    readLittleEndian_bmpFile o pixels (k := 8) rfl (by decide)
  have hsignature : (bmpFile o img pixels).take 2 = [0x42#8, 0x4D#8] := by
    rw [bmpFile, bmpHeader_eq_fields, List.append_assoc]
    rfl
  have htotal := length_bmpFile o (img := img) pixels
  have hcovered : bmpHeaderCovered (bmpFile o img pixels) = true := by
    simpa [bmpHeaderCovered, hheader, hplanes, hcompression, hwidth, hheight] using And.intro hw hh
  have hlong : ¬((bmpFile o img pixels).take 2 ≠ [0x42#8, 0x4D#8] ∨ (bmpFile o img pixels).length < bmpHeaderBytes) :=
    not_or.mpr ⟨not_not.mpr hsignature, Nat.not_lt.mpr (htotal ▸ Nat.le_add_right _ _)⟩
  have hwhole : ¬(bmpFile o img pixels).length < 54 + BmpLayout.bytes (fileLayout img) := by
    rw [htotal, hlen]
    exact Nat.lt_irrefl _
  rw [bmpLayout, if_neg hlong, hbits, bmpChannels_channelCount]
  simp only [hoffset, hwidth, hheight, hstart, hcovered]
  exact if_neg hwhole

end Bmp

/-- The rows of the pixel array without their padding are the buffer (46_host_software.md R321, R322). -/
theorem bmpRows_encodeBmp (o : BmpOpenFields) {img : PixelImage} (hf : img.filled) :
    bmpRows (encodeBmp o img) (fileLayout img) = img.data := by
  apply List.ext_getElem
  · exact (length_gather _ _).trans hf.symm
  · intro q hq hdata
    have hlt : q < img.height * rowBytes img.width (channelCount img.channels) := by
      rwa [← imageBytes_eq_rows, ← hf]
    have hy : q / rowBytes img.width (channelCount img.channels) < img.height :=
      Nat.div_lt_of_lt_mul (by rwa [Nat.mul_comm])
    have hx : q % rowBytes img.width (channelCount img.channels) < rowBytes img.width (channelCount img.channels) :=
      Nat.mod_lt _ (Nat.pos_of_ne_zero fun h0 => by simp [h0] at hlt)
    have hx' := hx.trans_le (rowBytes_le_rowStride img.width (channelCount img.channels))
    have hin := row_byte_lt hy hx'
    refine (getElem_gather _ _ q hq).trans ?_
    simp only [unpaddedByte, paddedOffset, fileLayout, encodeBmp, getD_bmpFile, bmpPixelArray]
    rw [List.getD_eq_getElem _ _ ((length_gather _ _).symm ▸ hin), getElem_gather, paddedByte_row _ _ _ _ hx', if_pos hx,
      Nat.div_add_mod', PixelImage.byteAt_of_lt hdata]

/-! ## The statements -/

/-- Settles O54. -/
theorem transformLaws : Obligations.TransformLaws := by
  unfold Obligations.TransformLaws
  exact fun img hf => ⟨PixelImage.flip_flip hf, PixelImage.inverse_inverse hf, PixelImage.rotateClockwise_four hf,
    img.rotateCounterclockwise_rotateClockwise⟩

/-- Settles O55. -/
theorem bmpRoundTrip : Obligations.BmpRoundTrip := by
  unfold Obligations.BmpRoundTrip
  intro o start uncovered img hstart hf hw hh
  have hlayout := bmpLayout_bmpFile o (bmpPixelArray img) hstart hw hh (length_gather _ _)
  rw [decodeBmp, encodeBmp, hlayout]
  exact congrArg (fun data => Except.ok ((fileLayout img).image data)) (bmpRows_encodeBmp o hf)

end Sys2Proof.Machine
end

section
/-! `resize` with the block (46_host_software.md R310, R317): the host's program puts the image and the six registers in
place, RUN completes the command whatever the host polls, and the destination is the scaled image. Settles O59. -/

namespace Sys2Proof.Machine

/-! ## Lines of a host program -/

theorem State.busy_writeReg_parameter (s : State) {r : Reg} (hr : r ∈ parameterRegisters) (v : Word) :
    (s.writeReg r v).busy = s.busy := by
  cases r with
  | cmd | status | ctrl | resultLen | resultAux | errInfo => exact absurd hr (by decide)
  | _ => rfl

section Lines

variable {s : State} (hb : s.busy = false)
include hb

/-- `WR reg, value` while BUSY = 0 writes the register (30_encoding.md R98). -/
theorem runProgram_wr (r : Reg) (v : Word) (rest : List HostLine) :
    runProgram (.op (.wr r v) :: rest) s = runProgram rest (s.writeReg r v) := by
  have haligned : r.offset % 4 = 0 := by cases r <;> rfl
  refine runProgram_op ?_ rest
  rw [Input.wr, deliver_host, hostStep, if_pos ((registerShapeOk_iff 32 r.offset).mpr ⟨rfl, haligned⟩),
    State.writeOffset_offset hb]

/-- `ST addr, b0 b1 ...` while BUSY = 0 stores the bytes (30_encoding.md R98). -/
theorem runProgram_st {addr : Nat} {bytes : List Byte} (hfit : addr + bytes.length ≤ s.memSize) (rest : List HostLine) :
    runProgram (.op (.st addr bytes) :: rest) s = runProgram rest (s.store addr bytes) :=
  runProgram_op ((deliver_host (.memStore addr bytes) s).trans (memAccess_inside hb hfit _)) rest

/-- A program that begins with writes of parameter registers makes them, one after another. -/
theorem runProgram_parameters {writes : List (Reg × Word)} (hw : ∀ p ∈ writes, p.1 ∈ parameterRegisters)
    (rest : List HostLine) :
    runProgram (writes.map (fun p => .op (.wr p.1 p.2)) ++ rest) s =
      runProgram rest (writes.foldl (fun s p => s.writeReg p.1 p.2) s) := by
  induction writes generalizing s with
  | nil => rfl
  | cons p writes ih =>
    obtain ⟨hp, hw⟩ := List.forall_mem_cons.mp hw
    rw [List.map_cons, List.cons_append, runProgram_wr hb, ih ((s.busy_writeReg_parameter hp p.2).trans hb) hw]
    rfl

end Lines

/-- Reads of STATUS change only what the host has read last. -/
theorem deliverAll_polls (polls : Nat) (s : State) :
    deliverAll (List.replicate polls (.rd .status)) s = .next (s.answer (lastReply s polls)) := by
  induction polls generalizing s with
  | zero => rfl
  | succ polls ih =>
    rw [List.replicate_succ, deliverAll_cons (deliver_readStatus s), ih]
    cases polls <;> rfl

/-- `WAIT` with a command in flight is its completion, however long the host polls (30_encoding.md R99,
70_reset_and_hazards.md R461). -/
theorem deliverAll_waitScript {s t : State} (ht : blockStep s = .next t) (polls : Nat) :
    deliverAll (waitScript true polls) s = .next (t.answer (.word t.statusWord)) := by
  rw [waitScript, if_pos rfl, deliverAll_append (deliverAll_polls polls s)]
  rw [deliverAll_cons ((deliver_block _).trans (blockStep_answer ht _)), deliverAll_cons (deliver_readStatus _)]
  rfl

/-- `RUN` of a command in a state that accepts it completes that command (30_encoding.md R99). -/
theorem runProgram_runScript {i : Instr} (hi : i.wellFormed) {s : State} (ha : s.accepts = true) (polls : Nat) :
    ∃ reply, runProgram (runScript i polls) s =
      .next (((s.accept (encode i)).complete (commandResult i s)).answer reply) := by
  have hcmd : s.writeReg .cmd (encode i) = s.accept (encode i) := if_pos ha
  have hresult : commandResult i (s.accept (encode i)) = commandResult i s := by
    refine commandResult_congr i rfl rfl fun r hr => ?_
    cases r with
    | cmd | status | resultLen | resultAux => cases i <;> cases hr
    | _ => rfl
  have hstep : blockStep (s.accept (encode i)) = .next ((s.accept (encode i)).complete (commandResult i s)) := by
    rw [blockStep_of_decode rfl (decode_of_isWordOf (isWordOf_encode hi)), exec_eq_complete, hresult]
  have hrun := runProgram_wr (s.accepts_iff.mp ha).1 .cmd (encode i) [.wait polls]
  have hwait : runProgram [.wait polls] (s.accept (encode i)) = _ :=
    runProgram_cons (line := .wait polls) (s := s.accept (encode i)) (deliverAll_waitScript hstep polls) []
  rw [hcmd, hwait, runProgram_nil] at hrun
  exact ⟨_, hrun⟩

/-! ## The scalers read inside the image -/

/-- What a scaler computes depends only on the samples inside the image (42_scalers.md R152, R163). -/
def DependsOnImage (spec : Scaling ℤ) : Prop :=
  ∀ (f g : Sampler) (oldW oldH newW newH dx dy k : Nat), 0 < oldW → 0 < oldH → dx < newW → dy < newH →
    (∀ x < oldW, ∀ y < oldH, f x y k = g x y k) →
    spec f oldW oldH newW newH dx dy k = spec g oldW oldH newW newH dx dy k

theorem bilinear_dependsOnImage :
    DependsOnImage fun sample oldW oldH newW newH dx dy k => ⌊bilinearExact sample oldW oldH newW newH dx dy k⌋ := by
  intro f g oldW oldH newW newH dx dy k how hoh hdx hdy h
  have hw := Nat.zero_lt_of_lt hdx
  have hh := Nat.zero_lt_of_lt hdy
  have next {old x : Nat} (ho : 0 < old) : min (x + 1) (old - 1) < old :=
    (min_le_right _ _).trans_lt (Nat.sub_lt ho Nat.one_pos)
  have hsum : bilinearSum f oldW oldH newW newH dx dy k = bilinearSum g oldW oldH newW newH dx dy k := by
    simp only [bilinearSum, h _ (bilinearTap_inside how hdx) _ (bilinearTap_inside hoh hdy), h _ (next how) _ (next hoh),
      h _ (next how) _ (bilinearTap_inside hoh hdy), h _ (bilinearTap_inside how hdx) _ (next hoh)]
  simp only [bilinearExact_eq_div _ how hoh hw hh, hsum]

theorem cubicTap_lt {size : Nat} (h : 0 < size) (base i : Nat) : cubicTap base size i < size := by
  unfold cubicTap clamp
  omega

theorem bicubic_dependsOnImage :
    DependsOnImage fun sample oldW oldH newW newH dx dy k =>
      max 0 (min 255 ⌊bicubicExact sample oldW oldH newW newH dx dy k + 1 / 2⌋) := by
  intro f g oldW oldH newW newH dx dy k how hoh hdx hdy h
  have hw := Nat.zero_lt_of_lt hdx
  have hh := Nat.zero_lt_of_lt hdy
  have htap : bicubicTap f oldW oldH newW newH dx dy k = bicubicTap g oldW oldH newW newH dx dy k := by
    funext i j
    exact h _ (cubicTap_lt how _ _) _ (cubicTap_lt hoh _ _)
  simp only [bicubicExact_eq_div _ _ _ hw hh, bicubicSum, htap]

theorem ChecksThen.result_of_passes {i : Instr} {zero : State → Prop} {src dst : State → Nat} {work : State → CmdResult}
    (h : ChecksThen i zero src dst work) {s : State} (hp : s.passesChecks zero src dst) :
    commandResult i s = work s := by
  obtain ⟨b, hb, hr⟩ := h s
  obtain ⟨hz, ⟨hsrc, hdst⟩, hshare⟩ := hp
  rw [hr, Bool.eq_false_iff.mpr (mt hb.mp hz),
    checked_pass hsrc hdst (Bool.eq_false_iff.mpr (mt (srcRegion_overlaps_dstRegion s _ _).mp hshare))]

/-- The bytes of a scaled image are those `spec` states. -/
theorem read_scaledImage_spec {value : Scaling Nat} {spec : Scaling ℤ} {ch : Channels} (hv : ComputesByte value spec) {s : State}
    (hzero : ¬s.zeroImage) {dx dy k : Nat} (hdx : dx < s.dstW.toNat) (hdy : dy < s.dstH.toNat)
    (hk : k < channelCount ch) :
    (((s.complete (scaledImage value (channelCount ch) s)).mem.read
        (s.dstAddr.toNat + pixelOffset s.dstW.toNat (channelCount ch) dx dy k)).toNat : ℤ) =
      spec (s.sample s.srcW.toNat (channelCount ch)) s.srcW.toNat s.srcH.toNat s.dstW.toNat s.dstH.toNat dx dy k := by
  obtain ⟨hw, hh⟩ := not_or.mp (not_or.mp hzero).1
  obtain ⟨hle, heq⟩ := hv (s.sample s.srcW.toNat (channelCount ch)) s.srcW.toNat s.srcH.toNat s.dstW.toNat
    s.dstH.toNat dx dy k (fun x y => s.sample_le _ _ x y k) (toNat_pos_of_ne_zero hw) (toNat_pos_of_ne_zero hh)
    (Nat.zero_lt_of_lt hdx) (Nat.zero_lt_of_lt hdy)
  rw [pixelOffset, read_scaledImage value s hdx hdy hk, scaledByte, BitVec.toNat_ofNat,
    Nat.mod_eq_of_lt (by omega)]
  exact heq

/-! ## The program -/

/-- The state in which the host writes the command of `resize`: the image lies at `src`, and the six registers are set
(46_host_software.md R317). -/
def resizeState (img : PixelImage) (src dst newW newH : Word) (s : State) : State :=
  { s with
    mem := s.mem.writeBytes src.toNat img.data
    srcAddr := src
    srcW := BitVec.ofNat 32 img.width
    srcH := BitVec.ofNat 32 img.height
    dstAddr := dst
    dstW := newW
    dstH := newH }

/-- The register writes of `resize` (46_host_software.md R317). -/
def resizeWrites (img : PixelImage) (src dst newW newH : Word) : List (Reg × Word) :=
  [(.srcAddr, src), (.srcW, BitVec.ofNat 32 img.width), (.srcH, BitVec.ofNat 32 img.height), (.dstAddr, dst),
    (.dstW, newW), (.dstH, newH)]

/-- A byte of an image that lies in MEM (46_host_software.md R301). -/
theorem byteAt_imageAt (s : State) (r : ImageRef) {x y k : Nat} (hx : x < r.width.toNat) (hy : y < r.height.toNat)
    (hk : k < channelCount r.channels) :
    (s.imageAt r).byteAt ((s.imageAt r).offset x y k) =
      s.mem.read (r.addr.toNat + pixelOffset r.width.toNat (channelCount r.channels) x y k) := by
  have hlen : (s.imageAt r).offset x y k < (s.imageAt r).data.length :=
    (Memory.length_readBytes _ _ _).symm ▸ PixelImage.pixelOffset_lt hx hy hk
  rw [PixelImage.byteAt_of_lt hlen]
  exact Memory.getElem_readBytes _ _ _ _ hlen

section Resize

variable {mode : ScaleMode} {img : PixelImage} {s : State} {src dst newW newH : Word}

theorem runProgram_resizeProgram (hb : s.busy = false) (hfit : src.toNat + img.data.length ≤ s.memSize) (polls : Nat) :
    runProgram (resizeProgram mode img src dst newW newH polls) s =
      runProgram (runScript (mode.instr img.channels) polls) (resizeState img src dst newW newH s) := by
  have hprogram : resizeProgram mode img src dst newW newH polls =
      .op (.st src.toNat img.data) :: ((resizeWrites img src dst newW newH).map (fun p => .op (.wr p.1 p.2)) ++
        runScript (mode.instr img.channels) polls) := rfl
  have hstate : (resizeWrites img src dst newW newH).foldl (fun s p => s.writeReg p.1 p.2) (s.store src.toNat img.data) =
      resizeState img src dst newW newH s := by
    simp only [resizeWrites, List.foldl_cons, List.foldl_nil, State.writeReg, State.store, resizeState]
  rw [hprogram, runProgram_st hb hfit, runProgram_parameters (s := s.store src.toNat img.data) hb
    (by simp [resizeWrites, parameterRegisters]), hstate]

theorem wellFormed_scaleMode_instr (mode : ScaleMode) (ch : Channels) : (mode.instr ch).wellFormed := by
  cases mode <;> trivial

variable (hvalid : img.valid)
include hvalid

theorem toNat_width : (BitVec.ofNat 32 img.width).toNat = img.width := by
  rw [BitVec.toNat_ofNat, Nat.mod_eq_of_lt hvalid.1]

theorem toNat_height : (BitVec.ofNat 32 img.height).toNat = img.height := by
  rw [BitVec.toNat_ofNat, Nat.mod_eq_of_lt hvalid.2.1]

/-- The block reads the samples of the image that the host put in MEM. -/
theorem sample_resizeState {x y k : Nat} (hx : x < img.width) (hy : y < img.height) (hk : k < channelCount img.channels) :
    (resizeState img src dst newW newH s).sample img.width (channelCount img.channels) x y k =
      (img.byteAt (img.offset x y k)).toNat := by
  have hin : img.offset x y k < img.data.length := hvalid.2.2 ▸ PixelImage.pixelOffset_lt hx hy hk
  exact congrArg BitVec.toNat ((Memory.read_writeBytes_inside hin).trans (PixelImage.byteAt_of_lt hin).symm)

variable (hw : img.width ≠ 0) (hh : img.height ≠ 0) (hw' : newW ≠ 0#32) (hh' : newH ≠ 0#32)
  (hsrc : src.toNat + img.width * img.height * channelCount img.channels ≤ s.memSize)
  (hdst : dst.toNat + newW.toNat * newH.toNat * channelCount img.channels ≤ s.memSize)
  (hdisj : src.toNat + img.width * img.height * channelCount img.channels ≤ dst.toNat ∨
    dst.toNat + newW.toNat * newH.toNat * channelCount img.channels ≤ src.toNat)
include hw hh hw' hh' hsrc hdst hdisj

theorem resizeState_passesChecks :
    (resizeState img src dst newW newH s).passesChecks State.zeroImage (fun s => s.pixels * channelCount img.channels)
      (fun s => s.scaledBytes (channelCount img.channels)) := by
  have nonzero {n : Nat} (h0 : n ≠ 0) (hn : (BitVec.ofNat 32 n).toNat = n) : BitVec.ofNat 32 n ≠ 0#32 :=
    fun e => h0 (hn.symm.trans (congrArg BitVec.toNat e))
  have hpixels : (resizeState img src dst newW newH s).pixels = img.width * img.height :=
    congrArg₂ (· * ·) (toNat_width hvalid) (toNat_height hvalid)
  refine ⟨?_, ⟨?_, hdst⟩, fun hshare => ?_⟩
  · rintro ((e | e) | e | e)
    exacts [nonzero hw (toNat_width hvalid) e, nonzero hh (toNat_height hvalid) e, hw' e, hh' e]
  · simp only [hpixels]
    exact hsrc
  · simp only [hpixels] at hshare
    obtain ⟨-, -, hlt, hlt'⟩ : _ ∧ _ ∧ src.toNat < dst.toNat + newW.toNat * newH.toNat * channelCount img.channels ∧
      dst.toNat < src.toNat + img.width * img.height * channelCount img.channels := hshare
    omega

/-- The program of `resize` runs to a success whose destination holds the scaled image. -/
theorem runProgram_resize {value : Scaling Nat}
    (h : ∀ s, commandResult (mode.instr img.channels) s = scaleImage value (channelCount img.channels) s)
    (hb : s.busy = false) (he : s.err = false) (polls : Nat) :
    ∃ t, runProgram (resizeProgram mode img src dst newW newH polls) s = .next t ∧ t.done = true ∧ t.err = false ∧
      t.destinationImage img.channels = { addr := dst, width := newW, height := newH, channels := img.channels } ∧
      t.mem = ((resizeState img src dst newW newH s).complete
        (scaledImage value (channelCount img.channels) (resizeState img src dst newW newH s))).mem := by
  have hpass := resizeState_passesChecks hvalid hw hh hw' hh' hsrc hdst hdisj
  have hlen : src.toNat + img.data.length ≤ s.memSize := by rw [hvalid.2.2]; exact hsrc
  obtain ⟨reply, hrun⟩ := runProgram_runScript (wellFormed_scaleMode_instr mode img.channels)
    (s := resizeState img src dst newW newH s) ((State.accepts_iff _).mpr ⟨hb, he⟩) polls
  rw [(checksThen_of_scaleImage h).result_of_passes hpass] at hrun
  exact ⟨_, (runProgram_resizeProgram hb hlen polls).trans hrun, rfl, he, rfl, rfl⟩

/-- A mode whose command computes `spec` gives the image `spec` states. -/
theorem resizeOnBlock_gives {value : Scaling Nat} {spec : Scaling ℤ}
    (h : ∀ s, commandResult (mode.instr img.channels) s = scaleImage value (channelCount img.channels) s)
    (hv : ComputesByte value spec) (hspec : DependsOnImage spec) (hb : s.busy = false) (he : s.err = false)
    (polls : Nat) (uncovered : Except HostError PixelImage) :
    ∃ out : PixelImage, img.resizeOnBlock mode src dst newW newH polls uncovered s = .next (.ok out) ∧ out.valid ∧
      out.width = newW.toNat ∧ out.height = newH.toNat ∧ out.channels = img.channels ∧
      ∀ dx < out.width, ∀ dy < out.height, ∀ k < channelCount img.channels,
        ((out.byteAt (out.offset dx dy k)).toNat : ℤ) =
          spec (fun x y k => (img.byteAt (img.offset x y k)).toNat) img.width img.height newW.toNat newH.toNat dx dy k := by
  obtain ⟨t, hrun, hdone, herr, hregion, hmem⟩ :=
    runProgram_resize hvalid hw hh hw' hh' hsrc hdst hdisj h hb he polls
  have hadopt := (runAndCollect_next hrun uncovered fun t => t.imageAt (t.destinationImage img.channels)).trans
    (congrArg Host.Outcome.next (collect_done hdone herr _ _))
  rw [hregion] at hadopt
  refine ⟨_, hadopt, ⟨newW.isLt, newH.isLt, Memory.length_readBytes _ _ _⟩, rfl, rfl, rfl, fun dx hdx dy hdy k hk => ?_⟩
  have hzero := (resizeState_passesChecks (s := s) hvalid hw hh hw' hh' hsrc hdst hdisj).1
  rw [byteAt_imageAt _ _ hdx hdy hk, hmem]
  refine (read_scaledImage_spec hv hzero hdx hdy hk).trans ?_
  show spec (State.sample _ (BitVec.ofNat 32 img.width).toNat _) (BitVec.ofNat 32 img.width).toNat
    (BitVec.ofNat 32 img.height).toNat _ _ _ _ _ = _
  rw [toNat_width hvalid, toNat_height hvalid]
  exact hspec _ _ _ _ _ _ dx dy k (Nat.pos_of_ne_zero hw) (Nat.pos_of_ne_zero hh) hdx hdy fun x hx y hy =>
    sample_resizeState hvalid hx hy hk

end Resize

/-! ## The statement -/

/-- Settles O59. -/
theorem resizeOnBlockGivesTheImage : Obligations.ResizeOnBlockGivesTheImage := by
  unfold Obligations.ResizeOnBlockGivesTheImage
  intro mode img s src dst newW newH polls uncovered c n m sample hvalid hw hh hw' hh' hb he hsrc hdst hdisj
  cases mode with
  | bilinear =>
    exact resizeOnBlock_gives hvalid hw hh hw' hh' hsrc hdst hdisj (fun _ => rfl) bilinearValue_computesByte
      bilinear_dependsOnImage hb he polls uncovered
  | bicubic =>
    exact resizeOnBlock_gives hvalid hw hh hw' hh' hsrc hdst hdisj (fun _ => rfl) bicubicValue_computesByte
      bicubic_dependsOnImage hb he polls uncovered

end Sys2Proof.Machine
end

section
/-! GIF files (46_host_software.md R330 to R342): the sections of a file are fields one after another, so each reads back; the
table gives every colour its index and the index its colour. Settles O60. -/

namespace Sys2Proof.Machine

/-! ## The exponent and the minimum code size -/

/-- At most 256 colours have a table of one of the eight sizes (46_host_software.md R338). -/
theorem tableExponent_of_le {count : Nat} (h : count ≤ 256) :
    ∃ nexp ≤ 7, tableExponent count = some nexp ∧ count ≤ tableSize nexp := by
  have hsome : (tableExponent count).isSome :=
    List.find?_isSome.mpr ⟨7, List.mem_range.mpr (by decide), decide_eq_true h⟩
  obtain ⟨nexp, hnexp⟩ := Option.isSome_iff_exists.mp hsome
  have hlt : nexp < 8 := List.mem_range.mp (List.mem_of_find?_eq_some hnexp)
  have hcount := List.find?_some hnexp
  exact ⟨nexp, Nat.le_of_lt_succ hlt, hnexp, of_decide_eq_true hcount⟩

/-- Encoder and decoder with the same MCS_BYTE agree on the exponent (46_host_software.md R334, R335). -/
theorem nexpOfMcs_mcsByte (mcs : McsByte) {nexp : Nat} (h : nexp ≤ 7) : nexpOfMcs mcs (mcsByte mcs nexp) = some nexp := by
  cases mcs <;> interval_cases nexp <;> rfl

theorem mcsByte_le (mcs : McsByte) {nexp : Nat} (h : nexp ≤ 7) : mcsByte mcs nexp ≤ 9 := by
  cases mcs
  · exact Nat.add_le_add_right h 2
  · exact Nat.le_succ_of_le (Nat.add_le_add_right h 1)

/-! ## The sections of a file -/

/-- The fields of the logical screen descriptor (46_host_software.md R332). -/
def screenFields (f : GifOpenFields) (w h nexp : Nat) : List (Nat × Nat) :=
  [(2, w), (2, h), (1, 128 + f.screenBits.toNat * 8 + nexp), (1, f.background.toNat), (1, f.aspect.toNat)]

/-- The fields of the image descriptor behind its separator, and the minimum-code-size byte (46_host_software.md R334). -/
def imageFields (f : GifOpenFields) (w h size : Nat) : List (Nat × Nat) :=
  [(2, f.left.toNat), (2, f.top.toNat), (2, w), (2, h), (1, 0), (1, size)]

/-- The bytes of a colour table (46_host_software.md R333). -/
def tableBytes (table : List Rgb) : List Byte := table.flatMap fun c => [c.1, c.2.1, c.2.2]

/-- The sections before the chain. -/
def gifHead (f : GifOpenFields) (w h nexp size : Nat) (table : List Rgb) : List Byte :=
  gifScreen f w h nexp table ++ ([gifSeparator] ++ fieldBytes (imageFields f w h size))

/-- A file of a colour table and a chain. -/
def gifBytes (f : GifOpenFields) (w h nexp size : Nat) (table : List Rgb) (chain : List Byte) : List Byte :=
  gifHead f w h nexp size table ++ (chain ++ [gifTrailer])

theorem littleEndian_one (value : Nat) : littleEndian 1 value = [BitVec.ofNat 8 value] := by simp [littleEndian]

theorem gifFile_eq_gifBytes (f : GifOpenFields) (policy : GctPolicy) (img : PixelImage) (nexp size : Nat)
    (chain : List Byte) :
    gifFile f policy img nexp size chain =
      gifBytes f img.width img.height nexp size (paddedTable policy (policy.order img.colours) nexp) chain := by
  simp [gifFile, gifBytes, gifHead, gifDescriptor, fieldBytes, imageFields, littleEndian_one]

theorem gifScreen_eq_fields (f : GifOpenFields) (w h nexp : Nat) (table : List Rgb) :
    gifScreen f w h nexp table =
      (gifSignature ++ f.version.bytes) ++ (fieldBytes (screenFields f w h nexp) ++ tableBytes table) := by
  simp [gifScreen, fieldBytes, screenFields, tableBytes, screenPacked, littleEndian_one]

theorem length_gifVersion (v : GifVersion) : v.bytes.length = 3 := by cases v <;> rfl

theorem length_tableBytes (table : List Rgb) : (tableBytes table).length = 3 * table.length := by
  simp [tableBytes, List.length_flatMap, Nat.mul_comm]

/-- The entries from i on begin at byte 3i. -/
theorem drop_tableBytes (table : List Rgb) (i : Nat) : (tableBytes table).drop (3 * i) = tableBytes (table.drop i) := by
  induction i generalizing table with
  | zero => rfl
  | succ i ih =>
    cases table with
    | nil => simp [tableBytes]
    | cons c rest => exact ih rest

theorem gifTableEntry_of_drop {bytes rest : List Byte} {i : Nat} {c : Rgb}
    (h : bytes.drop (13 + 3 * i) = c.1 :: c.2.1 :: c.2.2 :: rest) : gifTableEntry bytes i = c := by
  have hbyte (j : Nat) : bytes.getD (13 + 3 * i + j) 0x00#8 = (c.1 :: c.2.1 :: c.2.2 :: rest).getD j 0x00#8 := by
    rw [← h, List.getD_eq_getElem?_getD, List.getD_eq_getElem?_getD, List.getElem?_drop]
  have hgreen : 14 + 3 * i = 13 + 3 * i + 1 := by omega
  have hblue : 15 + 3 * i = 13 + 3 * i + 2 := by omega
  rw [gifTableEntry, hgreen, hblue, hbyte 1, hbyte 2, ← Nat.add_zero (13 + 3 * i), hbyte 0]
  rfl

/-! ## Reading the sections of a file back -/

section GifFile

variable (f : GifOpenFields) {w h nexp size : Nat} {table : List Rgb} (chain : List Byte)

theorem length_gifScreen (htable : table.length = tableSize nexp) :
    (gifScreen f w h nexp table).length = 13 + 3 * tableSize nexp := by
  simp only [gifScreen_eq_fields, List.length_append, length_gifVersion, length_fieldBytes, length_tableBytes, htable]
  simp [gifSignature, screenFields]
  omega

theorem length_gifHead (htable : table.length = tableSize nexp) :
    (gifHead f w h nexp size table).length = 13 + 3 * tableSize nexp + 11 := by
  simp only [gifHead, List.length_append, length_gifScreen f htable, length_fieldBytes]
  simp [imageFields]

/-- A file from its separator on. -/
theorem gifBytes_eq_screen_append :
    gifBytes f w h nexp size table chain =
      gifScreen f w h nexp table ++ ([gifSeparator] ++ (fieldBytes (imageFields f w h size) ++ (chain ++ [gifTrailer]))) := by
  simp only [gifBytes, gifHead, List.append_assoc]

/-- A file from its logical screen descriptor on. -/
theorem gifBytes_eq_signature_append :
    ∃ after, gifBytes f w h nexp size table chain =
      (gifSignature ++ f.version.bytes) ++ (fieldBytes (screenFields f w h nexp) ++ (tableBytes table ++ after)) :=
  ⟨_, by rw [gifBytes_eq_screen_append, gifScreen_eq_fields]; simp only [List.append_assoc]; rfl⟩

theorem readLittleEndian_imageField (htable : table.length = tableSize nexp) {k n value : Nat}
    (hk : (imageFields f w h size)[k]? = some (n, value)) (hfit : value < 256 ^ n) :
    readLittleEndian (gifBytes f w h nexp size table chain)
      (13 + 3 * tableSize nexp + (1 + fieldOffset (imageFields f w h size) k)) n = value := by
  rw [gifBytes_eq_screen_append, ← length_gifScreen f htable, readLittleEndian_append_right]
  exact readLittleEndian_field [gifSeparator] _ hk hfit

theorem readLittleEndian_gifPacked (hnexp : nexp ≤ 7) :
    readLittleEndian (gifBytes f w h nexp size table chain) 10 1 = 128 + f.screenBits.toNat * 8 + nexp := by
  obtain ⟨after, hfile⟩ := gifBytes_eq_signature_append f (w := w) (h := h) (nexp := nexp) (size := size)
    (table := table) chain
  have hbits := f.screenBits.isLt
  have hoffset : (gifSignature ++ f.version.bytes).length + fieldOffset (screenFields f w h nexp) 2 = 10 := by
    rw [List.length_append, length_gifVersion]
    rfl
  rw [hfile, ← hoffset]
  exact readLittleEndian_field _ _ rfl (by omega)

/-- The layout of a file with a table of 2^(NEXP+1) entries. -/
def tableLayout (nexp : Nat) : GifLayout where
  exponent := some nexp
  entries := tableSize nexp
  start := 13 + 3 * tableSize nexp

theorem gifLayout_gifBytes (hnexp : nexp ≤ 7) :
    gifLayout (gifBytes f w h nexp size table chain) = tableLayout nexp := by
  have hflag : ¬128 + f.screenBits.toNat * 8 + nexp < 128 := by omega
  have hexponent : (128 + f.screenBits.toNat * 8 + nexp) % 8 = nexp := by omega
  simp only [gifLayout, readLittleEndian_gifPacked f chain hnexp, if_neg hflag, hexponent]
  rfl

theorem gifHeaderIntact_gifBytes (hnexp : nexp ≤ 7) (htable : table.length = tableSize nexp) :
    gifHeaderIntact (gifBytes f w h nexp size table chain) = true := by
  have hlen : (tableLayout nexp).start + 11 ≤ (gifBytes f w h nexp size table chain).length := by
    rw [gifBytes, List.length_append, length_gifHead f htable]
    exact Nat.le_add_right _ _
  obtain ⟨after, hfile⟩ := gifBytes_eq_signature_append f (w := w) (h := h) (nexp := nexp) (size := size)
    (table := table) chain
  have hsignature : (gifBytes f w h nexp size table chain).take 3 = gifSignature := by
    rw [hfile, List.append_assoc]
    rfl
  have hversion : ((gifBytes f w h nexp size table chain).drop 3).take 3 = f.version.bytes := by
    rw [hfile, List.append_assoc]
    exact List.take_left' (length_gifVersion f.version)
  rw [gifHeaderIntact, gifLayout_gifBytes f chain hnexp, hsignature, hversion]
  cases f.version <;> simpa using hlen

theorem getD_gifSeparator (htable : table.length = tableSize nexp) :
    (gifBytes f w h nexp size table chain).getD (tableLayout nexp).start 0x00#8 = gifSeparator := by
  rw [gifBytes_eq_screen_append, tableLayout, ← length_gifScreen f htable, List.getD_append_right _ _ _ _ (Nat.le_refl _),
    Nat.sub_self]
  rfl

theorem gifImageSize_gifBytes (htable : table.length = tableSize nexp) (hw : w < 2 ^ 16) (hh : h < 2 ^ 16) :
    gifImageSize (gifBytes f w h nexp size table chain) (tableLayout nexp) = (w, h) :=
  Prod.ext (readLittleEndian_imageField f chain htable (k := 2) rfl hw)
    (readLittleEndian_imageField f chain htable (k := 3) rfl hh)

theorem gifChain_gifBytes (htable : table.length = tableSize nexp) :
    gifChain (gifBytes f w h nexp size table chain) (tableLayout nexp) = chain ++ [gifTrailer] :=
  List.drop_left' (length_gifHead f htable)

/-- The trailer follows the chain (46_host_software.md R330). -/
theorem getElem?_gifTrailer (htable : table.length = tableSize nexp) :
    (gifBytes f w h nexp size table chain)[(tableLayout nexp).start + 11 + chain.length]? = some gifTrailer := by
  rw [← List.getElem?_drop, ← gifChain, gifChain_gifBytes f chain htable]
  exact List.getElem?_concat_length

/-- Entry i of the file's table is entry i of the table (46_host_software.md R333). -/
theorem gifTableEntry_gifBytes {i : Nat} (hi : i < table.length) :
    gifTableEntry (gifBytes f w h nexp size table chain) i = table[i] := by
  obtain ⟨after, hfile⟩ := gifBytes_eq_signature_append f (w := w) (h := h) (nexp := nexp) (size := size)
    (table := table) chain
  have hstart : ((gifSignature ++ f.version.bytes) ++ fieldBytes (screenFields f w h nexp)).length = 13 := by
    rw [List.length_append, List.length_append, length_gifVersion, length_fieldBytes]
    rfl
  have hin : 3 * i ≤ (tableBytes table).length := by
    rw [length_tableBytes]
    omega
  have hdrop : (gifBytes f w h nexp size table chain).drop (13 + 3 * i) = tableBytes (table.drop i) ++ after := by
    rw [hfile, ← List.append_assoc, ← List.drop_drop, List.drop_left' hstart, List.drop_append_of_le_length hin,
      drop_tableBytes]
  rw [List.drop_eq_getElem_cons hi] at hdrop
  exact gifTableEntry_of_drop hdrop

/-- A file's sections before the chain are accepted (46_host_software.md R331 to R335). -/
theorem gifDecodeHeader_gifBytes (hnexp : nexp ≤ 7) (htable : table.length = tableSize nexp) :
    gifDecodeHeader f.mcs (gifBytes f w h nexp (mcsByte f.mcs nexp) table chain) = .ok (tableLayout nexp, nexp) := by
  have hmcs := mcsByte_le f.mcs hnexp
  have hpacked : readLittleEndian (gifBytes f w h nexp (mcsByte f.mcs nexp) table chain)
      ((tableLayout nexp).start + 9) 1 = 0 :=
    readLittleEndian_imageField f chain htable (k := 4) rfl (by decide)
  have hsize : readLittleEndian (gifBytes f w h nexp (mcsByte f.mcs nexp) table chain)
      ((tableLayout nexp).start + 10) 1 = mcsByte f.mcs nexp :=
    readLittleEndian_imageField f chain htable (k := 5) rfl (by omega)
  have hseparator := getD_gifSeparator f (w := w) (h := h) (size := mcsByte f.mcs nexp) chain htable
  rw [gifDecodeHeader, gifLayout_gifBytes f chain hnexp, gifHeaderIntact_gifBytes f chain hnexp htable]
  simp only [hpacked, hsize, hseparator, nexpOfMcs_mcsByte f.mcs hnexp]
  simp [tableLayout]

end GifFile

/-! ## Colours and their indices -/

section Colours

variable (policy : GctPolicy) {img : PixelImage} {nexp : Nat}

theorem length_order_colours : (policy.order img.colours).length = img.colours.length :=
  (policy.order_perm _).length_eq

theorem length_paddedTable {colours : List Rgb} (h : colours.length ≤ tableSize nexp) :
    (paddedTable policy colours nexp).length = tableSize nexp := by
  simp [paddedTable, h]

/-- Every pixel's colour has a place in the table (46_host_software.md R338). -/
theorem idxOf_colour_lt {c : Rgb} (hc : c ∈ img.rgbList) :
    (policy.order img.colours).idxOf c < (policy.order img.colours).length :=
  List.idxOf_lt_length_iff.mpr ((policy.order_perm _).mem_iff.mpr (List.mem_eraseDups.mpr hc))

theorem areIndices_indices (h : img.colours.length ≤ tableSize nexp) : AreIndices nexp (img.indices policy) := by
  intro i hi
  obtain ⟨c, hc, rfl⟩ := List.mem_map.mp hi
  exact (idxOf_colour_lt policy hc).trans_le ((length_order_colours policy).trans_le h)

theorem length_indices : (img.indices policy).length = img.width * img.height := by
  simp [PixelImage.indices, PixelImage.rgbList]

/-- The table has a colour at its index. -/
theorem getElem_paddedTable_idxOf {c : Rgb} (hc : c ∈ img.rgbList)
    (h : (policy.order img.colours).idxOf c < (paddedTable policy (policy.order img.colours) nexp).length) :
    (paddedTable policy (policy.order img.colours) nexp)[(policy.order img.colours).idxOf c] = c :=
  (List.getElem_append_left (idxOf_colour_lt policy hc)).trans (List.getElem_idxOf _)

end Colours

/-- The three bytes of a pixel, in stored order (46_host_software.md R302). -/
theorem pixel_bytes {img : PixelImage} (hf : img.filled) (hc : img.channels = .three) {p : Nat}
    (hp : p < img.width * img.height) :
    [img.byteAt (3 * p), img.byteAt (3 * p + 1), img.byteAt (3 * p + 2)] = (img.data.drop (3 * p)).take 3 := by
  have hlen : img.data.length = img.width * img.height * 3 := by
    rw [hf, hc]
    rfl
  rw [PixelImage.byteAt_of_lt (by omega), PixelImage.byteAt_of_lt (by omega), PixelImage.byteAt_of_lt (by omega),
    List.drop_eq_getElem_cons (by omega), List.drop_eq_getElem_cons (by omega), List.drop_eq_getElem_cons (by omega)]
  rfl

/-- Where the table of a file gives every pixel's index its colour, the file's pixels are the buffer
(46_host_software.md R336, R337). -/
theorem gifPixels_indices (policy : GctPolicy) {img : PixelImage} (hf : img.filled) (hc : img.channels = .three)
    {bytes : List Byte}
    (htable : ∀ c ∈ img.rgbList, gifTableEntry bytes ((policy.order img.colours).idxOf c) = c) :
    gifPixels bytes (img.indices policy) = img.data := by
  have hlen : img.data.length = 3 * (img.width * img.height) := by
    rw [hf, hc, Nat.mul_comm]
    rfl
  rw [gifPixels, PixelImage.indices, List.flatMap_map]
  refine (List.flatMap_congr fun c hcolour => congrArg (fun c : Rgb => [c.2.2, c.2.1, c.1]) (htable c hcolour)).trans ?_
  rw [PixelImage.rgbList, List.flatMap_map, hc]
  refine (List.flatMap_congr fun p hp => pixel_bytes hf hc (List.mem_range.mp hp)).trans ?_
  rw [flatMap_pieces, ← hlen, List.take_length]

/-- Decoding the file of a chain gives the image whose indices the chain holds (46_host_software.md R337). -/
theorem gifDecoded_gifBytes (f : GifOpenFields) (policy : GctPolicy) {img : PixelImage} {nexp size : Nat}
    (u : Except HostError PixelImage) (chain : List Byte) (hf : img.filled) (hc : img.channels = .three)
    (hw : img.width < 2 ^ 16) (hh : img.height < 2 ^ 16) (hcolours : img.colours.length ≤ tableSize nexp) :
    gifDecoded u
      (gifBytes f img.width img.height nexp size (paddedTable policy (policy.order img.colours) nexp) chain)
      (tableLayout nexp) (img.indices policy) chain.length = .ok img := by
  have htable := length_paddedTable policy ((length_order_colours policy).trans_le hcolours)
  have hpixels : gifPixels
      (gifBytes f img.width img.height nexp size (paddedTable policy (policy.order img.colours) nexp) chain)
      (img.indices policy) = img.data := by
    refine gifPixels_indices policy hf hc fun c hcolour => ?_
    have hi : (policy.order img.colours).idxOf c < (paddedTable policy (policy.order img.colours) nexp).length := by
      rw [htable]
      exact areIndices_indices policy hcolours _ (List.mem_map_of_mem hcolour)
    exact (gifTableEntry_gifBytes f chain hi).trans (getElem_paddedTable_idxOf policy hcolour hi)
  have hindices : ¬((img.indices policy).length ≠ img.width * img.height ∨
      (img.indices policy).any ((tableLayout nexp).entries ≤ ·) = true) := by
    rintro (hlen | hlarge)
    · exact hlen (length_indices policy)
    · obtain ⟨i, hi, hle⟩ := List.any_eq_true.mp hlarge
      exact Nat.not_le.mpr (areIndices_indices policy hcolours i hi) (of_decide_eq_true hle)
  rw [gifDecoded, gifAfterImage, if_pos (getElem?_gifTrailer f chain htable)]
  simp only [gifImageSize_gifBytes f chain htable hw hh, hpixels]
  rw [if_neg hindices, ← hc]

/-! ## The statement -/

theorem rgbList_ne_nil {img : PixelImage} (hw : 1 ≤ img.width) (hh : 1 ≤ img.height) : img.rgbList ≠ [] := by
  have hpixels : 0 < img.width * img.height := Nat.mul_pos hw hh
  refine List.ne_nil_of_length_pos ?_
  simpa [PixelImage.rgbList] using hpixels

theorem indices_ne_nil (policy : GctPolicy) {img : PixelImage} (h : img.rgbList ≠ []) : img.indices policy ≠ [] :=
  fun hnil => h (List.map_eq_nil_iff.mp hnil)

/-- The numbers of the bytes of a chain of LZW.ENC are the chain. -/
theorem map_toNat_lzwEncode (nexp : Nat) (indices : List Nat) :
    ((lzwEncode nexp indices).map (BitVec.ofNat 8)).map (·.toNat) = lzwEncode nexp indices := by
  rw [List.map_map]
  exact (List.map_congr_left fun byte hbyte => (BitVec.toNat_ofNat byte 8).trans
    (Nat.mod_eq_of_lt (lzwEncode_lt nexp indices byte hbyte))).trans (List.map_id' _)

/-- Settles O60. -/
theorem gifRoundTrip : Obligations.GifRoundTrip := by
  unfold Obligations.GifRoundTrip
  intro f policy img u u' hlocal hf hc hwpos hw hhpos hh hcount
  obtain ⟨nexp, hnexp, hexponent, hcolours⟩ := tableExponent_of_le hcount
  have hne := rgbList_ne_nil hwpos hhpos
  have htable := length_paddedTable policy ((length_order_colours policy).trans_le hcolours)
  refine ⟨gifFile f policy img nexp (mcsByte f.mcs nexp) ((lzwEncode nexp (img.indices policy)).map (BitVec.ofNat 8)),
    ?_, ?_⟩
  · simp [encodeGif, hlocal, hne, length_order_colours, hexponent]
  · have hdecode := lzwDecode_lzwEncode hnexp (indices_ne_nil policy hne)
      (areIndices_indices policy hcolours) (length_indices policy).le [gifTrailer.toNat]
    have hdecoded := gifDecoded_gifBytes f policy (size := mcsByte f.mcs nexp) u'
      ((lzwEncode nexp (img.indices policy)).map (BitVec.ofNat 8)) hf hc hw hh hcolours
    rw [List.length_map] at hdecoded
    rw [gifFile_eq_gifBytes, decodeGif, gifDecodeHeader_gifBytes f _ hnexp htable]
    simp only [gifImageSize_gifBytes f _ htable hw hh, gifChain_gifBytes f _ htable, List.map_append,
      map_toNat_lzwEncode, List.map_singleton, hdecode, hdecoded]

end Sys2Proof.Machine
end
